-- ==== Sys2Proof/Word.lean ====
section
/-! DEFINITION. The word types, the binary32 datum, the two ports and the fixed groups of BM-DSP
(spec/00_scope.md R11, R12; spec/10_state.md R31, R36, R38, R40, R42). -/

namespace Sys2Proof

/-- One byte on the host bus (R86). -/
abbrev Byte := BitVec 8

/-- A 32-bit word: a command word, a data word, a u32, or the encoding of an f32 (R12). -/
abbrev Word := BitVec 32

/-- A binary32 datum, that is, a binary32 value without the sign and payload of a NaN, which no rule
inspects (R20).  A finite datum is its sign and its magnitude counted in units of 2^-149, the
spacing of the subnormals, so that every finite binary32 value is a whole number of units. -/
inductive F32 where
  | nan
  | inf (neg : Bool)
  | fin (neg : Bool) (mag : Nat)
deriving DecidableEq, Repr

/-- The two command sources (R31, R76): CTRL is port 0 and AUDIO is port 1. -/
inductive Port where
  | ctrl
  | audio
deriving DecidableEq, Repr

/-- One value for each port (R31). -/
structure Ports (α : Type) where
  ctrl : α
  audio : α
deriving DecidableEq, Repr

/-- The value of port `p`. -/
def Ports.get {α : Type} (r : Ports α) : Port → α
  | .ctrl => r.ctrl
  | .audio => r.audio

/-- The pair with port `p`'s value replaced. -/
def Ports.set {α : Type} (r : Ports α) (p : Port) (v : α) : Ports α :=
  match p with
  | .ctrl => { r with ctrl := v }
  | .audio => { r with audio := v }

/-- Four like things, numbered 0 to 3: the combs and the all-passes of a REVERB instance (R42). -/
structure Four (α : Type) where
  e0 : α
  e1 : α
  e2 : α
  e3 : α
deriving DecidableEq, Repr

/-- Element `k` of the four. -/
def Four.get {α : Type} (f : Four α) : Fin 4 → α
  | 0 => f.e0
  | 1 => f.e1
  | 2 => f.e2
  | 3 => f.e3

/-- The four elements given by a function of their number. -/
def Four.of {α : Type} (g : Fin 4 → α) : Four α := ⟨g 0, g 1, g 2, g 3⟩

/-- The waveform select of an oscillator, the u2 of R36: 0 saw, 1 sine, 2 square, 3 triangle. -/
inductive Wave where
  | saw
  | sine
  | square
  | triangle
deriving DecidableEq, Repr

/-- The mode of a biquad core or a ladder, the u1 of R38 and R40: 0 lowpass, 1 highpass. -/
inductive FilterMode where
  | lowpass
  | highpass
deriving DecidableEq, Repr

end Sys2Proof
end

