-- ==== Sys2Proof/Syntax.lean ====
section
/-! DEFINITION. The BM-DSP command set, version 1: one constructor per row of spec/opcode_table.json
(spec/30_encoding.md R110).  The operand of a command is not part of the command word: it is read from
`DATA[p]` (R103). -/

namespace Sys2Proof

/-- A command.  `idx` is the instance number of the IDX field (R104); SYS commands have none. -/
inductive Instr where
  /-- SYS.NOP -/
  | sysNop
  /-- SYS.RESET -/
  | sysReset
  /-- SYS.CLRSTAT -/
  | sysClrstat
  /-- SMOOTH.SETTARGET -/
  | smoothSetTarget (idx : Nat)
  /-- SMOOTH.GET -/
  | smoothGet (idx : Nat)
  /-- SMOOTH.SETCOEFF -/
  | smoothSetCoeff (idx : Nat)
  /-- OSC.SETFREQ -/
  | oscSetFreq (idx : Nat)
  /-- OSC.SAMPLE -/
  | oscSample (idx : Nat)
  /-- OSC.RESET -/
  | oscReset (idx : Nat)
  /-- OSC.SETWAVE -/
  | oscSetWave (idx : Nat)
  /-- OSC.SETDUTY -/
  | oscSetDuty (idx : Nat)
  /-- DELAY.SETBEATS -/
  | delaySetBeats (idx : Nat)
  /-- DELAY.SETBPM -/
  | delaySetBpm (idx : Nat)
  /-- DELAY.SETFB -/
  | delaySetFb (idx : Nat)
  /-- DELAY.SETWET -/
  | delaySetWet (idx : Nat)
  /-- DELAY.PROCESS -/
  | delayProcess (idx : Nat)
  /-- LADDER.SETCUTOFF -/
  | ladderSetCutoff (idx : Nat)
  /-- LADDER.SETRES -/
  | ladderSetRes (idx : Nat)
  /-- LADDER.SETMODE -/
  | ladderSetMode (idx : Nat)
  /-- LADDER.PROCESS -/
  | ladderProcess (idx : Nat)
  /-- BIQUAD.SETCUTOFF -/
  | biquadSetCutoff (idx : Nat)
  /-- BIQUAD.SETQ -/
  | biquadSetQ (idx : Nat)
  /-- BIQUAD.SETMODE -/
  | biquadSetMode (idx : Nat)
  /-- BIQUAD.PROCESS -/
  | biquadProcess (idx : Nat)
  /-- REVERB.SETRT60 -/
  | reverbSetRt60 (idx : Nat)
  /-- REVERB.PROCESS -/
  | reverbProcess (idx : Nat)
deriving DecidableEq, Repr

end Sys2Proof
end

