-- ==== Sys2Proof/WellFormed.lean ====
section
/-! DEFINITION. When a command is well formed: its instance number fits the 8-bit IDX field
(spec/30_encoding.md R101, R104).  An instance number at or above the unit's instance count is well
formed; R108 gives its effect. -/

namespace Sys2Proof

/-- The instance number of a command; 0 for a SYS command, whose IDX must be 0 (R104). -/
def Instr.idx : Instr → Nat
  | .sysNop => 0
  | .sysReset => 0
  | .sysClrstat => 0
  | .smoothSetTarget idx => idx
  | .smoothGet idx => idx
  | .smoothSetCoeff idx => idx
  | .oscSetFreq idx => idx
  | .oscSample idx => idx
  | .oscReset idx => idx
  | .oscSetWave idx => idx
  | .oscSetDuty idx => idx
  | .delaySetBeats idx => idx
  | .delaySetBpm idx => idx
  | .delaySetFb idx => idx
  | .delaySetWet idx => idx
  | .delayProcess idx => idx
  | .ladderSetCutoff idx => idx
  | .ladderSetRes idx => idx
  | .ladderSetMode idx => idx
  | .ladderProcess idx => idx
  | .biquadSetCutoff idx => idx
  | .biquadSetQ idx => idx
  | .biquadSetMode idx => idx
  | .biquadProcess idx => idx
  | .reverbSetRt60 idx => idx
  | .reverbProcess idx => idx

/-- The instance number fits the IDX field. -/
def Instr.wellFormed (i : Instr) : Bool := decide (i.idx < 256)

end Sys2Proof
end

