-- ==== Sys2Proof/Decode.lean ====
section
/-! DEFINITION. Decoding and encoding command words in format C (spec/30_encoding.md R101, R102, R106, R110).
A reserved word is rejected by the reason that makes it reserved; what the block does with one is
`Machine/Transaction.lean`'s. -/

namespace Sys2Proof

/-- Why a command word is reserved (R106). -/
inductive Reserved where
  /-- `cmd[15:0] ≠ 0` -/
  | rsvNonzero
  /-- `cmd[31:28] ≥ 0x7` -/
  | unitUnassigned
  /-- the (UNIT, OP) pair is not a row of R110 -/
  | opUnassigned
  /-- UNIT = SYS and `cmd[23:16] ≠ 0` -/
  | sysIndexNonzero
deriving DecidableEq, Repr

/-- UNIT, bits 31:28 (R101). -/
def unitField (w : Word) : Nat := w.toNat / 2 ^ 28 % 2 ^ 4

/-- OP, bits 27:24 (R101). -/
def opField (w : Word) : Nat := w.toNat / 2 ^ 24 % 2 ^ 4

/-- IDX, bits 23:16 (R101). -/
def idxField (w : Word) : Nat := w.toNat / 2 ^ 16 % 2 ^ 8

/-- RSV, bits 15:0 (R101). -/
def rsvField (w : Word) : Nat := w.toNat % 2 ^ 16

/-- The command of a (UNIT, OP) pair on instance `idx` (R110). -/
def decodePair (unit op idx : Nat) : Except Reserved Instr :=
  match unit, op with
  | 0, 0 => .ok .sysNop
  | 0, 1 => .ok .sysReset
  | 0, 2 => .ok .sysClrstat
  | 1, 0 => .ok (.smoothSetTarget idx)
  | 1, 1 => .ok (.smoothGet idx)
  | 1, 2 => .ok (.smoothSetCoeff idx)
  | 2, 0 => .ok (.oscSetFreq idx)
  | 2, 1 => .ok (.oscSample idx)
  | 2, 2 => .ok (.oscReset idx)
  | 2, 3 => .ok (.oscSetWave idx)
  | 2, 4 => .ok (.oscSetDuty idx)
  | 3, 0 => .ok (.delaySetBeats idx)
  | 3, 1 => .ok (.delaySetBpm idx)
  | 3, 2 => .ok (.delaySetFb idx)
  | 3, 3 => .ok (.delaySetWet idx)
  | 3, 4 => .ok (.delayProcess idx)
  | 4, 0 => .ok (.ladderSetCutoff idx)
  | 4, 1 => .ok (.ladderSetRes idx)
  | 4, 2 => .ok (.ladderSetMode idx)
  | 4, 3 => .ok (.ladderProcess idx)
  | 5, 0 => .ok (.biquadSetCutoff idx)
  | 5, 1 => .ok (.biquadSetQ idx)
  | 5, 2 => .ok (.biquadSetMode idx)
  | 5, 3 => .ok (.biquadProcess idx)
  | 6, 0 => .ok (.reverbSetRt60 idx)
  | 6, 1 => .ok (.reverbProcess idx)
  | _, _ => .error (if unit < 7 then .opUnassigned else .unitUnassigned)

/-- The decoder, total on every command word. -/
def decode (w : Word) : Except Reserved Instr :=
  if rsvField w ≠ 0 then .error .rsvNonzero
  else if unitField w = 0 ∧ idxField w ≠ 0 then .error .sysIndexNonzero
  else decodePair (unitField w) (opField w) (idxField w)

/-- `reserved(cmd)` (R106). -/
def reserved (w : Word) : Bool :=
  match decode w with
  | .ok _ => false
  | .error _ => true

/-- The UNIT and OP codes of a command (R110). -/
def Instr.unitOp : Instr → Nat × Nat
  | .sysNop => (0, 0)
  | .sysReset => (0, 1)
  | .sysClrstat => (0, 2)
  | .smoothSetTarget _ => (1, 0)
  | .smoothGet _ => (1, 1)
  | .smoothSetCoeff _ => (1, 2)
  | .oscSetFreq _ => (2, 0)
  | .oscSample _ => (2, 1)
  | .oscReset _ => (2, 2)
  | .oscSetWave _ => (2, 3)
  | .oscSetDuty _ => (2, 4)
  | .delaySetBeats _ => (3, 0)
  | .delaySetBpm _ => (3, 1)
  | .delaySetFb _ => (3, 2)
  | .delaySetWet _ => (3, 3)
  | .delayProcess _ => (3, 4)
  | .ladderSetCutoff _ => (4, 0)
  | .ladderSetRes _ => (4, 1)
  | .ladderSetMode _ => (4, 2)
  | .ladderProcess _ => (4, 3)
  | .biquadSetCutoff _ => (5, 0)
  | .biquadSetQ _ => (5, 1)
  | .biquadSetMode _ => (5, 2)
  | .biquadProcess _ => (5, 3)
  | .reverbSetRt60 _ => (6, 0)
  | .reverbProcess _ => (6, 1)

/-- The command word of a command, `match | (idx << 16)` (R110). -/
def encode (i : Instr) : Word :=
  BitVec.ofNat 32 (i.unitOp.1 * 2 ^ 28 + i.unitOp.2 * 2 ^ 24 + i.idx * 2 ^ 16)

/-- The instruction read from an instruction whose `nbits` bits are `w`: its command word is bits 31:0. -/
def decodeTableWord (nbits w : Nat) : Option Instr :=
  match decode (BitVec.ofNat 32 (w % 2 ^ nbits)) with
  | .ok i => some i
  | .error _ => none

end Sys2Proof
end

