-- ==== Sys2Proof/Config.lean ====
section
/-! DEFINITION. What a BM-DSP block is elaborated with (spec/00_scope.md R6, R8, spec/20_memory.md R80),
the configuration functions of R9, and the free values of the spec (R20, R77).  The free values and
the raw configuration functions are opaque: nothing can be proved of the value any of them takes. -/

namespace Sys2Proof

/-- The parameters of one block, fixed for its life (R6, R8, R80).  An f32 parameter is held as its
binary32 encoding.  Rule R10's legal ranges are `Params.legal` of Machine/Params.lean. -/
structure Params where
  /-- `FS`, the sample rate in Hz. -/
  fs : Nat
  /-- `N_SMOOTH`. -/
  nSmooth : Nat
  /-- `N_OSC`. -/
  nOsc : Nat
  /-- `N_DELAY`. -/
  nDelay : Nat
  /-- `N_LADDER`. -/
  nLadder : Nat
  /-- `N_BIQUAD`. -/
  nBiquad : Nat
  /-- `N_REVERB`. -/
  nReverb : Nat
  /-- `MAX_DELAY_MS`. -/
  maxDelayMs : Nat
  /-- `COMB_LEN[0..3]`. -/
  combLen : Four Nat
  /-- `AP_LEN[0..3]`. -/
  apLen : Four Nat
  /-- `AP_FB`. -/
  apFb : Word
  /-- `COMB_FB_BASE`. -/
  combFbBase : Word
  /-- `REVERB_FB_MAX`. -/
  reverbFbMax : Word
  /-- `DUTY_RESET`. -/
  dutyReset : Word
  /-- `LADDER_FC_MIN`. -/
  ladderFcMin : Word
  /-- `LADDER_FC_MAX_RATIO`. -/
  ladderFcMaxRatio : Word
  /-- `LADDER_RES_MAX`. -/
  ladderResMax : Word
  /-- `LADDER_FC_RESET`. -/
  ladderFcReset : Word
  /-- `LADDER_RES_RESET`. -/
  ladderResReset : Word
  /-- `BQ_FC_MIN`. -/
  bqFcMin : Word
  /-- `BQ_FC_MAX_RATIO`. -/
  bqFcMaxRatio : Word
  /-- `BQ_Q_MIN`. -/
  bqQMin : Word
  /-- `BQ_Q_MAX`. -/
  bqQMax : Word
  /-- `BQ_FC_RESET`. -/
  bqFcReset : Word
  /-- `BQ_Q_RESET`. -/
  bqQReset : Word
  /-- `DELAY_LP_FC`. -/
  delayLpFc : Word
  /-- `DELAY_LP_Q`. -/
  delayLpQ : Word
  /-- `DELAY_LP_ENABLE`. -/
  delayLpEnable : Bool
  /-- `DELAY_BPM_RESET`. -/
  delayBpmReset : Word
  /-- `SC_LADDER_FC`. -/
  scLadderFc : Word
  /-- `SC_LADDER_RES`. -/
  scLadderRes : Word
  /-- `SC_DELAY_LEN`. -/
  scDelayLen : Word
  /-- `SC_DELAY_WET`. -/
  scDelayWet : Word
  /-- `SMOOTH_COEFF_RESET`. -/
  smoothCoeffReset : Word
  /-- `MMIO_BASE`, the host-bus address of the register window. -/
  mmioBase : Nat
deriving DecidableEq, Repr

/-- The places of one command (or of reset) where a computed f32 is stored or returned, so that a NaN
there is a draw of its own (R20). -/
inductive Site where
  | result
  | setting
  | cur
  | len
  | wet
  | res
  | line
  | b0
  | b1
  | a1
  | a2
  | y
  | y1
  | y2
  | y3
  | y4
  | o1
  | o2
  | o3
  | o4
  | comb (k : Fin 4)
  | allpass (k : Fin 4)
  | combFb (k : Fin 4)
deriving DecidableEq, Repr

/-- FREE VALUE (R20): sign (bit 23) and payload (bits 22:0) of a NaN that is stored or returned at
a site of the command (or reset) with this draw number (notes/assumptions/1.md). -/
opaque Config.freeNan : Nat → Site → BitVec 24

/-- FREE VALUE (R77): which port's request executes next when both ports present one (true: AUDIO)
(notes/assumptions/2.md). -/
opaque Config.freePort : Nat → Bool

/-- FREE VALUE: `ftrunc` outside the domain R17 defines it on, which no reached state presents
(notes/assumptions/6.md). -/
opaque Config.freeTrunc : F32 → Nat

/-- The raw configuration functions of R9, before their named properties are imposed
(Machine/Functions.lean, notes/assumptions/5.md). -/
opaque Config.rawSin : F32 → Word
opaque Config.rawCos : F32 → Word
opaque Config.rawExp : F32 → Word
opaque Config.rawPow10 : F32 → Word
opaque Config.rawSat : F32 → Word

end Sys2Proof
end

