-- ==== Sys2Proof/Machine/Float.lean ====
section
/-! DEFINITION. IEEE 754 binary32 as spec/00_scope.md R12 and R14 to R20 use it: encodings, exact
arithmetic with one rounding to nearest even, comparisons, conversions, minimum, maximum, clamp
and the subnormal flush. -/

namespace Sys2Proof

/-- 2^149 units of 2^-149 make 1.0. -/
def F32.one149 : Nat := 2 ^ 149

/-- 2^128 in units: the magnitude at which a rounded result overflows (R14). -/
def F32.overflow : Nat := 2 ^ 128 * 2 ^ 149

/-- Bit 31 of an encoding (R12). -/
def F32.signOf (w : Word) : Bool := decide (2 ^ 31 ≤ w.toNat)

/-- Bits 30:23 of an encoding, the biased exponent (R12). -/
def F32.expOf (w : Word) : Nat := w.toNat / 2 ^ 23 % 2 ^ 8

/-- Bits 22:0 of an encoding, the fraction (R12). -/
def F32.fracOf (w : Word) : Nat := w.toNat % 2 ^ 23

/-- The datum a 32-bit encoding stands for (R12). -/
def F32.ofBits (w : Word) : F32 :=
  if F32.expOf w = 255 then
    if F32.fracOf w = 0 then .inf (F32.signOf w) else .nan
  else if F32.expOf w = 0 then .fin (F32.signOf w) (F32.fracOf w)
  else .fin (F32.signOf w) ((2 ^ 23 + F32.fracOf w) * 2 ^ (F32.expOf w - 1))

/-- A sign bit over 31 lower bits. -/
def F32.pack (neg : Bool) (low : Nat) : Word :=
  BitVec.ofNat 32 ((if neg then 2 ^ 31 else 0) + low)

/-- Bits 30:0 of the encoding of a representable magnitude of `mag` units. -/
def F32.magBits (mag : Nat) : Nat :=
  (mag.log2 - 23) * 2 ^ 23 + mag / 2 ^ (mag.log2 - 23)

/-- The encoding of a datum.  A NaN takes the sign and payload of the word `nanBits` (R20). -/
def F32.toBits (nanBits : Word) : F32 → Word
  | .nan => nanBits
  | .inf neg => F32.pack neg (255 * 2 ^ 23)
  | .fin neg mag => F32.pack neg (F32.magBits mag)

/-- The NaN encoding with a given sign (bit 23) and payload; every NaN is one of these (R20). -/
def F32.nanWord (payload : BitVec 24) : Word :=
  let frac := payload.toNat % 2 ^ 23
  F32.pack (decide (2 ^ 23 ≤ payload.toNat)) (255 * 2 ^ 23 + (if frac = 0 then 1 else frac))

/-- The nearest whole number to `n / d`, ties to even. -/
def F32.divNearest (n d : Nat) : Nat :=
  let q := n / d
  let r := n % d
  if 2 * r < d ∨ (2 * r = d ∧ q % 2 = 0) then q else q + 1

/-- The magnitude `n / d` units rounded to 24 significant bits, or to a whole unit below 2^-126, to
nearest, ties to even (R14). -/
def F32.roundMag (n d : Nat) : Nat :=
  let step := 2 ^ ((n / d).log2 - 23)
  F32.divNearest n (d * step) * step

/-- The binary32 datum nearest to the exact value of `n / d` units with the given sign; a rounded
magnitude of 2^128 or more overflows to infinity (R14). -/
def F32.round (neg : Bool) (n d : Nat) : F32 :=
  if F32.roundMag n d < F32.overflow then .fin neg (F32.roundMag n d) else .inf neg

/-- The sign bit flipped (R14). -/
def F32.neg : F32 → F32
  | .nan => .nan
  | .inf s => .inf (!s)
  | .fin s m => .fin (!s) m

/-- `a + b` (R14). -/
def F32.add : F32 → F32 → F32
  | .nan, _ => .nan
  | _, .nan => .nan
  | .inf s, .inf t => if s = t then .inf s else .nan
  | .inf s, .fin _ _ => .inf s
  | .fin _ _, .inf t => .inf t
  | .fin s m, .fin t n =>
    if s = t then F32.round s (m + n) 1
    else if n < m then F32.round s (m - n) 1
    else if m < n then F32.round t (n - m) 1
    else .fin false 0

/-- `a - b` (R14). -/
def F32.sub (a b : F32) : F32 := a.add b.neg

/-- `a * b` (R14). -/
def F32.mul : F32 → F32 → F32
  | .nan, _ => .nan
  | _, .nan => .nan
  | .inf s, .inf t => .inf (s ^^ t)
  | .inf s, .fin t n => if n = 0 then .nan else .inf (s ^^ t)
  | .fin s m, .inf t => if m = 0 then .nan else .inf (s ^^ t)
  | .fin s m, .fin t n => F32.round (s ^^ t) (m * n) F32.one149

/-- `a / b` (R14): division of a nonzero value by zero gives an infinity, 0/0 and inf/inf a NaN. -/
def F32.div : F32 → F32 → F32
  | .nan, _ => .nan
  | _, .nan => .nan
  | .inf _, .inf _ => .nan
  | .inf s, .fin t _ => .inf (s ^^ t)
  | .fin s _, .inf t => .fin (s ^^ t) 0
  | .fin s m, .fin t n =>
    if n = 0 then (if m = 0 then .nan else .inf (s ^^ t))
    else F32.round (s ^^ t) (m * F32.one149) n

/-- The place of a datum in the IEEE order: none for a NaN, and one place for both zeros (R18). -/
def F32.key : F32 → Option Int
  | .nan => none
  | .inf s => some (if s then -(F32.overflow : Int) else (F32.overflow : Int))
  | .fin s m => some (if s then -(m : Int) else (m : Int))

/-- `a < b`, false when either is a NaN (R18). -/
def F32.lt (a b : F32) : Bool :=
  match a.key, b.key with
  | some x, some y => decide (x < y)
  | _, _ => false

/-- `a ≤ b`, false when either is a NaN (R18). -/
def F32.le (a b : F32) : Bool :=
  match a.key, b.key with
  | some x, some y => decide (x ≤ y)
  | _, _ => false

/-- `a == b`, false when either is a NaN; +0.0 == -0.0 (R18). -/
def F32.eq (a b : F32) : Bool :=
  match a.key, b.key with
  | some x, some y => decide (x = y)
  | _, _ => false

/-- `isfinite(x)` (R18). -/
def F32.isFinite : F32 → Bool
  | .fin _ _ => true
  | _ => false

/-- `fmin(a, b)` is `if a < b then a else b` (R18). -/
def F32.fmin (a b : F32) : F32 := if a.lt b then a else b

/-- `fmax(a, b)` is `if a > b then a else b` (R18). -/
def F32.fmax (a b : F32) : F32 := if b.lt a then a else b

/-- `clamp(v, lo, hi)` is `fmin(fmax(v, lo), hi)` (R18). -/
def F32.clamp (v lo hi : F32) : F32 := (v.fmax lo).fmin hi

/-- x is subnormal: x ≠ 0 and |x| < 2^-126 (R19). -/
def F32.isSubnormal : F32 → Bool
  | .fin _ m => decide (0 < m) && decide (m < 2 ^ 23)
  | _ => false

/-- `flush(x)` is +0.0 when x is subnormal, and x otherwise (R19). -/
def F32.flush (x : F32) : F32 := if x.isSubnormal then .fin false 0 else x

/-- `u2f(n)`, the nearest binary32 value (R17). -/
def F32.ofNat (n : Nat) : F32 := F32.round false (n * F32.one149) 1

/-- `ftrunc(x)`, the integer part (R17).  Outside finite x ≥ 0 below 2^32 R17 does not define it and
the value is free. -/
def F32.trunc (x : F32) : Nat :=
  match x with
  | .fin s m =>
    if (s = false ∨ m = 0) ∧ m < 2 ^ 32 * F32.one149 then m / F32.one149 else Config.freeTrunc x
  | _ => Config.freeTrunc x

/-- The decimal literal `n / d` (R16): the nearest binary32 value, ties to even. -/
def F32.lit (n d : Nat) : F32 := F32.round false (n * F32.one149) d

/-- +0.0. -/
def F32.zero : F32 := .fin false 0

/-- 1.0. -/
def F32.one : F32 := F32.lit 1 1

/-- 2.0. -/
def F32.two : F32 := F32.lit 2 1

/-- The literal `TWO_PI`, 0x40C90FDB (R16). -/
def F32.twoPi : F32 := F32.ofBits 0x40C90FDB#32

end Sys2Proof
end

