-- ==== Sys2Proof/Machine/Params.lean ====
section
/-! DEFINITION. The fixed constants of spec/00_scope.md R7, the values derived from a block's parameters,
the legal ranges of R6, R8 and R80 (R10), and the reference parameters. -/

namespace Sys2Proof

/-- `DUTY_MIN`, 0.05 (R7). -/
def dutyMin : F32 := F32.ofBits 0x3D4CCCCD#32

/-- `DUTY_MAX`, 0.95 (R7). -/
def dutyMax : F32 := F32.ofBits 0x3F733333#32

/-- `DELAY_FB_MAX`, 0.99 (R7). -/
def delayFbMax : F32 := F32.ofBits 0x3F7D70A4#32

/-- `DRY_FLOOR`, 0.9 (R7). -/
def dryFloor : F32 := F32.ofBits 0x3F666666#32

/-- `LADDER_R_MAX`, 3.99 (R7). -/
def ladderRMax : F32 := F32.ofBits 0x407F5C29#32

/-- `LADDER_SCALE_K`, 1.386249 (R7). -/
def ladderScaleK : F32 := F32.ofBits 0x3FB1709B#32

/-- `LADDER_COMP_K`, 0.5 (R7). -/
def ladderCompK : F32 := F32.ofBits 0x3F000000#32

/-- `FS_f` is `u2f(FS)` (R17). -/
def Params.fsF (c : Params) : F32 := F32.ofNat c.fs

/-- `N_DBUF = floor(MAX_DELAY_MS * FS / 1000)`, exact in integers (R6, R190). -/
def Params.nDbuf (c : Params) : Nat := c.maxDelayMs * c.fs / 1000

/-- The ladder cutoff in Hz clamped as R211 clamps it. -/
def Params.clampLadderFc (c : Params) (v : F32) : F32 :=
  v.clamp (F32.ofBits c.ladderFcMin) (c.fsF.mul (F32.ofBits c.ladderFcMaxRatio))

/-- The biquad cutoff in Hz clamped as R231 clamps it. -/
def Params.clampBqFc (c : Params) (v : F32) : F32 :=
  v.clamp (F32.ofBits c.bqFcMin) (c.fsF.mul (F32.ofBits c.bqFcMaxRatio))

/-- The biquad Q clamped as R232 clamps it. -/
def Params.clampBqQ (c : Params) (v : F32) : F32 :=
  v.clamp (F32.ofBits c.bqQMin) (F32.ofBits c.bqQMax)

/-- `lo ≤ n ≤ hi`. -/
def inRange (lo n hi : Nat) : Bool := decide (lo ≤ n) && decide (n ≤ hi)

/-- A legal delay-line length, 1 to 2^24 (R6). -/
def lineLength (n : Nat) : Bool := inRange 1 n (2 ^ 24)

/-- An f32 in [0, 1), the range of a smoothing coefficient and of a line feedback (R8). -/
def inUnit (w : Word) : Bool := F32.zero.le (F32.ofBits w) && (F32.ofBits w).lt F32.one

/-- An f32 above 0 (R8). -/
def isPositive (w : Word) : Bool := F32.zero.lt (F32.ofBits w)

/-- An f32 in (0, 0.5), the range of the cutoff ratios (R8). -/
def inHalf (w : Word) : Bool := isPositive w && (F32.ofBits w).lt (F32.lit 1 2)

/-- The structural parameters are in the ranges of R6, and `MMIO_BASE` is a multiple of 32 (R80). -/
def Params.structureLegal (c : Params) : Bool :=
  [inRange 1 c.fs (2 ^ 24), inRange 1 c.nSmooth 256, inRange 1 c.nOsc 256, inRange 1 c.nDelay 256,
   inRange 1 c.nLadder 256, inRange 1 c.nBiquad 256, inRange 1 c.nReverb 256,
   decide (c.maxDelayMs < 2 ^ 32), lineLength c.nDbuf,
   lineLength c.combLen.e0, lineLength c.combLen.e1, lineLength c.combLen.e2, lineLength c.combLen.e3,
   lineLength c.apLen.e0, lineLength c.apLen.e1, lineLength c.apLen.e2, lineLength c.apLen.e3,
   decide (c.mmioBase % 32 = 0)].all id

/-- The numeric parameters are in the ranges of R8. -/
def Params.numericLegal (c : Params) : Bool :=
  [inUnit c.apFb, inUnit c.combFbBase, inUnit c.reverbFbMax,
   dutyMin.le (F32.ofBits c.dutyReset), (F32.ofBits c.dutyReset).le dutyMax,
   isPositive c.ladderFcMin, inHalf c.ladderFcMaxRatio, isPositive c.ladderResMax,
   F32.zero.le (F32.ofBits c.ladderResReset),
   (F32.ofBits c.ladderResReset).le (F32.ofBits c.ladderResMax),
   isPositive c.bqFcMin, inHalf c.bqFcMaxRatio, isPositive c.bqQMin,
   (F32.ofBits c.bqQMin).le (F32.ofBits c.bqQMax),
   isPositive c.delayBpmReset, (F32.ofBits c.delayBpmReset).isFinite,
   inUnit c.scLadderFc, inUnit c.scLadderRes, inUnit c.scDelayLen, inUnit c.scDelayWet,
   inUnit c.smoothCoeffReset].all id

/-- Every parameter is in its legal range; a block exists only for such parameters (R10). -/
def Params.legal (c : Params) : Bool := c.structureLegal && c.numericLegal

/-- The reference parameters of R6 and R8; for the OPEN ones, `COMB_LEN`, `AP_LEN` and `COMB_FB_BASE`, the
values the spec's test vectors use (spec/95_test_vectors.md), and 0 for `MMIO_BASE`.
DESIGN CHOICE (unsafe: notes/assumptions/3.md): these are the parameters of `State.reset`'s block only;
every meaning reads the parameters of the state it is given. -/
def Params.reference : Params where
  fs := 48000
  nSmooth := 2
  nOsc := 2
  nDelay := 2
  nLadder := 2
  nBiquad := 2
  nReverb := 2
  maxDelayMs := 1000
  combLen := ⟨3, 5, 7, 11⟩
  apLen := ⟨2, 3, 5, 7⟩
  apFb := 0x3F4CCCCD#32
  combFbBase := 0x3F4CCCCD#32
  reverbFbMax := 0x3F7D70A4#32
  dutyReset := 0x3F000000#32
  ladderFcMin := 0x41A00000#32
  ladderFcMaxRatio := 0x3EE66666#32
  ladderResMax := 0x3F800000#32
  ladderFcReset := 0x447A0000#32
  ladderResReset := 0x00000000#32
  bqFcMin := 0x41200000#32
  bqFcMaxRatio := 0x3EFAE148#32
  bqQMin := 0x3DCCCCCD#32
  bqQMax := 0x41A00000#32
  bqFcReset := 0x447A0000#32
  bqQReset := 0x3F3504F3#32
  delayLpFc := 0x45FA0000#32
  delayLpQ := 0x3F3504F3#32
  delayLpEnable := true
  delayBpmReset := 0x42F00000#32
  scLadderFc := 0x3A83126F#32
  scLadderRes := 0x3A83126F#32
  scDelayLen := 0x3A83126F#32
  scDelayWet := 0x3A83126F#32
  smoothCoeffReset := 0x00000000#32
  mmioBase := 0

end Sys2Proof
end

