-- ==== Sys2Proof/Machine/Functions.lean ====
section
/-! DEFINITION. The configuration functions SIN, COS, EXP, POW10 and SAT of spec/00_scope.md R9: raw functions
nothing is known of (Config.lean), made to have R9's named properties and no others.  Every function
with the named properties is one of these for some raw function: a raw result that has the property
is kept, and only one that breaks it is replaced (DESIGN CHOICE: notes/assumptions/5.md). -/

namespace Sys2Proof

/-- -1 ≤ v ≤ 1. -/
def F32.inSignedUnit (v : F32) : Bool := F32.one.neg.le v && v.le F32.one

/-- `v` where it lies in [-1, 1], else `other`. -/
def boundedOr (v other : F32) : F32 := if v.inSignedUnit then v else other

/-- `SIN(+0.0) = +0.0`, and `-1 ≤ SIN(x) ≤ 1` for finite x (R9). -/
def F32.sin (x : F32) : F32 :=
  if x = F32.zero then F32.zero
  else if x.isFinite then boundedOr (F32.ofBits (Config.rawSin x)) F32.zero
  else F32.ofBits (Config.rawSin x)

/-- `COS(+0.0) = 1.0`, and `-1 ≤ COS(x) ≤ 1` for finite x (R9). -/
def F32.cos (x : F32) : F32 :=
  if x = F32.zero then F32.one
  else if x.isFinite then boundedOr (F32.ofBits (Config.rawCos x)) F32.zero
  else F32.ofBits (Config.rawCos x)

/-- `EXP(x) > 0` for finite x (R9). -/
def F32.exp (x : F32) : F32 :=
  let v := F32.ofBits (Config.rawExp x)
  if x.isFinite && !(F32.zero.lt v) then F32.one else v

/-- `0 ≤ POW10(x) ≤ 1` for finite x ≤ 0 (R9). -/
def F32.pow10 (x : F32) : F32 :=
  let v := F32.ofBits (Config.rawPow10 x)
  if x.isFinite && x.le F32.zero && !(F32.zero.le v && v.le F32.one) then F32.one else v

/-- `SAT` on a datum whose sign is +: `SAT(+0.0) = +0.0`, and `-1 ≤ SAT(x) ≤ 1` for finite x (R9). -/
def F32.satPositive (x : F32) : F32 :=
  if x = F32.zero then F32.zero
  else if x.isFinite then boundedOr (F32.ofBits (Config.rawSat x)) F32.zero
  else F32.ofBits (Config.rawSat x)

/-- `SAT` is odd (R9); a NaN, which is its own negative as a datum, saturates to a NaN. -/
def F32.sat (x : F32) : F32 :=
  match x with
  | .nan => .nan
  | .inf s => if s then (F32.satPositive (.inf false)).neg else F32.satPositive (.inf false)
  | .fin s m => if s then (F32.satPositive (.fin false m)).neg else F32.satPositive (.fin false m)

end Sys2Proof
end

