-- ==== Sys2Proof/Machine/Units.lean ====
section
/-! DEFINITION. The records of state that the units hold (spec/10_state.md R34 to R42) and of the delay-line
storage (spec/20_memory.md R71), as plain data.  Every f32 field is held as its binary32 encoding. -/

namespace Sys2Proof.Machine

/-- A smoother (R34): current value, target and coefficient, each f32. -/
structure Smoother where
  cur : Word
  tgt : Word
  coeff : Word
deriving DecidableEq, Repr

/-- An oscillator (R36): phase counter, current and pending cycle length in samples (u32), waveform
select and square duty (f32). -/
structure Osc where
  phase : Word
  cyc : Word
  pend : Word
  wave : Wave
  duty : Word
deriving DecidableEq, Repr

/-- A biquad core (R38): cutoff, Q, mode, the five normalised coefficients and the two-sample history. -/
structure Biquad where
  fc : Word
  q : Word
  mode : FilterMode
  b0 : Word
  b1 : Word
  b2 : Word
  a1 : Word
  a2 : Word
  x1 : Word
  x2 : Word
  y1 : Word
  y2 : Word
deriving DecidableEq, Repr

/-- A ladder (R40): smoothed cutoff and resonance, mode, the four stage outputs and the four previous
saturated stage inputs. -/
structure Ladder where
  sFc : Smoother
  sRes : Smoother
  mode : FilterMode
  y1 : Word
  y2 : Word
  y3 : Word
  y4 : Word
  o1 : Word
  o2 : Word
  o3 : Word
  o4 : Word
deriving DecidableEq, Repr

/-- The elements of one delay line (R70 space 2): pairs of an element number and its f32, in the
canonical form of `Memory.wf`.  An element that is not listed holds +0.0, the value of R43
(notes/assumptions/10.md). -/
abbrev Memory := List (Nat × Word)

/-- A ring buffer (R71).  Its length is a parameter of the block and not part of the record. -/
structure Ring where
  storage : Memory
  cursor : Word
deriving DecidableEq, Repr

/-- A delay (R41). -/
structure Delay where
  ring : Ring
  sLen : Smoother
  sWet : Smoother
  beats : Word
  bpm : Word
  fb : Word
  lp : Biquad
deriving DecidableEq, Repr

/-- A reverb (R42): four comb lines, four comb feedbacks and four all-pass lines. -/
structure Reverb where
  comb : Four Ring
  fbc : Four Word
  ap : Four Ring
deriving DecidableEq, Repr

/-- What a host agent presents to the block (R3): a transaction of R100 on its own port, or an access to
the memory-mapped binding (R80): a read of `width` bytes, or a write of bytes, lowest address first. -/
inductive Request where
  | command (cmd data : Word)
  | busRead (addr width : Nat)
  | busWrite (addr : Nat) (bytes : List Byte)
deriving DecidableEq, Repr

end Sys2Proof.Machine
end

