-- ==== Sys2Proof/Machine/Cores.lean ====
section
/-! DEFINITION. The shared operations on one unit's record: the delay-line memory and the ring buffer
(spec/20_memory.md R71 to R73), the smoothing step (spec/41_smooth.md R140), and the biquad core's
coefficients and step (spec/45_biquad.md R230, R234).  `nan` gives the NaN encoding drawn for each
site of the command (R20). -/

namespace Sys2Proof.Machine

/-- What an element that no entry lists holds: +0.0 (R43, R72). -/
def Memory.unwritten : Word := 0#32

/-- Element `a` of a delay line's storage. -/
def Memory.read (m : Memory) (a : Nat) : Word :=
  match m with
  | [] => Memory.unwritten
  | (b, v) :: rest => if a = b then v else Memory.read rest a

/-- The storage with element `a` set to `v`, in canonical form. -/
def Memory.write (m : Memory) (a : Nat) (v : Word) : Memory :=
  match m with
  | [] => if v = Memory.unwritten then [] else [(a, v)]
  | (b, u) :: rest =>
    if a < b then
      if v = Memory.unwritten then (b, u) :: rest else (a, v) :: (b, u) :: rest
    else if a = b then
      if v = Memory.unwritten then rest else (a, v) :: rest
    else (b, u) :: Memory.write rest a v

/-- Every entry is at or above `lo`, numbers strictly rise, and none lists the unwritten value. -/
def Memory.wfFrom (lo : Nat) (m : Memory) : Bool :=
  match m with
  | [] => true
  | (b, v) :: rest => decide (lo ≤ b) && decide (v ≠ Memory.unwritten) && Memory.wfFrom (b + 1) rest

/-- The canonical form of a storage: equal contents are equal data. -/
def Memory.wf (m : Memory) : Bool := Memory.wfFrom 0 m

/-- Every listed element number is below `n`, the line's length. -/
def Memory.below (n : Nat) (m : Memory) : Bool := m.all fun e => decide (e.1 < n)

/-- The element a tap at delay `d` reads in a line of length `n`: `(cursor - d) mod n` (R72). -/
def Ring.slot (r : Ring) (n d : Nat) : Nat := (((r.cursor.toNat : Int) - d) % n).toNat

/-- `Ring.tap(r, d)` (R72). -/
def Ring.tap (r : Ring) (n d : Nat) : Word := Memory.read r.storage (r.slot n d)

/-- `Ring.write(r, v)` (R73). -/
def Ring.write (r : Ring) (n : Nat) (v : Word) : Ring where
  storage := Memory.write r.storage r.cursor.toNat v
  cursor := BitVec.ofNat 32 ((r.cursor.toNat + 1) % n)

/-- A zeroed line with its cursor at 0 (R43). -/
def Ring.zeroed : Ring := ⟨[], 0#32⟩

/-- `Smooth.step(s)` (R140): the returned value and the smoother after it.  Coefficient 0 is the
sentinel, which returns the target and leaves the record (spec/90_conflicts.md C1). -/
def Smoother.step (nan : Word) (s : Smoother) : Word × Smoother :=
  if (F32.ofBits s.coeff).eq F32.zero then (s.tgt, s)
  else
    let cur := F32.ofBits s.cur
    let v := (cur.add ((F32.ofBits s.coeff).mul ((F32.ofBits s.tgt).sub cur))).toBits nan
    (v, { s with cur := v })

/-- The five coefficients R230 computes from cutoff, Q and mode, in the order b0, b1, b2, a1, a2. -/
structure BiquadCoeffs where
  b0 : Word
  b1 : Word
  b2 : Word
  a1 : Word
  a2 : Word
deriving DecidableEq, Repr

/-- `BQ.coeffs` (R230) as a function of the sample rate, cutoff, Q and mode. -/
def biquadCoeffs (fsF : F32) (nan : Site → Word) (fc q : F32) (mode : FilterMode) : BiquadCoeffs :=
  let w := (F32.twoPi.mul fc).div fsF
  let sn := w.sin
  let cs := w.cos
  let alpha := sn.div (F32.two.mul q)
  let a0 := F32.one.add alpha
  let b0 := match mode with
    | .lowpass => ((F32.one.sub cs).div F32.two).div a0
    | .highpass => ((F32.one.add cs).div F32.two).div a0
  let b1 := match mode with
    | .lowpass => (F32.one.sub cs).div a0
    | .highpass => (F32.one.add cs).neg.div a0
  { b0 := b0.toBits (nan .b0)
    b1 := b1.toBits (nan .b1)
    b2 := b0.toBits (nan .b0)
    a1 := ((F32.two.neg.mul cs).div a0).toBits (nan .a1)
    a2 := ((F32.one.sub alpha).div a0).toBits (nan .a2) }

/-- `BQ.coeffs(c)` (R230): only the five coefficients change. -/
def Biquad.recompute (fsF : F32) (nan : Site → Word) (c : Biquad) : Biquad :=
  let k := biquadCoeffs fsF nan (F32.ofBits c.fc) (F32.ofBits c.q) c.mode
  { c with b0 := k.b0, b1 := k.b1, b2 := k.b2, a1 := k.a1, a2 := k.a2 }

/-- The output of R234's recursion on input `x`, summed left to right, each product rounded. -/
def Biquad.output (c : Biquad) (x : F32) : F32 :=
  (((((F32.ofBits c.b0).mul x).add ((F32.ofBits c.b1).mul (F32.ofBits c.x1))).add
    ((F32.ofBits c.b2).mul (F32.ofBits c.x2))).sub
    ((F32.ofBits c.a1).mul (F32.ofBits c.y1))).sub
    ((F32.ofBits c.a2).mul (F32.ofBits c.y2))

/-- `BQ.step(c, x)` (R234): the output and the core with its history moved on.  The history is not
flushed. -/
def Biquad.step (nan : Word) (c : Biquad) (x : Word) : Word × Biquad :=
  let y := (c.output (F32.ofBits x)).toBits nan
  (y, { c with x2 := c.x1, x1 := x, y2 := c.y1, y1 := y })

end Sys2Proof.Machine
end

