-- ==== Sys2Proof/Machine/Reset.lean ====
section
/-! DEFINITION. The reset value of each unit's record, from the block's parameters (spec/10_state.md R43). -/

namespace Sys2Proof.Machine

/-- The NaN encodings drawn at reset: only a biquad coefficient can be a NaN there (R43, R230), and
every reset draws the same ones, so that two resets are indistinguishable (R44).
DESIGN CHOICE (unsafe: notes/assumptions/1.md): R20 leaves every NaN result open on its own, and here one
draw for each coefficient serves every `BIQUAD[i]` and every `DELAY[i].lp`, so that where the reset
coefficients of two cores are NaNs their encodings are equal. -/
def resetNan (site : Site) : Word := F32.nanWord (Config.freeNan 0 site)

/-- `SMOOTH[i]` after reset (R43). -/
def Smoother.reset (c : Params) : Smoother := ⟨0#32, 0#32, c.smoothCoeffReset⟩

/-- `OSC[i]` after reset (R43): silence until OSC.SETFREQ. -/
def Osc.reset (c : Params) : Osc := ⟨0#32, 0#32, 0#32, .saw, c.dutyReset⟩

/-- A biquad core after reset (R43), from an unclamped cutoff and Q. -/
def Biquad.reset (c : Params) (fc q : Word) : Biquad :=
  Biquad.recompute c.fsF resetNan
    { fc := (c.clampBqFc (F32.ofBits fc)).toBits (resetNan .setting)
      q := (c.clampBqQ (F32.ofBits q)).toBits (resetNan .setting)
      mode := .lowpass
      b0 := 0#32, b1 := 0#32, b2 := 0#32, a1 := 0#32, a2 := 0#32
      x1 := 0#32, x2 := 0#32, y1 := 0#32, y2 := 0#32 }

/-- `LADDER[i]` after reset (R43). -/
def Ladder.reset (c : Params) : Ladder :=
  let fc := (c.clampLadderFc (F32.ofBits c.ladderFcReset)).toBits (resetNan .setting)
  { sFc := ⟨fc, fc, c.scLadderFc⟩
    sRes := ⟨c.ladderResReset, c.ladderResReset, c.scLadderRes⟩
    mode := .lowpass
    y1 := 0#32, y2 := 0#32, y3 := 0#32, y4 := 0#32
    o1 := 0#32, o2 := 0#32, o3 := 0#32, o4 := 0#32 }

/-- `DELAY[i]` after reset (R43). -/
def Delay.reset (c : Params) : Delay :=
  { ring := Ring.zeroed
    sLen := ⟨0#32, 0#32, c.scDelayLen⟩
    sWet := ⟨0#32, 0#32, c.scDelayWet⟩
    beats := 0#32
    bpm := c.delayBpmReset
    fb := 0#32
    lp := Biquad.reset c c.delayLpFc c.delayLpQ }

/-- `REVERB[i]` after reset (R43). -/
def Reverb.reset (c : Params) : Reverb :=
  { comb := Four.of fun _ => Ring.zeroed
    fbc := Four.of fun _ => c.combFbBase
    ap := Four.of fun _ => Ring.zeroed }

end Sys2Proof.Machine
end

