-- ==== Sys2Proof/Machine/State.lean ====
section
/-! DEFINITION. The state of a BM-DSP block and of the host requests waiting at its ports, the reasons a step
can stop, and the state after reset (spec/10_state.md R30 to R44). -/

namespace Sys2Proof.Machine

/-- The whole state.  Everything from `data` to `reverb` is the block's architectural state (R31 to R42);
`cfg` is what the block was elaborated with; the last four fields are the MODEL's own. -/
structure State where
  /-- MODEL: the block's parameters (R6, R8), which no step changes (notes/assumptions/4.md). -/
  cfg : Params
  /-- `DATA[p]` (R31). -/
  data : Ports Word
  /-- `RESULT[p]` (R31). -/
  result : Ports Word
  /-- `STATUS` (R33): bit 0 is ILL, bits 31:1 read as 0. -/
  status : Word
  /-- `SMOOTH[i]` (R35). -/
  smooth : List Smoother
  /-- `OSC[i]` (R36). -/
  osc : List Osc
  /-- `DELAY[i]` (R41). -/
  delay : List Delay
  /-- `LADDER[i]` (R40). -/
  ladder : List Ladder
  /-- `BIQUAD[i]` (R39). -/
  biquad : List Biquad
  /-- `REVERB[i]` (R42). -/
  reverb : List Reverb
  /-- MODEL: the requests each host agent has still to present, in the order it presents them (R77,
  notes/assumptions/7.md). -/
  pending : Ports (List Request)
  /-- MODEL: the bytes the last bus read of each host agent returned (R80, notes/assumptions/8.md). -/
  reply : Ports (List Byte)
  /-- MODEL: the port of the command being executed, the p of `exec(p, cmd, data)` (R100,
  notes/assumptions/8.md). -/
  port : Port
  /-- MODEL: the draw number, a counter that keys the free values of this request (R20, R77,
  notes/assumptions/1.md). -/
  draws : Nat
deriving DecidableEq, Repr

/-- Why the machine stops with a fault.  There is no constructor: BM-DSP never raises an exception and
never traps (spec/60_exceptions.md R270), and no behaviour takes the treatment `fault`
(spec/93_implementation_defined.md).  Nobody raises one; that is safe (notes/assumptions/15.md). -/
inductive Fault where
deriving DecidableEq, Repr

/-- Why a step is refused. -/
inductive Refusal where
  /-- Raised by an arm of `exec` for an instruction that has no meaning yet (no arm raises it).  Safe:
  the machine stops and nothing is claimed. -/
  | notModelled (mnemonic : String)
  /-- Raised by `step` for a block whose parameters lie outside their legal ranges: such a block is
  refused at elaboration and the model has none for it (R10).  Safe: it errs toward unprovable
  (notes/assumptions/14.md). -/
  | illegalConfiguration
deriving DecidableEq, Repr

/-- The outcome of an instruction or a step. -/
abbrev Result := Host.Outcome State Fault Refusal

/-- A block with parameters `c` right after reset: every field at the value of R43, no request waiting. -/
def State.resetOf (c : Params) : State where
  cfg := c
  data := ⟨0#32, 0#32⟩
  result := ⟨0#32, 0#32⟩
  status := 0#32
  smooth := List.replicate c.nSmooth (Smoother.reset c)
  osc := List.replicate c.nOsc (Osc.reset c)
  delay := List.replicate c.nDelay (Delay.reset c)
  ladder := List.replicate c.nLadder (Ladder.reset c)
  biquad := List.replicate c.nBiquad (Biquad.reset c c.bqFcReset c.bqQReset)
  reverb := List.replicate c.nReverb (Reverb.reset c)
  pending := ⟨[], []⟩
  reply := ⟨[], []⟩
  port := .ctrl
  draws := 1

/-- The machine right after reset: the block elaborated with the reference parameters. -/
def State.reset : State := State.resetOf Params.reference

end Sys2Proof.Machine
end

