-- ==== Sys2Proof/Machine/Ops.lean ====
section
/-! DEFINITION. The named operations on the state that the meanings share: the registers of R31, the units'
instances (spec/30_encoding.md R100, R104, R108), and taking the next request (spec/20_memory.md R77).
BM-DSP has no exception to take and no return from one (spec/60_exceptions.md R270, R275, R276), so there
is no operation for either. -/

namespace Sys2Proof.Machine

/-- Store a data word into `DATA[p]` (R31, R100). -/
def State.setData (s : State) (p : Port) (v : Word) : State := { s with data := s.data.set p v }

/-- `result v`: `RESULT[p] <- v` for the issuing port p (R13, R31). -/
def State.setResult (s : State) (v : Word) : State := { s with result := s.result.set s.port v }

/-- The NaN encoding this command draws at a site (R20). -/
def State.nan (s : State) (site : Site) : Word := F32.nanWord (Config.freeNan s.draws site)

/-- `SMOOTH[idx] <- u`. -/
def State.putSmooth (s : State) (idx : Nat) (u : Smoother) : State := { s with smooth := s.smooth.set idx u }

/-- `OSC[idx] <- u`. -/
def State.putOsc (s : State) (idx : Nat) (u : Osc) : State := { s with osc := s.osc.set idx u }

/-- `DELAY[idx] <- u`. -/
def State.putDelay (s : State) (idx : Nat) (u : Delay) : State := { s with delay := s.delay.set idx u }

/-- `LADDER[idx] <- u`. -/
def State.putLadder (s : State) (idx : Nat) (u : Ladder) : State := { s with ladder := s.ladder.set idx u }

/-- `BIQUAD[idx] <- u`. -/
def State.putBiquad (s : State) (idx : Nat) (u : Biquad) : State := { s with biquad := s.biquad.set idx u }

/-- `REVERB[idx] <- u`. -/
def State.putReverb (s : State) (idx : Nat) (u : Reverb) : State := { s with reverb := s.reverb.set idx u }

/-- A command on instance `idx` of a unit whose instances are `units`: `perform` on the instance where
there is one, and `absent` where `idx` is at or above the unit's instance count (R100, R108).  The count
is the number of instances the state holds, which `State.Shaped` (Safety.lean) ties to `N_unit`
(DESIGN CHOICE: notes/assumptions/9.md). -/
def onUnit {α : Type} (units : List α) (idx : Nat) (absent : State) (perform : α → State) : Result :=
  match units[idx]? with
  | none => .next absent
  | some u => .next (perform u)

/-- SYS.RESET's effect (R43, R44, R131): every architectural field at its reset value for the block's
parameters.  What is not the block's own state stays: its parameters, the requests and replies of the
host agents, and the model's port and draw number (DEDUCED: notes/assumptions/12.md). -/
def State.blockReset (s : State) : State :=
  { State.resetOf s.cfg with
    pending := s.pending, reply := s.reply, port := s.port, draws := s.draws }

/-- The port whose request executes next: none when neither port presents one, and a free choice when
both do (R77). -/
def State.nextPort (s : State) : Option Port :=
  match s.pending.ctrl, s.pending.audio with
  | [], [] => none
  | _ :: _, [] => some .ctrl
  | [], _ :: _ => some .audio
  | _ :: _, _ :: _ => some (if Config.freePort s.draws then .audio else .ctrl)

/-- A port's requests after its first has been taken, and the next draw number (R77, R20). -/
def State.taken (s : State) (p : Port) (rest : List Request) : State :=
  { s with pending := s.pending.set p rest, port := p, draws := s.draws + 1 }

/-- A command's data word presented on port `p`: `DATA[p] <- data` (R100). -/
def State.present (s : State) (p : Port) (data : Word) : State :=
  { s with port := p, data := s.data.set p data }

/-- The next request of the execution order, its port, and the state in which it is no longer waiting and
has a draw number of its own (R77, R20). -/
def State.takeRequest (s : State) : Option (Port × Request × State) :=
  match s.nextPort with
  | none => none
  | some p =>
    match s.pending.get p with
    | [] => none
    | r :: rest => some (p, r, s.taken p rest)

end Sys2Proof.Machine
end

