-- ==== Sys2Proof/Machine/Operands.lean ====
section
/-! DEFINITION. The operand and result forms of spec/30_encoding.md R103, R107 and R110. -/

namespace Sys2Proof

/-- The three operand forms of R103. -/
inductive OperandForm where
  /-- F: the data word is an f32. -/
  | f
  /-- U: the data word is an unsigned integer. -/
  | u
  /-- The data word is not read. -/
  | none
deriving DecidableEq, Repr

/-- The operand form of a command, the operand column of R110. -/
def Instr.operandForm : Instr → OperandForm
  | .sysNop => .none
  | .sysReset => .none
  | .sysClrstat => .none
  | .smoothSetTarget _ => .f
  | .smoothGet _ => .none
  | .smoothSetCoeff _ => .f
  | .oscSetFreq _ => .f
  | .oscSample _ => .none
  | .oscReset _ => .none
  | .oscSetWave _ => .u
  | .oscSetDuty _ => .f
  | .delaySetBeats _ => .f
  | .delaySetBpm _ => .f
  | .delaySetFb _ => .f
  | .delaySetWet _ => .f
  | .delayProcess _ => .f
  | .ladderSetCutoff _ => .f
  | .ladderSetRes _ => .f
  | .ladderSetMode _ => .u
  | .ladderProcess _ => .f
  | .biquadSetCutoff _ => .f
  | .biquadSetQ _ => .f
  | .biquadSetMode _ => .u
  | .biquadProcess _ => .f
  | .reverbSetRt60 _ => .f
  | .reverbProcess _ => .f

/-- The command is value-producing: its result form in R110 is F (R107). -/
def Instr.producesValue : Instr → Bool
  | .smoothGet _ => true
  | .oscSample _ => true
  | .delayProcess _ => true
  | .ladderProcess _ => true
  | .biquadProcess _ => true
  | .reverbProcess _ => true
  | .sysNop => false
  | .sysReset => false
  | .sysClrstat => false
  | .smoothSetTarget _ => false
  | .smoothSetCoeff _ => false
  | .oscSetFreq _ => false
  | .oscReset _ => false
  | .oscSetWave _ => false
  | .oscSetDuty _ => false
  | .delaySetBeats _ => false
  | .delaySetBpm _ => false
  | .delaySetFb _ => false
  | .delaySetWet _ => false
  | .ladderSetCutoff _ => false
  | .ladderSetRes _ => false
  | .ladderSetMode _ => false
  | .biquadSetCutoff _ => false
  | .biquadSetQ _ => false
  | .biquadSetMode _ => false
  | .reverbSetRt60 _ => false

namespace Machine

/-- `DATA[p]` of the issuing port, as the word it is (R31, R103). -/
def State.operand (s : State) : Word := s.data.get s.port

/-- The operand in form F: the word is used as it is (R103). -/
def State.operandF (s : State) : F32 := F32.ofBits s.operand

/-- The operand in form U: an unsigned integer with no extension (R103). -/
def State.operandU (s : State) : Nat := s.operand.toNat

/-- The waveform a U operand selects: 0 saw, 1 sine, 2 square, 3 triangle, and none above 3 (R163). -/
def waveOf : Nat → Option Wave
  | 0 => some .saw
  | 1 => some .sine
  | 2 => some .square
  | 3 => some .triangle
  | _ => none

/-- The filter mode a U operand selects: 0 lowpass, 1 highpass, and none above 1 (R213, R233). -/
def modeOf : Nat → Option FilterMode
  | 0 => some .lowpass
  | 1 => some .highpass
  | _ => none

end Machine
end Sys2Proof
end

