-- ==== Sys2Proof/Machine/BiquadFilter.lean ====
section
/-! DEFINITION. The BIQUAD commands (spec/45_biquad.md R231 to R235). -/

namespace Sys2Proof.Machine

/-- BIQUAD.SETCUTOFF (R231): a NaN or infinity is ignored; any other cutoff is clamped and the
coefficients are recomputed, with the history kept. -/
def execBiquadSetCutoff (idx : Nat) (s : State) : Result :=
  onUnit s.biquad idx s fun c =>
    if s.operandF.isFinite then
      s.putBiquad idx (Biquad.recompute s.cfg.fsF s.nan
        { c with fc := (s.cfg.clampBqFc s.operandF).toBits (s.nan .setting) })
    else s

/-- BIQUAD.SETQ (R232): a NaN or infinity is ignored; any other Q is clamped and the coefficients are
recomputed, with the history kept. -/
def execBiquadSetQ (idx : Nat) (s : State) : Result :=
  onUnit s.biquad idx s fun c =>
    if s.operandF.isFinite then
      s.putBiquad idx (Biquad.recompute s.cfg.fsF s.nan
        { c with q := (s.cfg.clampBqQ s.operandF).toBits (s.nan .setting) })
    else s

/-- BIQUAD.SETMODE (R233): a number above 1 is ignored; otherwise the coefficients are recomputed, with
the history kept. -/
def execBiquadSetMode (idx : Nat) (s : State) : Result :=
  onUnit s.biquad idx s fun c =>
    match modeOf s.operandU with
    | some m => s.putBiquad idx (Biquad.recompute s.cfg.fsF s.nan { c with mode := m })
    | none => s

/-- BIQUAD.PROCESS (R235). -/
def execBiquadProcess (idx : Nat) (s : State) : Result :=
  onUnit s.biquad idx (s.setResult 0#32) fun c =>
    (s.putBiquad idx (c.step (s.nan .y) s.operand).2).setResult (c.step (s.nan .y) s.operand).1

end Sys2Proof.Machine
end

