-- ==== Sys2Proof/Machine/DelayLine.lean ====
section
/-! DEFINITION. The DELAY commands (spec/43_delay.md R191 to R197). -/

namespace Sys2Proof.Machine

/-- The delay-length target of R191: `((60.0 * beats) / bpm) * FS_f`, and the capacity where that is
above it, an infinity or a NaN. -/
def delayTarget (c : Params) (beats bpm : F32) : F32 :=
  let t := (((F32.lit 60 1).mul beats).div bpm).mul c.fsF
  let cap := F32.ofNat c.nDbuf
  if t.le cap then t else cap

/-- `Delay.retarget(d)` (R191). -/
def Delay.retarget (c : Params) (nan : Word) (d : Delay) : Delay :=
  { d with sLen :=
      { d.sLen with tgt := (delayTarget c (F32.ofBits d.beats) (F32.ofBits d.bpm)).toBits nan } }

/-- The tap's delay in whole samples, `min(ftrunc(len), N_DBUF)` (R195). -/
def tapDelay (c : Params) (len : F32) : Nat := min len.trunc c.nDbuf

/-- The filtered delayed sample and the lowpass after it; with `DELAY_LP_ENABLE = false` the lowpass is
bypassed and not stepped (R195, R197). -/
def Delay.filter (c : Params) (nan : Word) (d : Delay) (raw : Word) : Word × Biquad :=
  if c.delayLpEnable then d.lp.step nan raw else (raw, d.lp)

/-- The dry gain `fmax(1.0 - wet, DRY_FLOOR)` (R195, spec/90_conflicts.md C2). -/
def dryGain (wet : F32) : F32 := (F32.one.sub wet).fmax dryFloor

/-- The part of R195 after the short-delay test, at a tap delay of `k` samples. -/
def Delay.echo (c : Params) (nan : Site → Word) (d : Delay) (k : Nat) (x : Word) : Word × Delay :=
  let raw := d.ring.tap c.nDbuf k
  let flt := d.filter c (nan .y) raw
  let line := ((F32.ofBits x).add ((F32.ofBits flt.1).mul (F32.ofBits d.fb))).toBits (nan .line)
  let wet := d.sWet.step (nan .wet)
  let out := ((F32.ofBits x).mul (dryGain (F32.ofBits wet.1))).add
    ((F32.ofBits flt.1).mul (F32.ofBits wet.1))
  (out.toBits (nan .result),
    { d with ring := d.ring.write c.nDbuf line, sWet := wet.2, lp := flt.2 })

/-- The per-sample step (R195).  Below one sample the input is returned unchanged and only `sLen` has
stepped; a NaN input is returned as some NaN, as every NaN result is (R20, notes/assumptions/1.md). -/
def Delay.process (c : Params) (nan : Site → Word) (d : Delay) (x : Word) : Word × Delay :=
  let len := d.sLen.step (nan .len)
  let d' := { d with sLen := len.2 }
  if F32.one.le (F32.ofBits len.1) then d'.echo c nan (tapDelay c (F32.ofBits len.1)) x
  else ((F32.ofBits x).toBits (nan .result), d')

/-- DELAY.SETBEATS (R193): a length that is not finite or below 0 is ignored. -/
def execDelaySetBeats (idx : Nat) (s : State) : Result :=
  onUnit s.delay idx s fun d =>
    if s.operandF.isFinite && F32.zero.le s.operandF then
      s.putDelay idx (Delay.retarget s.cfg (s.nan .setting) { d with beats := s.operand })
    else s

/-- DELAY.SETBPM (R192): a tempo that is not finite or not above 0 is ignored. -/
def execDelaySetBpm (idx : Nat) (s : State) : Result :=
  onUnit s.delay idx s fun d =>
    if s.operandF.isFinite && F32.zero.lt s.operandF then
      s.putDelay idx (Delay.retarget s.cfg (s.nan .setting) { d with bpm := s.operand })
    else s

/-- DELAY.SETFB (R194): a NaN or infinity is ignored, any other feedback is clamped. -/
def execDelaySetFb (idx : Nat) (s : State) : Result :=
  onUnit s.delay idx s fun d =>
    if s.operandF.isFinite then
      s.putDelay idx { d with fb := (s.operandF.clamp F32.zero delayFbMax).toBits (s.nan .setting) }
    else s

/-- DELAY.SETWET (R196): a NaN or infinity is ignored, any other mix is clamped into the target. -/
def execDelaySetWet (idx : Nat) (s : State) : Result :=
  onUnit s.delay idx s fun d =>
    if s.operandF.isFinite then
      s.putDelay idx { d with sWet :=
        { d.sWet with tgt := (s.operandF.clamp F32.zero F32.one).toBits (s.nan .setting) } }
    else s

/-- DELAY.PROCESS (R195). -/
def execDelayProcess (idx : Nat) (s : State) : Result :=
  onUnit s.delay idx (s.setResult 0#32) fun d =>
    (s.putDelay idx (d.process s.cfg s.nan s.operand).2).setResult
      (d.process s.cfg s.nan s.operand).1

end Sys2Proof.Machine
end

