-- ==== Sys2Proof/Machine/LadderFilter.lean ====
section
/-! DEFINITION. The LADDER commands (spec/44_ladder.md R210 to R216). -/

namespace Sys2Proof.Machine

/-- `f` of R210: `(2.0 * fc) / FS_f`. -/
def ladderF (fsF fc : F32) : F32 := (F32.two.mul fc).div fsF

/-- `k` of R210: `((3.6 * f) - ((1.6 * f) * f)) - 1.0`. -/
def ladderK (fsF fc : F32) : F32 :=
  let f := ladderF fsF fc
  (((F32.lit 36 10).mul f).sub (((F32.lit 16 10).mul f).mul f)).sub F32.one

/-- `p` of R210: `(k + 1.0) * 0.5`. -/
def ladderP (fsF fc : F32) : F32 := ((ladderK fsF fc).add F32.one).mul (F32.lit 1 2)

/-- `scale` of R210: `EXP((1.0 - p) * LADDER_SCALE_K)`. -/
def ladderScale (fsF fc : F32) : F32 := ((F32.one.sub (ladderP fsF fc)).mul ladderScaleK).exp

/-- `r` of R210: `fmin(res * scale, LADDER_R_MAX)`. -/
def ladderR (fsF fc res : F32) : F32 := (res.mul (ladderScale fsF fc)).fmin ladderRMax

/-- The new stage output of R214: `((s * p) + (o * p)) - (k * y)`, for the saturated input `s`. -/
def ladderStage (s y o p k : F32) : F32 := ((s.mul p).add (o.mul p)).sub (k.mul y)

/-- The compensated lowpass output of R215: `y4 * (1.0 + res * LADDER_COMP_K)`. -/
def ladderLowpass (y4 res : F32) : F32 := y4.mul (F32.one.add (res.mul ladderCompK))

/-- The output of R215: the lowpass output, or the input less it. -/
def ladderOut (mode : FilterMode) (x lp : F32) : F32 :=
  match mode with
  | .lowpass => lp
  | .highpass => x.sub lp

/-- The four stages of R215 on the feedback input `u`, each reading the new output of the one before it,
with every state value flushed as R216 asks.  The first component is the new y4 before the flush. -/
def Ladder.stages (nan : Site → Word) (l : Ladder) (u p k : F32) : F32 × Ladder :=
  let s1 := u.sat
  let v1 := ladderStage s1 (F32.ofBits l.y1) (F32.ofBits l.o1) p k
  let s2 := v1.sat
  let v2 := ladderStage s2 (F32.ofBits l.y2) (F32.ofBits l.o2) p k
  let s3 := v2.sat
  let v3 := ladderStage s3 (F32.ofBits l.y3) (F32.ofBits l.o3) p k
  let s4 := v3.sat
  let v4 := ladderStage s4 (F32.ofBits l.y4) (F32.ofBits l.o4) p k
  (v4,
    { l with
      y1 := v1.flush.toBits (nan .y1), o1 := s1.flush.toBits (nan .o1)
      y2 := v2.flush.toBits (nan .y2), o2 := s2.flush.toBits (nan .o2)
      y3 := v3.flush.toBits (nan .y3), o3 := s3.flush.toBits (nan .o3)
      y4 := v4.flush.toBits (nan .y4), o4 := s4.flush.toBits (nan .o4) })

/-- The per-sample step (R215).  The result is not flushed. -/
def Ladder.process (fsF : F32) (nan : Site → Word) (l : Ladder) (x : F32) : Word × Ladder :=
  let fcStep := l.sFc.step (nan .cur)
  let resStep := l.sRes.step (nan .res)
  let fc := F32.ofBits fcStep.1
  let res := F32.ofBits resStep.1
  let u := x.sub ((ladderR fsF fc res).mul (F32.ofBits l.y4))
  let st := l.stages nan u (ladderP fsF fc) (ladderK fsF fc)
  ((ladderOut l.mode x (ladderLowpass st.1 res)).toBits (nan .result),
    { st.2 with sFc := fcStep.2, sRes := resStep.2 })

/-- LADDER.SETCUTOFF (R211): a NaN or infinity is ignored, any other cutoff is clamped into the target. -/
def execLadderSetCutoff (idx : Nat) (s : State) : Result :=
  onUnit s.ladder idx s fun l =>
    if s.operandF.isFinite then
      s.putLadder idx { l with sFc :=
        { l.sFc with tgt := (s.cfg.clampLadderFc s.operandF).toBits (s.nan .setting) } }
    else s

/-- LADDER.SETRES (R212): a NaN or infinity is ignored, any other resonance is clamped into the target. -/
def execLadderSetRes (idx : Nat) (s : State) : Result :=
  onUnit s.ladder idx s fun l =>
    if s.operandF.isFinite then
      s.putLadder idx { l with sRes :=
        { l.sRes with tgt :=
          (s.operandF.clamp F32.zero (F32.ofBits s.cfg.ladderResMax)).toBits (s.nan .setting) } }
    else s

/-- LADDER.SETMODE (R213): a number above 1 is ignored; the stage state is kept. -/
def execLadderSetMode (idx : Nat) (s : State) : Result :=
  onUnit s.ladder idx s fun l =>
    match modeOf s.operandU with
    | some m => s.putLadder idx { l with mode := m }
    | none => s

/-- LADDER.PROCESS (R215). -/
def execLadderProcess (idx : Nat) (s : State) : Result :=
  onUnit s.ladder idx (s.setResult 0#32) fun l =>
    (s.putLadder idx (l.process s.cfg.fsF s.nan s.operandF).2).setResult
      (l.process s.cfg.fsF s.nan s.operandF).1

end Sys2Proof.Machine
end

