-- ==== Sys2Proof/Machine/Oscillator.lean ====
section
/-! DEFINITION. The OSC commands and the waveform functions (spec/42_oscillator.md R160 to R168). -/

namespace Sys2Proof.Machine

/-- The cycle length OSC.SETFREQ stores for a finite `hz` above 0 (R160): `ftrunc(FS_f / hz)`, saturating
at 2^32 - 1. -/
def cycleLength (fsF hz : F32) : Word :=
  let q := fsF.div hz
  if (F32.ofNat (2 ^ 32)).le q then 0xFFFFFFFF#32 else BitVec.ofNat 32 q.trunc

/-- Saw (R165): `((2.0 * ph) / L) - 1.0`. -/
def sawValue (ph len : F32) : F32 := ((F32.two.mul ph).div len).sub F32.one

/-- Sine (R166): `SIN((TWO_PI * ph) / L)`. -/
def sineValue (ph len : F32) : F32 := ((F32.twoPi.mul ph).div len).sin

/-- Square (R167): `+1.0` while `ph < duty * L`, else `-1.0`. -/
def squareValue (ph len duty : F32) : F32 := if ph.lt (duty.mul len) then F32.one else F32.one.neg

/-- Triangle (R168). -/
def triangleValue (ph len : F32) : F32 :=
  let t := ph.div len
  if t.lt (F32.lit 1 2) then ((F32.lit 4 1).mul t).sub F32.one
  else (F32.lit 3 1).sub ((F32.lit 4 1).mul t)

/-- `Wave(w, ph, L, duty)` (R165 to R168). -/
def waveValue (w : Wave) (ph len duty : F32) : F32 :=
  match w with
  | .saw => sawValue ph len
  | .sine => sineValue ph len
  | .square => squareValue ph len duty
  | .triangle => triangleValue ph len

/-- The commit of the pending length at phase 0 (R161). -/
def Osc.commit (o : Osc) : Osc := if o.phase = 0#32 then { o with cyc := o.pend } else o

/-- The phase advanced by one modulo the cycle length, in exact arithmetic (R161). -/
def Osc.advance (o : Osc) : Osc :=
  { o with phase := BitVec.ofNat 32 ((o.phase.toNat + 1) % o.cyc.toNat) }

/-- The sample step (R161): the result and the oscillator after it.  The commit comes first, then the
guard of a zero cycle length. -/
def Osc.sample (nan : Word) (o : Osc) : Word × Osc :=
  let c := o.commit
  if c.cyc = 0#32 then (0#32, c)
  else
    ((waveValue c.wave (F32.ofNat c.phase.toNat) (F32.ofNat c.cyc.toNat) (F32.ofBits c.duty)).toBits nan,
      c.advance)

/-- OSC.SETFREQ (R160): a frequency that is not finite or not above 0 is ignored
(spec/90_conflicts.md C4). -/
def execOscSetFreq (idx : Nat) (s : State) : Result :=
  onUnit s.osc idx s fun o =>
    if s.operandF.isFinite && F32.zero.lt s.operandF then
      s.putOsc idx { o with pend := cycleLength s.cfg.fsF s.operandF }
    else s

/-- OSC.SAMPLE (R161). -/
def execOscSample (idx : Nat) (s : State) : Result :=
  onUnit s.osc idx (s.setResult 0#32) fun o =>
    (s.putOsc idx (o.sample (s.nan .result)).2).setResult (o.sample (s.nan .result)).1

/-- OSC.RESET (R162): only the phase changes. -/
def execOscReset (idx : Nat) (s : State) : Result :=
  onUnit s.osc idx s fun o => s.putOsc idx { o with phase := 0#32 }

/-- OSC.SETWAVE (R163): a number above 3 is ignored. -/
def execOscSetWave (idx : Nat) (s : State) : Result :=
  onUnit s.osc idx s fun o =>
    match waveOf s.operandU with
    | some w => s.putOsc idx { o with wave := w }
    | none => s

/-- OSC.SETDUTY (R164): a NaN or infinity is ignored, any other duty is clamped. -/
def execOscSetDuty (idx : Nat) (s : State) : Result :=
  onUnit s.osc idx s fun o =>
    if s.operandF.isFinite then
      s.putOsc idx { o with duty := (s.operandF.clamp dutyMin dutyMax).toBits (s.nan .setting) }
    else s

end Sys2Proof.Machine
end

