-- ==== Sys2Proof/Machine/ReverbCore.lean ====
section
/-! DEFINITION. The REVERB commands (spec/46_reverb.md R250 to R253). -/

namespace Sys2Proof.Machine

/-- `Comb.step` (R250) on a line of length `n` with feedback `fb`: the output and the line after it. -/
def combStep (nan : Word) (n : Nat) (fb : F32) (r : Ring) (x : F32) : F32 × Ring :=
  let c := F32.ofBits (r.tap n n)
  (c, r.write n ((x.add (fb.mul c)).toBits nan))

/-- `Allpass.step` (R251) on a line of length `n` with feedback `fb`: the output and the line after it. -/
def allpassStep (nan : Word) (n : Nat) (fb : F32) (r : Ring) (v : F32) : F32 × Ring :=
  let o := (F32.ofBits (r.tap n n)).sub (fb.mul v)
  (o, r.write n ((v.add (fb.mul o)).toBits nan))

/-- Comb `k` of a reverb on input `x` (R250). -/
def Reverb.combAt (c : Params) (nan : Site → Word) (rv : Reverb) (x : F32) (k : Fin 4) : F32 × Ring :=
  combStep (nan (.comb k)) (c.combLen.get k) (F32.ofBits (rv.fbc.get k)) (rv.comb.get k) x

/-- All-pass `j` of a reverb on input `v`, with the feedback `AP_FB` (R251). -/
def Reverb.allpassAt (c : Params) (nan : Site → Word) (rv : Reverb) (v : F32) (j : Fin 4) : F32 × Ring :=
  allpassStep (nan (.allpass j)) (c.apLen.get j) (F32.ofBits c.apFb) (rv.ap.get j) v

/-- The average of the comb outputs (R253): `(((c0 + c1) + c2) + c3) * 0.25`. -/
def combAverage (c0 c1 c2 c3 : F32) : F32 := (((c0.add c1).add c2).add c3).mul (F32.lit 1 4)

/-- The per-sample step (R253): four combs on the same input, their average, then the serial chain of
four all-passes. -/
def Reverb.process (c : Params) (nan : Site → Word) (rv : Reverb) (x : F32) : Word × Reverb :=
  let k0 := rv.combAt c nan x 0
  let k1 := rv.combAt c nan x 1
  let k2 := rv.combAt c nan x 2
  let k3 := rv.combAt c nan x 3
  let a0 := rv.allpassAt c nan (combAverage k0.1 k1.1 k2.1 k3.1) 0
  let a1 := rv.allpassAt c nan a0.1 1
  let a2 := rv.allpassAt c nan a1.1 2
  let a3 := rv.allpassAt c nan a2.1 3
  (a3.1.toBits (nan .result),
    { rv with comb := ⟨k0.2, k1.2, k2.2, k3.2⟩, ap := ⟨a0.2, a1.2, a2.2, a3.2⟩ })

/-- The feedback R252 computes for a comb of length `n` and a decay time `t`:
`fmin(POW10((((-3.0) / FS_f) / t) * u2f(n)), REVERB_FB_MAX)`. -/
def rt60Feedback (c : Params) (t : F32) (n : Nat) : F32 :=
  (((((F32.lit 3 1).neg.div c.fsF).div t).mul (F32.ofNat n)).pow10).fmin (F32.ofBits c.reverbFbMax)

/-- REVERB.SETRT60 (R252): a time that is not finite or not above 0 is ignored; the lines are kept. -/
def execReverbSetRt60 (idx : Nat) (s : State) : Result :=
  onUnit s.reverb idx s fun rv =>
    if s.operandF.isFinite && F32.zero.lt s.operandF then
      s.putReverb idx { rv with fbc := Four.of fun k =>
        (rt60Feedback s.cfg s.operandF (s.cfg.combLen.get k)).toBits (s.nan (.combFb k)) }
    else s

/-- REVERB.PROCESS (R253). -/
def execReverbProcess (idx : Nat) (s : State) : Result :=
  onUnit s.reverb idx (s.setResult 0#32) fun rv =>
    (s.putReverb idx (rv.process s.cfg s.nan s.operandF).2).setResult
      (rv.process s.cfg s.nan s.operandF).1

end Sys2Proof.Machine
end

