-- ==== Sys2Proof/Machine/Smooth.lean ====
section
/-! DEFINITION. The SMOOTH commands (spec/41_smooth.md R141, R142, R144). -/

namespace Sys2Proof.Machine

/-- SMOOTH.SETTARGET (R141): a NaN or infinite target is ignored; -0.0 is stored as -0.0. -/
def execSmoothSetTarget (idx : Nat) (s : State) : Result :=
  onUnit s.smooth idx s fun u =>
    if s.operandF.isFinite then s.putSmooth idx { u with tgt := s.operand } else s

/-- SMOOTH.GET (R142). -/
def execSmoothGet (idx : Nat) (s : State) : Result :=
  onUnit s.smooth idx (s.setResult 0#32) fun u =>
    (s.putSmooth idx (u.step (s.nan .cur)).2).setResult (u.step (s.nan .cur)).1

/-- SMOOTH.SETCOEFF (R144): a coefficient outside [0, 1) or a NaN is ignored; -0.0 is stored as -0.0. -/
def execSmoothSetCoeff (idx : Nat) (s : State) : Result :=
  onUnit s.smooth idx s fun u =>
    if F32.zero.le s.operandF && s.operandF.lt F32.one then
      s.putSmooth idx { u with coeff := s.operand }
    else s

end Sys2Proof.Machine
end

