-- ==== Sys2Proof/Machine/Flags.lean ====
section
/-! DEFINITION. STATUS (spec/10_state.md R33): ILL is the only flag, and no arithmetic result sets one. -/

namespace Sys2Proof.Machine

/-- `STATUS.ILL <- 1` (R106). -/
def State.setIll (s : State) : State := { s with status := s.status ||| 1#32 }

/-- `STATUS.ILL <- 0` (R84, R132). -/
def State.clearIll (s : State) : State := { s with status := s.status &&& ~~~1#32 }

/-- `STATUS.ILL`, bit 0. -/
def State.ill (s : State) : Bool := s.status.getLsbD 0

/-- `STATUS` as a read returns it: bits 31:1 read as 0 (R33). -/
def State.readStatus (s : State) : Word := s.status &&& 1#32

end Sys2Proof.Machine
end

