-- ==== Sys2Proof/Machine/System.lean ====
section
/-! DEFINITION. The SYS commands (spec/40_system.md R130 to R132). -/

namespace Sys2Proof.Machine

/-- SYS.NOP (R130): skip. -/
def execSysNop (s : State) : Result := .next s

/-- SYS.RESET (R131). -/
def execSysReset (s : State) : Result := .next s.blockReset

/-- SYS.CLRSTAT (R132). -/
def execSysClrstat (s : State) : Result := .next s.clearIll

end Sys2Proof.Machine
end

