-- ==== Sys2Proof/Machine/Dispatch.lean ====
section
/-! DEFINITION. Every command of the table, dispatched to its meaning (spec/30_encoding.md R110). -/

namespace Sys2Proof.Machine

-- The operand has been copied into DATA of the issuing port before the meaning runs (R100).
def exec (i : Instr) (s : State) : Host.Outcome State Fault Refusal :=
  match i with
  | .sysNop => Sys2Proof.Machine.execSysNop s
  | .sysReset => Sys2Proof.Machine.execSysReset s
  | .sysClrstat => Sys2Proof.Machine.execSysClrstat s
  | .smoothSetTarget idx => Sys2Proof.Machine.execSmoothSetTarget idx s
  | .smoothGet idx => Sys2Proof.Machine.execSmoothGet idx s
  | .smoothSetCoeff idx => Sys2Proof.Machine.execSmoothSetCoeff idx s
  | .oscSetFreq idx => Sys2Proof.Machine.execOscSetFreq idx s
  | .oscSample idx => Sys2Proof.Machine.execOscSample idx s
  | .oscReset idx => Sys2Proof.Machine.execOscReset idx s
  | .oscSetWave idx => Sys2Proof.Machine.execOscSetWave idx s
  | .oscSetDuty idx => Sys2Proof.Machine.execOscSetDuty idx s
  | .delaySetBeats idx => Sys2Proof.Machine.execDelaySetBeats idx s
  | .delaySetBpm idx => Sys2Proof.Machine.execDelaySetBpm idx s
  | .delaySetFb idx => Sys2Proof.Machine.execDelaySetFb idx s
  | .delaySetWet idx => Sys2Proof.Machine.execDelaySetWet idx s
  | .delayProcess idx => Sys2Proof.Machine.execDelayProcess idx s
  | .ladderSetCutoff idx => Sys2Proof.Machine.execLadderSetCutoff idx s
  | .ladderSetRes idx => Sys2Proof.Machine.execLadderSetRes idx s
  | .ladderSetMode idx => Sys2Proof.Machine.execLadderSetMode idx s
  | .ladderProcess idx => Sys2Proof.Machine.execLadderProcess idx s
  | .biquadSetCutoff idx => Sys2Proof.Machine.execBiquadSetCutoff idx s
  | .biquadSetQ idx => Sys2Proof.Machine.execBiquadSetQ idx s
  | .biquadSetMode idx => Sys2Proof.Machine.execBiquadSetMode idx s
  | .biquadProcess idx => Sys2Proof.Machine.execBiquadProcess idx s
  | .reverbSetRt60 idx => Sys2Proof.Machine.execReverbSetRt60 idx s
  | .reverbProcess idx => Sys2Proof.Machine.execReverbProcess idx s

end Sys2Proof.Machine
end

