-- ==== Sys2Proof/Machine/Window.lean ====
section
/-! DEFINITION. The memory-mapped binding (spec/20_memory.md R80 to R86): the register window's layout, its
byte order, its reads, and the writes that execute no command. -/

namespace Sys2Proof.Machine

/-- A register of the window (R80). -/
inductive WindowReg where
  | data (p : Port)
  | cmd (p : Port)
  | result (p : Port)
  | status
deriving DecidableEq, Repr

/-- The register at a byte offset of the window, none where the offset is not a multiple of 4 (R80, R85). -/
def windowReg (offset : Nat) : Option WindowReg :=
  match offset with
  | 0x00 => some (.data .ctrl)
  | 0x04 => some (.cmd .ctrl)
  | 0x08 => some (.result .ctrl)
  | 0x0C => some .status
  | 0x10 => some (.data .audio)
  | 0x14 => some (.cmd .audio)
  | 0x18 => some (.result .audio)
  | 0x1C => some .status
  | _ => none

/-- The offset of a bus address in the window, none where the address is not one of the window's 32 bytes
(R80). -/
def windowOffset (c : Params) (addr : Nat) : Option Nat :=
  if c.mmioBase ≤ addr ∧ addr < c.mmioBase + 32 then some (addr - c.mmioBase) else none

/-- The bytes of a register, lowest address first: bits 7:0 at `+0` and bits 31:24 at `+3` (R86). -/
def bytesOf (w : Word) : List Byte :=
  [w.extractLsb' 0 8, w.extractLsb' 8 8, w.extractLsb' 16 8, w.extractLsb' 24 8]

/-- The word of four bytes, lowest address first; none for any other number of bytes (R85, R86). -/
def wordOf : List Byte → Option Word
  | [b0, b1, b2, b3] => some (b3 ++ b2 ++ b1 ++ b0)
  | _ => none

/-- What a 32-bit read of a register returns; a read of CMD returns 0 (R80, R82, R83). -/
def State.readReg (s : State) : WindowReg → Word
  | .data p => s.data.get p
  | .cmd _ => 0#32
  | .result p => s.result.get p
  | .status => s.readStatus

/-- What a read of `width` bytes at an offset returns: only an aligned 32-bit read sees a register, and
any other returns 0 (R85). -/
def State.readWindow (s : State) (offset width : Nat) : List Byte :=
  match windowReg offset with
  | some r => if width = 4 then bytesOf (s.readReg r) else List.replicate width 0#8
  | none => List.replicate width 0#8

/-- A 32-bit write to STATUS: 1 in bit 0 clears ILL, and nothing else changes (R84). -/
def State.writeStatus (s : State) (w : Word) : State := if w.getLsbD 0 then s.clearIll else s

/-- A bus read by the issuing agent; an access outside the window does not reach the block (DESIGN CHOICE:
notes/assumptions/11.md). -/
def State.busRead (s : State) (addr width : Nat) : State :=
  match windowOffset s.cfg addr with
  | some off => { s with reply := s.reply.set s.port (s.readWindow off width) }
  | none => s

end Sys2Proof.Machine
end

