-- ==== Sys2Proof/Machine/Transaction.lean ====
section
/-! DEFINITION. The transaction `exec(p, cmd, data)` (spec/30_encoding.md R100) and what one host request does
(spec/20_memory.md R81 to R85). -/

namespace Sys2Proof.Machine

/-- `exec(p, cmd, data)` (R100): the data word goes to `DATA[p]`, a reserved word then sets ILL and stops
(R106), and any other word performs its command. -/
def transact (p : Port) (cmd data : Word) (s : State) : Result :=
  match decode cmd with
  | .ok i => exec i (s.present p data)
  | .error _ => .next (s.present p data).setIll

/-- A 32-bit write to a register of the window (R80 to R84): a write to CMD executes a command, and one to
RESULT is ignored. -/
def writeReg (r : WindowReg) (w : Word) (s : State) : Result :=
  match r with
  | .data p => .next (s.setData p w)
  | .cmd p => transact p w (s.data.get p) s
  | .result _ => .next s
  | .status => .next (s.writeStatus w)

/-- A bus write: only an aligned 32-bit write to the window takes effect (R85). -/
def busWrite (addr : Nat) (bytes : List Byte) (s : State) : Result :=
  match windowOffset s.cfg addr with
  | none => .next s
  | some off =>
    match windowReg off, wordOf bytes with
    | some r, some w => writeReg r w s
    | _, _ => .next s

/-- One request of the agent at port `p`. -/
def serve (p : Port) (r : Request) (s : State) : Result :=
  match r with
  | .command cmd data => transact p cmd data s
  | .busRead addr width => .next (s.busRead addr width)
  | .busWrite addr bytes => busWrite addr bytes s

/-- One step of a legal block: the next request of the execution order is served as one atomic step (R77,
R78), and with none waiting the block is idle and keeps its state (R282, notes/assumptions/13.md). -/
def advance (s : State) : Result :=
  match s.takeRequest with
  | none => .next s
  | some (p, r, s') => serve p r s'

/-- The command half of a fetched instruction: bits 31:0 (DEDUCED: notes/assumptions/18.md). -/
def fetchCmd (nbits w : Nat) : Word := BitVec.ofNat 32 (w % 2 ^ nbits)

/-- The data half of a fetched instruction: bits 63:32, the word that follows the command word (R101). -/
def fetchData (nbits w : Nat) : Word := BitVec.ofNat 32 (w % 2 ^ nbits / 2 ^ 32)

end Sys2Proof.Machine
end

