-- ==== Sys2Proof/Machine/Step.lean ====
section
/-! DEFINITION. One step of the machine, and where it fetches its next instruction.  BM-DSP has no program
counter: the host's sequence of commands is the program (spec/10_state.md R30). -/

namespace Sys2Proof.Machine

/-- One step: no block exists for parameters outside their legal ranges (R10, notes/assumptions/14.md). -/
def step (s : State) : Host.Outcome State Fault Refusal :=
  if s.cfg.legal then advance s else .refused .illegalConfiguration

/-- The state in which the host presents exactly this instruction next, on the CTRL port: at the head of
CTRL's requests, and with none waiting at AUDIO, whose request might be chosen first (R77). -/
def State.withFetchWord (s : State) (nbits w : Nat) : State :=
  { s with pending := ⟨.command (fetchCmd nbits w) (fetchData nbits w) :: s.pending.ctrl, []⟩ }

end Sys2Proof.Machine
end

