-- ==== Sys2Proof/Safety.lean ====
section
/-! DEFINITION. The terms claims are stated in: the invariants of the states a block reaches, which fields a
command may write (spec/10_state.md R45), and what two states share. -/

namespace Sys2Proof.Machine

/-- Every unit holds as many instances as the block was elaborated with (R6, R35, R36, R39 to R42). -/
structure State.Shaped (s : State) : Prop where
  smooth : s.smooth.length = s.cfg.nSmooth
  osc : s.osc.length = s.cfg.nOsc
  delay : s.delay.length = s.cfg.nDelay
  ladder : s.ladder.length = s.cfg.nLadder
  biquad : s.biquad.length = s.cfg.nBiquad
  reverb : s.reverb.length = s.cfg.nReverb

/-- A ring of length `n` is in canonical form, lists no element outside `[0, n)`, and has its cursor in
`[0, n)` (R71). -/
structure Ring.Ok (n : Nat) (r : Ring) : Prop where
  wf : Memory.wf r.storage = true
  below : Memory.below n r.storage = true
  cursor : r.cursor.toNat < n

/-- Every delay line of the block is a ring of its parameter's length (R71, R190). -/
structure State.LinesOk (s : State) : Prop where
  delay : ∀ d ∈ s.delay, Ring.Ok s.cfg.nDbuf d.ring
  comb : ∀ rv ∈ s.reverb, ∀ k, Ring.Ok (s.cfg.combLen.get k) (rv.comb.get k)
  allpass : ∀ rv ∈ s.reverb, ∀ k, Ring.Ok (s.cfg.apLen.get k) (rv.ap.get k)

/-- `phase < cyc`, or `cyc = 0` and `phase = 0` (R37). -/
def Osc.PhaseOk (o : Osc) : Prop := o.phase.toNat < o.cyc.toNat ∨ (o.cyc = 0#32 ∧ o.phase = 0#32)

/-- Every oscillator's phase is within its cycle (R37). -/
def State.PhasesOk (s : State) : Prop := ∀ o ∈ s.osc, o.PhaseOk

/-- An f32 word lies in `[lo, hi]`. -/
def within (lo hi : F32) (w : Word) : Prop := lo.le (F32.ofBits w) = true ∧ (F32.ofBits w).le hi = true

/-- Every oscillator's duty lies in [DUTY_MIN, DUTY_MAX] (R36). -/
def State.DutiesOk (s : State) : Prop := ∀ o ∈ s.osc, within dutyMin dutyMax o.duty

/-- The five coefficients of a core. -/
def Biquad.coeffs (c : Biquad) : BiquadCoeffs := ⟨c.b0, c.b1, c.b2, c.a1, c.a2⟩

/-- The coefficients are what R230 computes from the core's cutoff, Q and mode, up to the encoding of a
NaN: where R230 computes a NaN the coefficient is some NaN, and elsewhere it is R230's value (R38, R20). -/
def Biquad.Coherent (fsF : F32) (c : Biquad) : Prop :=
  ∃ nan : Site → Word, (∀ site, F32.ofBits (nan site) = .nan) ∧
    c.coeffs = biquadCoeffs fsF nan (F32.ofBits c.fc) (F32.ofBits c.q) c.mode

/-- Every biquad core of the block, the delays' lowpasses among them, is coherent (R38). -/
structure State.CoresCoherent (s : State) : Prop where
  biquad : ∀ c ∈ s.biquad, c.Coherent s.cfg.fsF
  lowpass : ∀ d ∈ s.delay, d.lp.Coherent s.cfg.fsF

/-- A coefficient in [0, 1) (R34). -/
def Smoother.CoeffOk (u : Smoother) : Prop := inUnit u.coeff = true

/-- Every smoother's coefficient lies in [0, 1), and the ones inside LADDER and DELAY equal their `SC_`
parameters (R34, R45). -/
structure State.CoeffsOk (s : State) : Prop where
  smooth : ∀ u ∈ s.smooth, u.CoeffOk
  ladder : ∀ l ∈ s.ladder, l.sFc.coeff = s.cfg.scLadderFc ∧ l.sRes.coeff = s.cfg.scLadderRes
  delay : ∀ d ∈ s.delay, d.sLen.coeff = s.cfg.scDelayLen ∧ d.sWet.coeff = s.cfg.scDelayWet

/-- An f32 word that is not subnormal (R19). -/
def NotSubnormal (w : Word) : Prop := (F32.ofBits w).isSubnormal = false

/-- None of a ladder's eight stage values is subnormal (R216, R217 item 4). -/
structure Ladder.Flushed (l : Ladder) : Prop where
  y1 : NotSubnormal l.y1
  y2 : NotSubnormal l.y2
  y3 : NotSubnormal l.y3
  y4 : NotSubnormal l.y4
  o1 : NotSubnormal l.o1
  o2 : NotSubnormal l.o2
  o3 : NotSubnormal l.o3
  o4 : NotSubnormal l.o4

/-- No ladder of the block holds a subnormal stage value. -/
def State.LaddersFlushed (s : State) : Prop := ∀ l ∈ s.ladder, l.Flushed

/-- A delay's settings are in their ranges: beats finite and at least 0, bpm finite and above 0, feedback
in [0, DELAY_FB_MAX], wet target in [0, 1] (R41, R191, R194, R196). -/
structure Delay.SettingsOk (d : Delay) : Prop where
  beatsFinite : (F32.ofBits d.beats).isFinite = true
  beats : F32.zero.le (F32.ofBits d.beats) = true
  bpmFinite : (F32.ofBits d.bpm).isFinite = true
  bpm : F32.zero.lt (F32.ofBits d.bpm) = true
  fb : within F32.zero delayFbMax d.fb
  wet : within F32.zero F32.one d.sWet.tgt

/-- Every delay's settings are in their ranges. -/
def State.DelaySettingsOk (s : State) : Prop := ∀ d ∈ s.delay, d.SettingsOk

/-- Bits 31:1 of STATUS are 0 (R33). -/
def State.StatusOk (s : State) : Prop := s.status &&& ~~~1#32 = 0#32

/-- The two states hold the same unit instances (R34 to R42). -/
structure State.SameUnits (s t : State) : Prop where
  smooth : t.smooth = s.smooth
  osc : t.osc = s.osc
  delay : t.delay = s.delay
  ladder : t.ladder = s.ladder
  biquad : t.biquad = s.biquad
  reverb : t.reverb = s.reverb

/-- The command belongs to the SYS unit (R102). -/
def isSys (i : Instr) : Bool := i.unitOp.1 = 0

/-- `N_unit` of the unit a command belongs to (R100); 0 for SYS. -/
def unitCount (c : Params) (i : Instr) : Nat :=
  match i.unitOp.1 with
  | 1 => c.nSmooth
  | 2 => c.nOsc
  | 3 => c.nDelay
  | 4 => c.nLadder
  | 5 => c.nBiquad
  | 6 => c.nReverb
  | _ => 0

/-- R45's rows for `SMOOTH[j]`: which command writes each field. -/
structure SmoothWritten (i : Instr) (j : Nat) (u u' : Smoother) : Prop where
  tgt : u'.tgt ≠ u.tgt → i = .smoothSetTarget j
  coeff : u'.coeff ≠ u.coeff → i = .smoothSetCoeff j
  cur : u'.cur ≠ u.cur → i = .smoothGet j ∧ (F32.ofBits u.coeff).eq F32.zero = false

/-- R45's rows for `OSC[j]`. -/
structure OscWritten (i : Instr) (j : Nat) (o o' : Osc) : Prop where
  pend : o'.pend ≠ o.pend → i = .oscSetFreq j
  cyc : o'.cyc ≠ o.cyc → i = .oscSample j
  phase : o'.phase ≠ o.phase → i = .oscSample j ∨ i = .oscReset j
  wave : o'.wave ≠ o.wave → i = .oscSetWave j
  duty : o'.duty ≠ o.duty → i = .oscSetDuty j

/-- R45's rows for `DELAY[j]`: the lowpass keeps its cutoff, Q, mode and coefficients for good (R197). -/
structure DelayWritten (i : Instr) (j : Nat) (d d' : Delay) : Prop where
  beats : d'.beats ≠ d.beats → i = .delaySetBeats j
  bpm : d'.bpm ≠ d.bpm → i = .delaySetBpm j
  lenTgt : d'.sLen.tgt ≠ d.sLen.tgt → i = .delaySetBeats j ∨ i = .delaySetBpm j
  fb : d'.fb ≠ d.fb → i = .delaySetFb j
  wetTgt : d'.sWet.tgt ≠ d.sWet.tgt → i = .delaySetWet j
  ring : d'.ring ≠ d.ring → i = .delayProcess j
  lenCur : d'.sLen.cur ≠ d.sLen.cur → i = .delayProcess j
  wetCur : d'.sWet.cur ≠ d.sWet.cur → i = .delayProcess j
  lp : d'.lp ≠ d.lp → i = .delayProcess j
  lpFixed : d'.lp.fc = d.lp.fc ∧ d'.lp.q = d.lp.q ∧ d'.lp.mode = d.lp.mode ∧ d'.lp.coeffs = d.lp.coeffs
  coeffs : d'.sLen.coeff = d.sLen.coeff ∧ d'.sWet.coeff = d.sWet.coeff

/-- R45's rows for `LADDER[j]`. -/
structure LadderWritten (i : Instr) (j : Nat) (l l' : Ladder) : Prop where
  fcTgt : l'.sFc.tgt ≠ l.sFc.tgt → i = .ladderSetCutoff j
  resTgt : l'.sRes.tgt ≠ l.sRes.tgt → i = .ladderSetRes j
  mode : l'.mode ≠ l.mode → i = .ladderSetMode j
  fcCur : l'.sFc.cur ≠ l.sFc.cur → i = .ladderProcess j
  resCur : l'.sRes.cur ≠ l.sRes.cur → i = .ladderProcess j
  stages : (l'.y1, l'.y2, l'.y3, l'.y4, l'.o1, l'.o2, l'.o3, l'.o4) ≠
    (l.y1, l.y2, l.y3, l.y4, l.o1, l.o2, l.o3, l.o4) → i = .ladderProcess j
  coeffs : l'.sFc.coeff = l.sFc.coeff ∧ l'.sRes.coeff = l.sRes.coeff

/-- R45's rows for `BIQUAD[j]`. -/
structure BiquadWritten (i : Instr) (j : Nat) (c c' : Biquad) : Prop where
  fc : c'.fc ≠ c.fc → i = .biquadSetCutoff j
  q : c'.q ≠ c.q → i = .biquadSetQ j
  mode : c'.mode ≠ c.mode → i = .biquadSetMode j
  coeffs : c'.coeffs ≠ c.coeffs → i = .biquadSetCutoff j ∨ i = .biquadSetQ j ∨ i = .biquadSetMode j
  history : (c'.x1, c'.x2, c'.y1, c'.y2) ≠ (c.x1, c.x2, c.y1, c.y2) → i = .biquadProcess j

/-- R45's rows for `REVERB[j]`. -/
structure ReverbWritten (i : Instr) (j : Nat) (r r' : Reverb) : Prop where
  fbc : r'.fbc ≠ r.fbc → i = .reverbSetRt60 j
  comb : r'.comb ≠ r.comb → i = .reverbProcess j
  ap : r'.ap ≠ r.ap → i = .reverbProcess j

/-- The command words of a (UNIT, OP) pair: `match | (idx << 16)` stands for the command on every instance
number the IDX field can hold, and is what that command encodes to (R101, R104, R110). -/
def EncodedAs (matchWord : Nat) (command : Nat → Instr) : Prop :=
  ∀ idx, idx < 256 →
    decode (BitVec.ofNat 32 (matchWord + idx * 2 ^ 16)) = .ok (command idx) ∧
    encode (command idx) = BitVec.ofNat 32 (matchWord + idx * 2 ^ 16)

/-- The value a finite datum stands for, in units of 2^-149 (R12). -/
def signedUnits (neg : Bool) (mag : Nat) : Int := if neg then -(mag : Int) else (mag : Int)

/-- An exact sum of `e` units rounded once; an exact 0 takes the sign given for it (R14). -/
def roundedSum (zeroNeg : Bool) (e : Int) : F32 :=
  if e = 0 then .fin zeroNeg 0 else F32.round (decide (e < 0)) e.natAbs 1

/-- The unit impulse: 1.0 at sample 0 and +0.0 after (R254). -/
def unitImpulse (t : Nat) : F32 := if t = 0 then F32.one else F32.zero

/-- A comb's line after `t` samples of the unit impulse from a zeroed line (R250, R254). -/
def combLine (nan : Nat → Word) (d : Nat) (f : F32) : Nat → Ring
  | 0 => Ring.zeroed
  | t + 1 => (combStep (nan t) d f (combLine nan d f t) (unitImpulse t)).2

/-- A comb's output at sample `t` of the unit impulse from a zeroed line (R250, R254). -/
def combOutput (nan : Nat → Word) (d : Nat) (f : F32) (t : Nat) : F32 :=
  (combStep (nan t) d f (combLine nan d f t) (unitImpulse t)).1

/-- `f^k` formed by repeated f32 products (R254). -/
def f32Power (f : F32) : Nat → F32
  | 0 => F32.one
  | k + 1 => f.mul (f32Power f k)

/-- An oscillator after `t` sample steps with no other command between them (R169). -/
def oscAfter (nan : Nat → Word) (o : Osc) : Nat → Osc
  | 0 => o
  | t + 1 => ((oscAfter nan o t).sample (nan t)).2

/-- A line of length `n` after the writes `ws`, the first first, from a zeroed line (R74). -/
def lineAfter (n : Nat) (ws : List Word) : Ring := ws.foldl (fun r v => r.write n v) Ring.zeroed

end Sys2Proof.Machine
end

