-- ==== Sys2Proof/Certificates/Slice0/Obligations.lean ====
section
/-! DEFINITION. The statements for the provers.  A statement about a command gives the whole next state, so
that its frame is part of it: every field, unit, instance and delay-line element it does not name is as it
was.  `s.data.get s.port` is `DATA[p]` of the issuing port and `s.nan site` the NaN encoding drawn at a site
(spec/00_scope.md R20). -/

open Sys2Proof Sys2Proof.Machine

/-! ### Encoding -/

/-- Every well-formed command's word decodes to that command (R101, R104, R110). -/
def Obligations.DecodingAnEncodedCommandGivesItBack : Prop :=
  ∀ i : Instr, i.wellFormed = true → decode (encode i) = .ok i

/-- Every word that decodes is the word of the command it decodes to: no bit of it is dropped (R101). -/
def Obligations.EncodingADecodedWordGivesItBack : Prop :=
  ∀ (w : Word) (i : Instr), decode w = .ok i → encode i = w ∧ i.wellFormed = true

/-- Rule R106: which words are reserved, and all that a reserved command does. -/
def Obligations.ReservedWordsOnlySetIll : Prop :=
  (∀ w : Word, reserved w = true ↔
    w.toNat % 2 ^ 16 ≠ 0 ∨ 7 ≤ w.toNat / 2 ^ 28 ∨
    (w.toNat / 2 ^ 28, w.toNat / 2 ^ 24 % 2 ^ 4) ∉
      [(0, 0), (0, 1), (0, 2), (1, 0), (1, 1), (1, 2), (2, 0), (2, 1), (2, 2), (2, 3), (2, 4),
       (3, 0), (3, 1), (3, 2), (3, 3), (3, 4), (4, 0), (4, 1), (4, 2), (4, 3),
       (5, 0), (5, 1), (5, 2), (5, 3), (6, 0), (6, 1)] ∨
    (w.toNat / 2 ^ 28 = 0 ∧ w.toNat / 2 ^ 16 % 2 ^ 8 ≠ 0)) ∧
  ∀ (p : Port) (cmd data : Word) (s : State), reserved cmd = true →
    transact p cmd data s =
      .next { s with port := p, data := s.data.set p data, status := s.status ||| 1#32 }

/-- Words of spec/95_test_vectors.md V-EN-1 and V-EN-2 decode as the spec says. -/
def Obligations.SampleWordsDecodeAsTheSpecSays : Prop :=
  decode 0x20000000#32 = .ok (.oscSetFreq 0) ∧ decode 0x21010000#32 = .ok (.oscSample 1) ∧
  decode 0x23000000#32 = .ok (.oscSetWave 0) ∧ decode 0x31010000#32 = .ok (.delaySetBpm 1) ∧
  decode 0x43010000#32 = .ok (.ladderProcess 1) ∧ decode 0x52000000#32 = .ok (.biquadSetMode 0) ∧
  decode 0x60000000#32 = .ok (.reverbSetRt60 0) ∧ decode 0x01000000#32 = .ok .sysReset ∧
  decode 0x70000000#32 = .error .unitUnassigned ∧ decode 0x13000000#32 = .error .opUnassigned ∧
  decode 0x21000001#32 = .error .rsvNonzero ∧ decode 0x00010000#32 = .error .sysIndexNonzero

/-! ### Steps, ports and completion -/

/-- A step serves the request that goes next, in the state where it is no longer waiting, the issuing port
is set and the draw number has moved on (the model's own fields: notes/assumptions/1.md, 7.md and 8.md): a
command whose word decodes runs that command's meaning with the data word in DATA of its port, a reserved
word only sets ILL (R106), and a bus read or a bus write is that access (R80). -/
def Obligations.StepRunsTheDecodedCommand : Prop :=
  ∀ (s : State) (p : Port) (r : Request) (rest : List Request),
    s.cfg.legal = true → s.nextPort = some p → s.pending.get p = r :: rest →
    let t := { s with pending := s.pending.set p rest, port := p, draws := s.draws + 1 }
    (∀ (cmd data : Word) (i : Instr), r = .command cmd data → decode cmd = .ok i →
      step s = exec i { t with data := s.data.set p data }) ∧
    (∀ cmd data : Word, r = .command cmd data → reserved cmd = true →
      step s = .next { t with data := s.data.set p data, status := s.status ||| 1#32 }) ∧
    (∀ addr width : Nat, r = .busRead addr width → step s = .next (t.busRead addr width)) ∧
    ∀ (addr : Nat) (bytes : List Byte), r = .busWrite addr bytes → step s = busWrite addr bytes t

/-- Rule R108: a command on an instance that is not there is ignored, and a value-producing one returns
+0.0. -/
def Obligations.OutOfRangeInstanceIsIgnored : Prop :=
  ∀ (s : State) (i : Instr), s.Shaped → isSys i = false → unitCount s.cfg i ≤ i.idx →
    exec i s = .next (if i.producesValue then { s with result := s.result.set s.port 0#32 } else s)

/-- Requests execute one at a time, each port's in the order it presents them (R77): the port with the only
requests goes next, one of the two does when both have some (which one is free: notes/assumptions/2.md), and
a step takes exactly that port's first.  The queues are the model's own (notes/assumptions/7.md), and that
SYS.RESET keeps them is DEDUCED (notes/assumptions/12.md). -/
def Obligations.EachStepTakesOnePortsFirstRequest : Prop :=
  (∀ (s : State) (r : Request) (rest : List Request),
    s.pending.ctrl = r :: rest → s.pending.audio = [] → s.nextPort = some .ctrl) ∧
  (∀ (s : State) (r : Request) (rest : List Request),
    s.pending.audio = r :: rest → s.pending.ctrl = [] → s.nextPort = some .audio) ∧
  (∀ (s : State) (r q : Request) (rest more : List Request),
    s.pending.ctrl = r :: rest → s.pending.audio = q :: more →
    s.nextPort = some .ctrl ∨ s.nextPort = some .audio) ∧
  ∀ (s t : State) (p : Port) (r : Request) (rest : List Request),
    s.nextPort = some p → s.pending.get p = r :: rest → step s = .next t →
    t.pending = s.pending.set p rest

/-- With no request waiting the block is idle and keeps its whole state (R282). -/
def Obligations.IdleBlockKeepsItsState : Prop :=
  ∀ s : State, s.cfg.legal = true → s.pending.ctrl = [] → s.pending.audio = [] → step s = .next s

/-- No command and no step of a legal block ends in a fault or a refusal (R270), and a block outside the
legal ranges is refused (R10). -/
def Obligations.EveryCommandAndStepCompletes : Prop :=
  (∀ (i : Instr) (s : State), ∃ t, exec i s = .next t) ∧
  (∀ s : State, s.cfg.legal = true → ∃ t, step s = .next t) ∧
  ∀ s : State, s.cfg.legal = false → step s = .refused .illegalConfiguration

/-! ### SYS and reset -/

/-- Rule R130: SYS.NOP skips; the data word is still copied into DATA. -/
def Obligations.SysNopSkips : Prop :=
  decode 0x00000000#32 = .ok .sysNop ∧ encode .sysNop = 0x00000000#32 ∧
  (∀ s : State, exec .sysNop s = .next s) ∧
  (∀ (p : Port) (data : Word) (s : State),
    transact p 0x00000000#32 data s = .next { s with port := p, data := s.data.set p data }) ∧
  ∀ w : Word, w.toNat / 2 ^ 24 = 0 → w ≠ 0#32 → reserved w = true

/-- Rule R131: SYS.RESET sets every field of R43 to its reset value and nothing of the block survives it;
the block's parameters and the host's requests and replies are not fields of R43. -/
def Obligations.SysResetRestoresEveryField : Prop :=
  decode 0x01000000#32 = .ok .sysReset ∧ encode .sysReset = 0x01000000#32 ∧
  ∀ s : State, exec .sysReset s = .next
    { State.resetOf s.cfg with
      pending := s.pending, reply := s.reply, port := s.port, draws := s.draws }

/-- Rule R132: SYS.CLRSTAT clears ILL and changes nothing else. -/
def Obligations.SysClrstatClearsIll : Prop :=
  decode 0x02000000#32 = .ok .sysClrstat ∧ encode .sysClrstat = 0x02000000#32 ∧
  ∀ s : State, exec .sysClrstat s = .next { s with status := s.status &&& 0xFFFFFFFE#32 }

/-- The reset value of every field of R43, for every block's parameters.  A coefficient that R230 makes a NaN
has the encoding the model draws at reset, a DESIGN CHOICE where cores share it (notes/assumptions/1.md). -/
def Obligations.ResetValuesAreThoseOfTheTable : Prop :=
  ∀ c : Params, let s := State.resetOf c
    s.cfg = c ∧ s.data = ⟨0#32, 0#32⟩ ∧ s.result = ⟨0#32, 0#32⟩ ∧ s.status = 0#32 ∧
    s.smooth = List.replicate c.nSmooth ⟨0#32, 0#32, c.smoothCoeffReset⟩ ∧
    s.osc = List.replicate c.nOsc ⟨0#32, 0#32, 0#32, .saw, c.dutyReset⟩ ∧
    (∀ l ∈ s.ladder,
      l.sFc.cur = ((F32.ofBits c.ladderFcReset).clamp (F32.ofBits c.ladderFcMin)
        ((F32.ofNat c.fs).mul (F32.ofBits c.ladderFcMaxRatio))).toBits (resetNan .setting) ∧
      l.sFc.tgt = l.sFc.cur ∧ l.sFc.coeff = c.scLadderFc ∧
      l.sRes = ⟨c.ladderResReset, c.ladderResReset, c.scLadderRes⟩ ∧ l.mode = .lowpass ∧
      [l.y1, l.y2, l.y3, l.y4, l.o1, l.o2, l.o3, l.o4] = List.replicate 8 0#32) ∧
    (∀ b ∈ s.biquad,
      b.fc = ((F32.ofBits c.bqFcReset).clamp (F32.ofBits c.bqFcMin)
        ((F32.ofNat c.fs).mul (F32.ofBits c.bqFcMaxRatio))).toBits (resetNan .setting) ∧
      b.q = ((F32.ofBits c.bqQReset).clamp (F32.ofBits c.bqQMin) (F32.ofBits c.bqQMax)).toBits
        (resetNan .setting) ∧
      b.mode = .lowpass ∧
      b.coeffs = biquadCoeffs (F32.ofNat c.fs) resetNan (F32.ofBits b.fc) (F32.ofBits b.q) .lowpass ∧
      [b.x1, b.x2, b.y1, b.y2] = List.replicate 4 0#32) ∧
    (∀ d ∈ s.delay,
      d.ring = ⟨[], 0#32⟩ ∧ d.sLen = ⟨0#32, 0#32, c.scDelayLen⟩ ∧ d.sWet = ⟨0#32, 0#32, c.scDelayWet⟩ ∧
      d.beats = 0#32 ∧ d.bpm = c.delayBpmReset ∧ d.fb = 0#32 ∧
      d.lp.fc = ((F32.ofBits c.delayLpFc).clamp (F32.ofBits c.bqFcMin)
        ((F32.ofNat c.fs).mul (F32.ofBits c.bqFcMaxRatio))).toBits (resetNan .setting) ∧
      d.lp.q = ((F32.ofBits c.delayLpQ).clamp (F32.ofBits c.bqQMin) (F32.ofBits c.bqQMax)).toBits
        (resetNan .setting) ∧
      d.lp.mode = .lowpass ∧
      d.lp.coeffs =
        biquadCoeffs (F32.ofNat c.fs) resetNan (F32.ofBits d.lp.fc) (F32.ofBits d.lp.q) .lowpass ∧
      [d.lp.x1, d.lp.x2, d.lp.y1, d.lp.y2] = List.replicate 4 0#32) ∧
    (∀ rv ∈ s.reverb, ∀ k : Fin 4,
      rv.comb.get k = ⟨[], 0#32⟩ ∧ rv.ap.get k = ⟨[], 0#32⟩ ∧ rv.fbc.get k = c.combFbBase) ∧
    s.ladder.length = c.nLadder ∧ s.biquad.length = c.nBiquad ∧ s.delay.length = c.nDelay ∧
    s.reverb.length = c.nReverb ∧ (∀ site, F32.ofBits (resetNan site) = .nan) ∧
    ∀ n a : Nat, 1 ≤ n → a < n → Memory.read (⟨[], 0#32⟩ : Ring).storage a = 0#32

/-! ### SMOOTH -/

/-- Rule R140: the smoothing step. -/
def Obligations.SmoothingStepFollowsItsFormula : Prop :=
  (∀ (n : Word) (u : Smoother), (F32.ofBits u.coeff).eq F32.zero = true → u.step n = (u.tgt, u)) ∧
  (∀ (n : Word) (u : Smoother), (F32.ofBits u.coeff).eq F32.zero = false →
    u.step n =
      (((F32.ofBits u.cur).add ((F32.ofBits u.coeff).mul
          ((F32.ofBits u.tgt).sub (F32.ofBits u.cur)))).toBits n,
        { u with cur := ((F32.ofBits u.cur).add ((F32.ofBits u.coeff).mul
          ((F32.ofBits u.tgt).sub (F32.ofBits u.cur)))).toBits n })) ∧
  ∀ w : Word, (F32.ofBits w).eq F32.zero = true ↔ w = 0x00000000#32 ∨ w = 0x80000000#32

/-- Rule R141: SMOOTH.SETTARGET. -/
def Obligations.SmoothSetTargetStoresAFiniteTarget : Prop :=
  EncodedAs 0x10000000 .smoothSetTarget ∧
  ∀ (s : State) (idx : Nat) (u : Smoother), s.smooth[idx]? = some u →
    exec (.smoothSetTarget idx) s = .next
      (if (F32.ofBits (s.data.get s.port)).isFinite then
        { s with smooth := s.smooth.set idx { u with tgt := s.data.get s.port } }
      else s)

/-- Rule R142: SMOOTH.GET. -/
def Obligations.SmoothGetReturnsTheStep : Prop :=
  EncodedAs 0x11000000 .smoothGet ∧
  ∀ (s : State) (idx : Nat) (u : Smoother), s.smooth[idx]? = some u →
    exec (.smoothGet idx) s = .next
      { s with smooth := s.smooth.set idx (u.step (s.nan .cur)).2,
               result := s.result.set s.port (u.step (s.nan .cur)).1 }

/-- Rule R144: SMOOTH.SETCOEFF. -/
def Obligations.SmoothSetCoeffStoresACoefficientBelowOne : Prop :=
  EncodedAs 0x12000000 .smoothSetCoeff ∧
  ∀ (s : State) (idx : Nat) (u : Smoother), s.smooth[idx]? = some u →
    exec (.smoothSetCoeff idx) s = .next
      (if F32.zero.le (F32.ofBits (s.data.get s.port)) = true ∧
          (F32.ofBits (s.data.get s.port)).lt F32.one = true then
        { s with smooth := s.smooth.set idx { u with coeff := s.data.get s.port } }
      else s)

/-! ### OSC -/

/-- Rule R160: OSC.SETFREQ. -/
def Obligations.OscSetFreqStoresThePendingLength : Prop :=
  EncodedAs 0x20000000 .oscSetFreq ∧
  ∀ (s : State) (idx : Nat) (o : Osc), s.osc[idx]? = some o →
    exec (.oscSetFreq idx) s = .next
      (let hz := F32.ofBits (s.data.get s.port)
       let q := (F32.ofNat s.cfg.fs).div hz
       if hz.isFinite = true ∧ F32.zero.lt hz = true then
         if q = .inf false ∨ (F32.ofNat 4294967296).le q = true then
           { s with osc := s.osc.set idx { o with pend := 4294967295#32 } }
         else { s with osc := s.osc.set idx { o with pend := BitVec.ofNat 32 q.trunc } }
       else s)

/-- Rule R161: OSC.SAMPLE commits at phase 0, is silent at length 0, and otherwise returns the waveform's
value and advances the phase modulo the length. -/
def Obligations.OscSampleCommitsThenSoundsOrIsSilent : Prop :=
  EncodedAs 0x21000000 .oscSample ∧
  ∀ (s : State) (idx : Nat) (o : Osc), s.osc[idx]? = some o →
    exec (.oscSample idx) s = .next
      (let cyc := if o.phase = 0#32 then o.pend else o.cyc
       if cyc = 0#32 then
         { s with osc := s.osc.set idx { o with cyc := cyc }, result := s.result.set s.port 0#32 }
       else
         { s with osc := s.osc.set idx { o with
                    cyc := cyc, phase := BitVec.ofNat 32 ((o.phase.toNat + 1) % cyc.toNat) },
                  result := s.result.set s.port
                    ((waveValue o.wave (F32.ofNat o.phase.toNat) (F32.ofNat cyc.toNat)
                      (F32.ofBits o.duty)).toBits (s.nan .result)) })

/-- Rule R162: OSC.RESET zeroes the phase and nothing else. -/
def Obligations.OscResetZeroesThePhase : Prop :=
  EncodedAs 0x22000000 .oscReset ∧
  ∀ (s : State) (idx : Nat) (o : Osc), s.osc[idx]? = some o →
    exec (.oscReset idx) s = .next { s with osc := s.osc.set idx { o with phase := 0#32 } }

/-- Rule R163: OSC.SETWAVE. -/
def Obligations.OscSetWaveSelectsOneOfFour : Prop :=
  EncodedAs 0x23000000 .oscSetWave ∧
  ∀ (s : State) (idx : Nat) (o : Osc), s.osc[idx]? = some o →
    exec (.oscSetWave idx) s = .next
      (if s.data.get s.port = 0#32 then { s with osc := s.osc.set idx { o with wave := .saw } }
       else if s.data.get s.port = 1#32 then { s with osc := s.osc.set idx { o with wave := .sine } }
       else if s.data.get s.port = 2#32 then { s with osc := s.osc.set idx { o with wave := .square } }
       else if s.data.get s.port = 3#32 then { s with osc := s.osc.set idx { o with wave := .triangle } }
       else s)

/-- Rule R164: OSC.SETDUTY; 0x3D4CCCCD is DUTY_MIN and 0x3F733333 is DUTY_MAX. -/
def Obligations.OscSetDutyStoresTheClampedDuty : Prop :=
  EncodedAs 0x24000000 .oscSetDuty ∧
  ∀ (s : State) (idx : Nat) (o : Osc), s.osc[idx]? = some o →
    exec (.oscSetDuty idx) s = .next
      (if (F32.ofBits (s.data.get s.port)).isFinite then
        { s with osc := s.osc.set idx { o with
            duty := ((F32.ofBits (s.data.get s.port)).clamp (F32.ofBits 0x3D4CCCCD#32)
              (F32.ofBits 0x3F733333#32)).toBits (s.nan .setting) } }
      else s)

/-- Rules R165 to R168: the four waveforms; the encodings are those of 2.0, 1.0, 2π, -1.0, 0.5, 4.0 and
3.0. -/
def Obligations.WaveformsFollowTheirFormulas : Prop :=
  ∀ ph len duty : F32,
    waveValue .saw ph len duty =
      (((F32.ofBits 0x40000000#32).mul ph).div len).sub (F32.ofBits 0x3F800000#32) ∧
    waveValue .sine ph len duty = (((F32.ofBits 0x40C90FDB#32).mul ph).div len).sin ∧
    waveValue .square ph len duty =
      (if ph.lt (duty.mul len) then F32.ofBits 0x3F800000#32 else F32.ofBits 0xBF800000#32) ∧
    waveValue .triangle ph len duty =
      (if (ph.div len).lt (F32.ofBits 0x3F000000#32) then
        ((F32.ofBits 0x40800000#32).mul (ph.div len)).sub (F32.ofBits 0x3F800000#32)
      else (F32.ofBits 0x40400000#32).sub ((F32.ofBits 0x40800000#32).mul (ph.div len)))

/-- Once `cyc = pend = L` at phase 0, the oscillator runs through its cycle with period L, and sample k of
a cycle is the waveform's value at phase k (R169). -/
def Obligations.OscillatorIsPeriodicOnceCommitted : Prop :=
  ∀ (nan : Nat → Word) (o : Osc) (t : Nat), o.phase = 0#32 → o.pend = o.cyc → o.cyc ≠ 0#32 →
    oscAfter nan o t = { o with phase := BitVec.ofNat 32 (t % o.cyc.toNat) } ∧
    ((oscAfter nan o t).sample (nan t)).1 =
      (waveValue o.wave (F32.ofNat (t % o.cyc.toNat)) (F32.ofNat o.cyc.toNat)
        (F32.ofBits o.duty)).toBits (nan t) ∧
    oscAfter nan o (t + o.cyc.toNat) = oscAfter nan o t

/-! ### DELAY -/

/-- Rule R193 with R191: DELAY.SETBEATS; 0x42700000 is 60.0. -/
def Obligations.DelaySetBeatsRetargetsTheLength : Prop :=
  EncodedAs 0x30000000 .delaySetBeats ∧
  ∀ (s : State) (idx : Nat) (d : Delay), s.delay[idx]? = some d →
    exec (.delaySetBeats idx) s = .next
      (let n := F32.ofBits (s.data.get s.port)
       let t := (((F32.ofBits 0x42700000#32).mul n).div (F32.ofBits d.bpm)).mul (F32.ofNat s.cfg.fs)
       let cap := F32.ofNat (s.cfg.maxDelayMs * s.cfg.fs / 1000)
       if n.isFinite = true ∧ F32.zero.le n = true then
         { s with delay := s.delay.set idx { d with
             beats := s.data.get s.port,
             sLen := { d.sLen with tgt := (if t.le cap then t else cap).toBits (s.nan .setting) } } }
       else s)

/-- Rule R192 with R191: DELAY.SETBPM. -/
def Obligations.DelaySetBpmRetargetsTheLength : Prop :=
  EncodedAs 0x31000000 .delaySetBpm ∧
  ∀ (s : State) (idx : Nat) (d : Delay), s.delay[idx]? = some d →
    exec (.delaySetBpm idx) s = .next
      (let b := F32.ofBits (s.data.get s.port)
       let t := (((F32.ofBits 0x42700000#32).mul (F32.ofBits d.beats)).div b).mul (F32.ofNat s.cfg.fs)
       let cap := F32.ofNat (s.cfg.maxDelayMs * s.cfg.fs / 1000)
       if b.isFinite = true ∧ F32.zero.lt b = true then
         { s with delay := s.delay.set idx { d with
             bpm := s.data.get s.port,
             sLen := { d.sLen with tgt := (if t.le cap then t else cap).toBits (s.nan .setting) } } }
       else s)

/-- Rule R194: DELAY.SETFB; 0x3F7D70A4 is DELAY_FB_MAX; -0.0 is stored as +0.0. -/
def Obligations.DelaySetFbStoresTheClampedFeedback : Prop :=
  EncodedAs 0x32000000 .delaySetFb ∧
  (∀ (s : State) (idx : Nat) (d : Delay), s.delay[idx]? = some d →
    exec (.delaySetFb idx) s = .next
      (if (F32.ofBits (s.data.get s.port)).isFinite then
        { s with delay := s.delay.set idx { d with
            fb := ((F32.ofBits (s.data.get s.port)).clamp (F32.ofBits 0x00000000#32)
              (F32.ofBits 0x3F7D70A4#32)).toBits (s.nan .setting) } }
      else s)) ∧
  ∀ n : Word, ((F32.ofBits 0x80000000#32).clamp (F32.ofBits 0x00000000#32)
    (F32.ofBits 0x3F7D70A4#32)).toBits n = 0x00000000#32

/-- Rule R196: DELAY.SETWET; 0x3F800000 is 1.0. -/
def Obligations.DelaySetWetStoresTheClampedTarget : Prop :=
  EncodedAs 0x33000000 .delaySetWet ∧
  ∀ (s : State) (idx : Nat) (d : Delay), s.delay[idx]? = some d →
    exec (.delaySetWet idx) s = .next
      (if (F32.ofBits (s.data.get s.port)).isFinite then
        { s with delay := s.delay.set idx { d with
            sWet := { d.sWet with tgt := ((F32.ofBits (s.data.get s.port)).clamp
              (F32.ofBits 0x00000000#32) (F32.ofBits 0x3F800000#32)).toBits (s.nan .setting) } } }
      else s)

/-- The delay-length target is never negative, never a NaN and never above the capacity, for the beats and
bpm a delay holds (R191). -/
def Obligations.DelayTargetStaysWithinTheLine : Prop :=
  ∀ (c : Params) (beats bpm : Word), c.legal = true →
    (F32.ofBits beats).isFinite = true → F32.zero.le (F32.ofBits beats) = true →
    (F32.ofBits bpm).isFinite = true → F32.zero.lt (F32.ofBits bpm) = true →
    F32.zero.le (delayTarget c (F32.ofBits beats) (F32.ofBits bpm)) = true ∧
    (delayTarget c (F32.ofBits beats) (F32.ofBits bpm)).le (F32.ofNat c.nDbuf) = true

/-- Rule R195: DELAY.PROCESS; 0x3F666666 is DRY_FLOOR.  Below one sample the input is returned unchanged and
only `sLen` has stepped.  That a NaN input is then returned as some NaN is the model's reading of R20, DEDUCED
(notes/assumptions/1.md). -/
def Obligations.DelayProcessEchoesOrPassesThrough : Prop :=
  EncodedAs 0x34000000 .delayProcess ∧
  (∀ x n : Word, F32.ofBits x ≠ .nan → (F32.ofBits x).toBits n = x) ∧
  ∀ (s : State) (idx : Nat) (d : Delay), s.delay[idx]? = some d →
    exec (.delayProcess idx) s = .next
      (let x := s.data.get s.port
       let len := d.sLen.step (s.nan .len)
       if F32.one.le (F32.ofBits len.1) = true then
         let raw := d.ring.tap s.cfg.nDbuf (min (F32.ofBits len.1).trunc s.cfg.nDbuf)
         let flt := if s.cfg.delayLpEnable then d.lp.step (s.nan .y) raw else (raw, d.lp)
         let wet := d.sWet.step (s.nan .wet)
         let dry := (F32.one.sub (F32.ofBits wet.1)).fmax (F32.ofBits 0x3F666666#32)
         { s with
           delay := s.delay.set idx { d with
             ring := d.ring.write s.cfg.nDbuf
               (((F32.ofBits x).add ((F32.ofBits flt.1).mul (F32.ofBits d.fb))).toBits (s.nan .line)),
             sLen := len.2, sWet := wet.2, lp := flt.2 },
           result := s.result.set s.port
             ((((F32.ofBits x).mul dry).add ((F32.ofBits flt.1).mul (F32.ofBits wet.1))).toBits
               (s.nan .result)) }
       else
         { s with delay := s.delay.set idx { d with sLen := len.2 },
                  result := s.result.set s.port ((F32.ofBits x).toBits (s.nan .result)) })

/-! ### LADDER -/

/-- Rule R211: LADDER.SETCUTOFF. -/
def Obligations.LadderSetCutoffStoresTheClampedTarget : Prop :=
  EncodedAs 0x40000000 .ladderSetCutoff ∧
  ∀ (s : State) (idx : Nat) (l : Ladder), s.ladder[idx]? = some l →
    exec (.ladderSetCutoff idx) s = .next
      (if (F32.ofBits (s.data.get s.port)).isFinite then
        { s with ladder := s.ladder.set idx { l with
            sFc := { l.sFc with tgt := (((F32.ofBits (s.data.get s.port)).clamp
              (F32.ofBits s.cfg.ladderFcMin)
              ((F32.ofNat s.cfg.fs).mul (F32.ofBits s.cfg.ladderFcMaxRatio))).toBits
                (s.nan .setting)) } } }
      else s)

/-- Rule R212: LADDER.SETRES. -/
def Obligations.LadderSetResStoresTheClampedTarget : Prop :=
  EncodedAs 0x41000000 .ladderSetRes ∧
  ∀ (s : State) (idx : Nat) (l : Ladder), s.ladder[idx]? = some l →
    exec (.ladderSetRes idx) s = .next
      (if (F32.ofBits (s.data.get s.port)).isFinite then
        { s with ladder := s.ladder.set idx { l with
            sRes := { l.sRes with tgt := ((F32.ofBits (s.data.get s.port)).clamp F32.zero
              (F32.ofBits s.cfg.ladderResMax)).toBits (s.nan .setting) } } }
      else s)

/-- Rule R213: LADDER.SETMODE. -/
def Obligations.LadderSetModeSelectsOneOfTwo : Prop :=
  EncodedAs 0x42000000 .ladderSetMode ∧
  ∀ (s : State) (idx : Nat) (l : Ladder), s.ladder[idx]? = some l →
    exec (.ladderSetMode idx) s = .next
      (if s.data.get s.port = 0#32 then
        { s with ladder := s.ladder.set idx { l with mode := .lowpass } }
      else if s.data.get s.port = 1#32 then
        { s with ladder := s.ladder.set idx { l with mode := .highpass } }
      else s)

/-- Rules R210, R214, R215 and R216: LADDER.PROCESS.  The encodings are those of 2.0, 3.6, 1.6, 1.0, 0.5,
LADDER_SCALE_K, LADDER_R_MAX and LADDER_COMP_K. -/
def Obligations.LadderProcessRunsFourFlushedStages : Prop :=
  EncodedAs 0x43000000 .ladderProcess ∧
  ∀ (s : State) (idx : Nat) (l : Ladder), s.ladder[idx]? = some l →
    exec (.ladderProcess idx) s = .next
      (let x := F32.ofBits (s.data.get s.port)
       let fcStep := l.sFc.step (s.nan .cur)
       let resStep := l.sRes.step (s.nan .res)
       let fc := F32.ofBits fcStep.1
       let res := F32.ofBits resStep.1
       let one := F32.ofBits 0x3F800000#32
       let half := F32.ofBits 0x3F000000#32
       let f := ((F32.ofBits 0x40000000#32).mul fc).div (F32.ofNat s.cfg.fs)
       let k := (((F32.ofBits 0x40666666#32).mul f).sub
         (((F32.ofBits 0x3FCCCCCD#32).mul f).mul f)).sub one
       let p := (k.add one).mul half
       let scale := ((one.sub p).mul (F32.ofBits 0x3FB1709B#32)).exp
       let r := (res.mul scale).fmin (F32.ofBits 0x407F5C29#32)
       let stage := fun (u : F32) (y o : Word) =>
         ((u.sat.mul p).add ((F32.ofBits o).mul p)).sub (k.mul (F32.ofBits y))
       let u := x.sub (r.mul (F32.ofBits l.y4))
       let v1 := stage u l.y1 l.o1
       let v2 := stage v1 l.y2 l.o2
       let v3 := stage v2 l.y3 l.o3
       let v4 := stage v3 l.y4 l.o4
       let lp := v4.mul (one.add (res.mul half))
       let out := if l.mode = .lowpass then lp else x.sub lp
       { s with
         ladder := s.ladder.set idx
           { sFc := fcStep.2, sRes := resStep.2, mode := l.mode,
             y1 := v1.flush.toBits (s.nan .y1), o1 := u.sat.flush.toBits (s.nan .o1),
             y2 := v2.flush.toBits (s.nan .y2), o2 := v1.sat.flush.toBits (s.nan .o2),
             y3 := v3.flush.toBits (s.nan .y3), o3 := v2.sat.flush.toBits (s.nan .o3),
             y4 := v4.flush.toBits (s.nan .y4), o4 := v3.sat.flush.toBits (s.nan .o4) },
         result := s.result.set s.port (out.toBits (s.nan .result)) })

/-- `r ≤ 3.99` at every sample (R217 item 1).  With a resonance of +0.0 or -0.0, `r` is a zero where `EXP`
gives a finite scale (item 2), and the cap where `EXP` gives an infinity or a NaN, which the named properties
of R9 leave possible (notes/assumptions/5.md). -/
def Obligations.LadderFeedbackIsCapped : Prop :=
  (∀ fsF fc res : F32, (ladderR fsF fc res).le (F32.ofBits 0x407F5C29#32) = true) ∧
  ∀ fsF fc res : F32, res.eq F32.zero = true →
    if (ladderScale fsF fc).isFinite = true then (ladderR fsF fc res).eq F32.zero = true
    else ladderR fsF fc res = F32.ofBits 0x407F5C29#32

/-! ### BIQUAD -/

/-- Rules R231, R232 and R233: the BIQUAD setters clamp or select, recompute the coefficients by R230, and
keep the history. -/
def Obligations.BiquadSettersRecomputeTheCoefficients : Prop :=
  EncodedAs 0x50000000 .biquadSetCutoff ∧ EncodedAs 0x51000000 .biquadSetQ ∧
  EncodedAs 0x52000000 .biquadSetMode ∧
  ∀ (s : State) (idx : Nat) (c : Biquad), s.biquad[idx]? = some c →
    let x := F32.ofBits (s.data.get s.port)
    let fc := (x.clamp (F32.ofBits s.cfg.bqFcMin)
      ((F32.ofNat s.cfg.fs).mul (F32.ofBits s.cfg.bqFcMaxRatio))).toBits (s.nan .setting)
    let q := (x.clamp (F32.ofBits s.cfg.bqQMin) (F32.ofBits s.cfg.bqQMax)).toBits (s.nan .setting)
    let set := fun (fc q : Word) (mode : FilterMode) =>
      let k := biquadCoeffs (F32.ofNat s.cfg.fs) s.nan (F32.ofBits fc) (F32.ofBits q) mode
      { s with biquad := (s.biquad.set idx
          { fc := fc, q := q, mode := mode, b0 := k.b0, b1 := k.b1, b2 := k.b2, a1 := k.a1, a2 := k.a2,
            x1 := c.x1, x2 := c.x2, y1 := c.y1, y2 := c.y2 }) }
    exec (.biquadSetCutoff idx) s = .next (if x.isFinite then set fc c.q c.mode else s) ∧
    exec (.biquadSetQ idx) s = .next (if x.isFinite then set c.fc q c.mode else s) ∧
    exec (.biquadSetMode idx) s = .next
      (if s.data.get s.port = 0#32 then set c.fc c.q .lowpass
       else if s.data.get s.port = 1#32 then set c.fc c.q .highpass else s)

/-- Rule R230: the coefficient formulas, lowpass and highpass, normalised by a0. -/
def Obligations.BiquadCoefficientsFollowTheirFormulas : Prop :=
  ∀ (fsF : F32) (nan : Site → Word) (fc q : F32) (mode : FilterMode),
    let one := F32.ofBits 0x3F800000#32
    let two := F32.ofBits 0x40000000#32
    let w := ((F32.ofBits 0x40C90FDB#32).mul fc).div fsF
    let alpha := w.sin.div (two.mul q)
    let a0 := one.add alpha
    let b0 := if mode = .lowpass then ((one.sub w.cos).div two).div a0
      else ((one.add w.cos).div two).div a0
    let b1 := if mode = .lowpass then (one.sub w.cos).div a0 else (one.add w.cos).neg.div a0
    biquadCoeffs fsF nan fc q mode =
      { b0 := b0.toBits (nan .b0), b1 := b1.toBits (nan .b1), b2 := b0.toBits (nan .b0),
        a1 := (((F32.ofBits 0xC0000000#32).mul w.cos).div a0).toBits (nan .a1),
        a2 := ((one.sub alpha).div a0).toBits (nan .a2) }

/-- Rules R234 and R235: BIQUAD.PROCESS is one direct-form-one step. -/
def Obligations.BiquadProcessIsOneDirectFormStep : Prop :=
  EncodedAs 0x53000000 .biquadProcess ∧
  ∀ (s : State) (idx : Nat) (c : Biquad), s.biquad[idx]? = some c →
    exec (.biquadProcess idx) s = .next
      (let x := s.data.get s.port
       let y := ((((((F32.ofBits c.b0).mul (F32.ofBits x)).add
         ((F32.ofBits c.b1).mul (F32.ofBits c.x1))).add
         ((F32.ofBits c.b2).mul (F32.ofBits c.x2))).sub
         ((F32.ofBits c.a1).mul (F32.ofBits c.y1))).sub
         ((F32.ofBits c.a2).mul (F32.ofBits c.y2))).toBits (s.nan .y)
       { s with biquad := s.biquad.set idx { c with x2 := c.x1, x1 := x, y2 := c.y1, y1 := y },
                result := s.result.set s.port y })

/-! ### REVERB -/

/-- Rule R252: REVERB.SETRT60; 0xC0400000 is -3.0.  Each comb's feedback is at most REVERB_FB_MAX. -/
def Obligations.ReverbSetRt60SetsFourCappedFeedbacks : Prop :=
  EncodedAs 0x60000000 .reverbSetRt60 ∧
  (∀ (s : State) (idx : Nat) (rv : Reverb), s.reverb[idx]? = some rv →
    exec (.reverbSetRt60 idx) s = .next
      (let t := F32.ofBits (s.data.get s.port)
       let e := ((F32.ofBits 0xC0400000#32).div (F32.ofNat s.cfg.fs)).div t
       let fb := fun k : Fin 4 => ((e.mul (F32.ofNat (s.cfg.combLen.get k))).pow10.fmin
         (F32.ofBits s.cfg.reverbFbMax)).toBits (s.nan (.combFb k))
       if t.isFinite = true ∧ F32.zero.lt t = true then
         { s with reverb := s.reverb.set idx { rv with fbc := ⟨fb 0, fb 1, fb 2, fb 3⟩ } }
       else s)) ∧
  ∀ (c : Params) (t : F32) (n : Nat), c.legal = true →
    (rt60Feedback c t n).le (F32.ofBits c.reverbFbMax) = true

/-- Rules R250, R251 and R253: REVERB.PROCESS runs four combs on the input, averages them (0x3E800000 is
0.25), and runs the four all-passes in series. -/
def Obligations.ReverbProcessRunsCombsThenAllpasses : Prop :=
  EncodedAs 0x61000000 .reverbProcess ∧
  (∀ (n : Word) (len : Nat) (fb x : F32) (r : Ring), combStep n len fb r x =
    (F32.ofBits (r.tap len len), r.write len ((x.add (fb.mul (F32.ofBits (r.tap len len)))).toBits n))) ∧
  (∀ (n : Word) (len : Nat) (fb v : F32) (r : Ring), allpassStep n len fb r v =
    ((F32.ofBits (r.tap len len)).sub (fb.mul v),
      r.write len ((v.add (fb.mul ((F32.ofBits (r.tap len len)).sub (fb.mul v)))).toBits n))) ∧
  ∀ (s : State) (idx : Nat) (rv : Reverb), s.reverb[idx]? = some rv →
    exec (.reverbProcess idx) s = .next
      (let x := F32.ofBits (s.data.get s.port)
       let comb := fun k : Fin 4 => combStep (s.nan (.comb k)) (s.cfg.combLen.get k)
         (F32.ofBits (rv.fbc.get k)) (rv.comb.get k) x
       let ap := fun (k : Fin 4) (v : F32) => allpassStep (s.nan (.allpass k)) (s.cfg.apLen.get k)
         (F32.ofBits s.cfg.apFb) (rv.ap.get k) v
       let v := ((((comb 0).1.add (comb 1).1).add (comb 2).1).add (comb 3).1).mul
         (F32.ofBits 0x3E800000#32)
       let a0 := ap 0 v
       let a1 := ap 1 a0.1
       let a2 := ap 2 a1.1
       let a3 := ap 3 a2.1
       { s with
         reverb := s.reverb.set idx { rv with
           comb := ⟨(comb 0).2, (comb 1).2, (comb 2).2, (comb 3).2⟩,
           ap := ⟨a0.2, a1.2, a2.2, a3.2⟩ },
         result := s.result.set s.port (a3.1.toBits (s.nan .result)) })

/-- The impulse response of one comb (R254 item 1): +0.0 except at the positive multiples of its delay,
where it is the feedback's power formed by repeated f32 products. -/
def Obligations.CombImpulseResponseIsGeometric : Prop :=
  ∀ (nan : Nat → Word) (d m t : Nat) (w : Word), 1 ≤ d → d ≤ 2 ^ 24 → F32.ofBits w = .fin false m →
    (F32.ofBits w).lt F32.one = true →
    combOutput nan d (F32.ofBits w) t =
      if t ≠ 0 ∧ t % d = 0 then f32Power (F32.ofBits w) (t / d - 1) else F32.zero

/-! ### The ring buffer and the number format -/

/-- Rules R72 and R73: what a tap reads, and what a write changes; an element not written since reset holds
+0.0. -/
def Obligations.RingTapAndWriteFollowTheirRules : Prop :=
  ∀ (r : Ring) (n : Nat) (v : Word), Ring.Ok n r → n ≤ 2 ^ 24 →
    (∀ d, 1 ≤ d → d ≤ n →
      r.tap n d = Memory.read r.storage ((r.cursor.toNat + n - d) % n)) ∧
    Memory.read (r.write n v).storage r.cursor.toNat = v ∧
    (∀ a, a ≠ r.cursor.toNat → Memory.read (r.write n v).storage a = Memory.read r.storage a) ∧
    (r.write n v).cursor.toNat = (r.cursor.toNat + 1) % n ∧
    ∀ a, Memory.read Ring.zeroed.storage a = 0x00000000#32

/-- A tap at delay d returns the sample written d writes ago, or +0.0 where there is none (R74). -/
def Obligations.ATapAtDelayDReturnsTheDthLastWrite : Prop :=
  ∀ (n d : Nat) (ws : List Word), n ≤ 2 ^ 24 → 1 ≤ d → d ≤ n →
    (lineAfter n ws).tap n d = if d ≤ ws.length then ws.getD (ws.length - d) 0#32 else 0#32

/-- The arithmetic of R14, with magnitudes counted in units of 2^-149.  Rounding gives a representable
magnitude nearest to the exact one, ties to the even significand, and an infinity from 2^128 on.  On finite
operands each operation is one such rounding of the exact result; an exact sum of 0 is -0.0 only where both
terms are -0.0, and a product or a quotient has the sign of its operands' signs.  Then the infinities, the
NaNs, the flipped sign bit, and `u2f` of every u32 as the nearest value (R17). -/
def Obligations.RoundingIsToNearestTiesToEven : Prop :=
  (F32.one149 = 2 ^ 149 ∧ F32.overflow = 2 ^ 128 * 2 ^ 149) ∧
  (∀ (n d m : Nat) (w : Word), 0 < d → F32.ofBits w = .fin false m →
    |(n : Int) - d * F32.roundMag n d| ≤ |(n : Int) - d * m| ∧
    (|(n : Int) - d * F32.roundMag n d| = |(n : Int) - d * m| → m ≠ F32.roundMag n d →
      F32.magBits (F32.roundMag n d) % 2 = 0)) ∧
  (∀ n d : Nat, 0 < d →
    (∃ w : Word, F32.ofBits w = .fin false (F32.roundMag n d)) ∨ F32.overflow ≤ F32.roundMag n d) ∧
  (∀ (neg : Bool) (n d : Nat), F32.round neg n d =
    if F32.overflow ≤ F32.roundMag n d then .inf neg else .fin neg (F32.roundMag n d)) ∧
  (∀ (s t : Bool) (m n : Nat),
    (F32.fin s m).add (.fin t n) = roundedSum (s && t) (signedUnits s m + signedUnits t n) ∧
    (F32.fin s m).sub (.fin t n) = roundedSum (s && !t) (signedUnits s m - signedUnits t n) ∧
    (F32.fin s m).mul (.fin t n) = F32.round (s ^^ t) (m * n) F32.one149 ∧
    (F32.fin s m).div (.fin t n) =
      (if n ≠ 0 then F32.round (s ^^ t) (m * F32.one149) n
       else if m ≠ 0 then .inf (s ^^ t) else .nan) ∧
    (F32.fin s m).neg = .fin (!s) m) ∧
  (∀ (s t : Bool) (m : Nat),
    (F32.inf s).add (.inf t) = (if s = t then .inf s else .nan) ∧
    (F32.inf s).sub (.inf t) = (if s = t then .nan else .inf s) ∧
    (F32.inf s).add (.fin t m) = .inf s ∧ (F32.fin t m).add (.inf s) = .inf s ∧
    (F32.inf s).sub (.fin t m) = .inf s ∧ (F32.fin t m).sub (.inf s) = .inf (!s) ∧
    (F32.inf s).mul (.inf t) = .inf (s ^^ t) ∧
    (F32.inf s).mul (.fin t m) = (if m = 0 then .nan else .inf (s ^^ t)) ∧
    (F32.fin t m).mul (.inf s) = (if m = 0 then .nan else .inf (s ^^ t)) ∧
    (F32.inf s).div (.inf t) = .nan ∧ (F32.inf s).div (.fin t m) = .inf (s ^^ t) ∧
    (F32.fin t m).div (.inf s) = .fin (s ^^ t) 0 ∧ (F32.inf s).neg = .inf (!s)) ∧
  (∀ x : F32, F32.nan.add x = .nan ∧ x.add .nan = .nan ∧ F32.nan.sub x = .nan ∧ x.sub .nan = .nan ∧
    F32.nan.mul x = .nan ∧ x.mul .nan = .nan ∧ F32.nan.div x = .nan ∧ x.div .nan = .nan ∧
    F32.nan.neg = .nan) ∧
  (∀ n w : Word, F32.ofBits w ≠ .nan → (F32.ofBits w).neg.toBits n = w ^^^ 0x80000000#32) ∧
  ∀ n : Nat, n < 2 ^ 32 → F32.ofNat n = .fin false (F32.roundMag (n * F32.one149) 1)

/-- The named properties of the configuration functions (R9), for every raw function. -/
def Obligations.ConfigurationFunctionsHaveTheirNamedProperties : Prop :=
  F32.sin F32.zero = F32.zero ∧ F32.cos F32.zero = F32.one ∧ F32.sat F32.zero = F32.zero ∧
  (∀ x : F32, x.neg.sat = x.sat.neg) ∧
  ∀ x : F32, x.isFinite = true →
    (F32.one.neg.le x.sin = true ∧ x.sin.le F32.one = true) ∧
    (F32.one.neg.le x.cos = true ∧ x.cos.le F32.one = true) ∧
    F32.zero.lt x.exp = true ∧
    (x.le F32.zero = true → F32.zero.le x.pow10 = true ∧ x.pow10.le F32.one = true) ∧
    (F32.one.neg.le x.sat = true ∧ x.sat.le F32.one = true)

/-- Rule R18: comparisons, minimum, maximum, clamp and isfinite; and R17's exact conversions. -/
def Obligations.ComparisonsAndConversionsFollowTheirRules : Prop :=
  (∀ a b : F32, a = .nan ∨ b = .nan → a.lt b = false ∧ a.le b = false ∧ a.eq b = false) ∧
  (∀ (s t : Bool) (m n : Nat),
    let v := fun (neg : Bool) (k : Nat) => if neg then -(k : Int) else (k : Int)
    (F32.fin s m).lt (.fin t n) = decide (v s m < v t n) ∧
    (F32.fin s m).le (.fin t n) = decide (v s m ≤ v t n) ∧
    (F32.fin s m).eq (.fin t n) = decide (v s m = v t n)) ∧
  (∀ w : Word, (F32.ofBits w).isFinite = true →
    (F32.inf true).lt (F32.ofBits w) = true ∧ (F32.ofBits w).lt (.inf false) = true ∧
    (F32.inf true).le (F32.ofBits w) = true ∧ (F32.ofBits w).le (.inf false) = true ∧
    (F32.inf true).eq (F32.ofBits w) = false ∧ (F32.inf false).eq (F32.ofBits w) = false) ∧
  (∀ s : Bool, (F32.inf s).lt (.inf s) = false ∧ (F32.inf s).le (.inf s) = true ∧
    (F32.inf s).eq (.inf s) = true ∧ (F32.inf s).eq (.inf (!s)) = false) ∧
  (F32.inf true).lt (.inf false) = true ∧ (F32.inf false).lt (.inf true) = false ∧
  (F32.ofBits 0x00000000#32).eq (F32.ofBits 0x80000000#32) = true ∧
  (∀ a b : F32, a.fmin b = (if a.lt b then a else b) ∧ a.fmax b = (if b.lt a then a else b)) ∧
  (∀ v lo hi : F32, v.clamp lo hi = (v.fmax lo).fmin hi) ∧
  (∀ x : F32, x.isFinite = true ↔ x ≠ .nan ∧ x ≠ .inf false ∧ x ≠ .inf true) ∧
  (∀ n : Nat, n ≤ 2 ^ 24 → F32.ofNat n = .fin false (n * F32.one149)) ∧
  ∀ m : Nat, m < 2 ^ 32 * F32.one149 → (F32.fin false m).trunc = m / F32.one149

/-- Rule R19: a value is subnormal when it is not 0 and its magnitude is below 2^-126, which is the smallest
normal's 2^23 units, and `flush` replaces it by +0.0. -/
def Obligations.FlushReplacesExactlyTheSubnormals : Prop :=
  (∀ (s : Bool) (m : Nat), (F32.fin s m).isSubnormal = true ↔ m ≠ 0 ∧ m < 2 ^ 23) ∧
  (∀ x : F32, x.isFinite = false → x.isSubnormal = false) ∧
  (∀ w : Word, (F32.ofBits w).isSubnormal = true ↔
    w.toNat / 2 ^ 23 % 2 ^ 8 = 0 ∧ w.toNat % 2 ^ 23 ≠ 0) ∧
  ∀ x : F32, x.flush = if x.isSubnormal then F32.ofBits 0x00000000#32 else x

/-! ### The register window -/

/-- Rules R82, R83 and R86, and the reads of R80: what a 32-bit read of each register returns, lowest byte
first, and that a read changes only the reply of its agent. -/
def Obligations.WindowReadsReturnTheRegisters : Prop :=
  (∀ w : Word, bytesOf w = [BitVec.ofNat 8 w.toNat, BitVec.ofNat 8 (w.toNat / 2 ^ 8),
    BitVec.ofNat 8 (w.toNat / 2 ^ 16), BitVec.ofNat 8 (w.toNat / 2 ^ 24)]) ∧
  (∀ w : Word, wordOf (bytesOf w) = some w) ∧
  (∀ s : State,
    s.readWindow 0x00 4 = bytesOf s.data.ctrl ∧ s.readWindow 0x04 4 = bytesOf 0#32 ∧
    s.readWindow 0x08 4 = bytesOf s.result.ctrl ∧ s.readWindow 0x0C 4 = bytesOf (s.status &&& 1#32) ∧
    s.readWindow 0x10 4 = bytesOf s.data.audio ∧ s.readWindow 0x14 4 = bytesOf 0#32 ∧
    s.readWindow 0x18 4 = bytesOf s.result.audio ∧ s.readWindow 0x1C 4 = bytesOf (s.status &&& 1#32)) ∧
  ∀ (s : State) (off width : Nat), off < 32 →
    s.busRead (s.cfg.mmioBase + off) width =
      { s with reply := s.reply.set s.port (s.readWindow off width) }

/-- Rules R81, R82 and R84, and the writes of R80: a 32-bit write to CMD is the transaction with the word in
DATA, one to DATA stores the word, one to RESULT is ignored, and one to STATUS clears ILL where its bit 0 is
1. -/
def Obligations.WindowWritesDoWhatTheirRegistersSay : Prop :=
  ∀ (s : State) (w : Word),
    busWrite (s.cfg.mmioBase + 0x00) (bytesOf w) s = .next { s with data := ⟨w, s.data.audio⟩ } ∧
    busWrite (s.cfg.mmioBase + 0x10) (bytesOf w) s = .next { s with data := ⟨s.data.ctrl, w⟩ } ∧
    busWrite (s.cfg.mmioBase + 0x04) (bytesOf w) s = transact .ctrl w s.data.ctrl s ∧
    busWrite (s.cfg.mmioBase + 0x14) (bytesOf w) s = transact .audio w s.data.audio s ∧
    busWrite (s.cfg.mmioBase + 0x08) (bytesOf w) s = .next s ∧
    busWrite (s.cfg.mmioBase + 0x18) (bytesOf w) s = .next s ∧
    (∀ off, off = 0x0C ∨ off = 0x1C →
      busWrite (s.cfg.mmioBase + off) (bytesOf w) s = .next
        (if w.toNat % 2 = 1 then { s with status := s.status &&& 0xFFFFFFFE#32 } else s))

/-- Rule R85: an access of another width, or at an offset that is not a multiple of 4, is ignored, and reads
as 0. -/
def Obligations.WindowIgnoresNarrowAndMisalignedAccesses : Prop :=
  (∀ (s : State) (off : Nat) (bytes : List Byte), off < 32 → (bytes.length ≠ 4 ∨ off % 4 ≠ 0) →
    busWrite (s.cfg.mmioBase + off) bytes s = .next s) ∧
  ∀ (s : State) (off width : Nat), off < 32 → (width ≠ 4 ∨ off % 4 ≠ 0) →
    s.busRead (s.cfg.mmioBase + off) width =
      { s with reply := s.reply.set s.port (List.replicate width 0#8) }

/-! ### Whole-machine rules -/

/-- Every command is accepted on both ports, and the port changes only which DATA and RESULT it uses (R32):
run on either port it leaves every unit and STATUS the same, and a value-producing command returns the same
word; it leaves the other port's DATA and RESULT, and RESULT altogether where it produces no value.  SYS.RESET
alone writes both ports' registers, and the same on either. -/
def Obligations.ThePortChangesOnlyDataAndResult : Prop :=
  ∀ (i : Instr) (s : State) (v : Word), ∃ a b : State,
    exec i { s with port := .ctrl, data := s.data.set .ctrl v } = .next a ∧
    exec i { s with port := .audio, data := s.data.set .audio v } = .next b ∧
    State.SameUnits a b ∧ a.status = b.status ∧
    (i.producesValue = true → a.result.ctrl = b.result.audio) ∧
    (if i = .sysReset then a.data = b.data ∧ a.result = b.result
     else
      a.data = ⟨v, s.data.audio⟩ ∧ b.data = ⟨s.data.ctrl, v⟩ ∧
      a.result.audio = s.result.audio ∧ b.result.ctrl = s.result.ctrl ∧
      (i.producesValue = false → a.result = s.result ∧ b.result = s.result))

/-- Only the commands R45 lists write a field of a unit, and only the field of their own instance; SYS.RESET
writes them all. -/
def Obligations.OnlyTheListedCommandsWriteAField : Prop :=
  ∀ (i : Instr) (s t : State), exec i s = .next t → i ≠ .sysReset →
    (∀ j u u', s.smooth[j]? = some u → t.smooth[j]? = some u' → SmoothWritten i j u u') ∧
    (∀ j u u', s.osc[j]? = some u → t.osc[j]? = some u' → OscWritten i j u u') ∧
    (∀ j u u', s.delay[j]? = some u → t.delay[j]? = some u' → DelayWritten i j u u') ∧
    (∀ j u u', s.ladder[j]? = some u → t.ladder[j]? = some u' → LadderWritten i j u u') ∧
    (∀ j u u', s.biquad[j]? = some u → t.biquad[j]? = some u' → BiquadWritten i j u u') ∧
    (∀ j u u', s.reverb[j]? = some u → t.reverb[j]? = some u' → ReverbWritten i j u u') ∧
    (t.status ≠ s.status → i = .sysClrstat)

/-- A command leaves DATA, the other port's RESULT, and, unless it produces a value, its own port's RESULT
(R107, R305); SYS.RESET clears them all. -/
def Obligations.OnlyValueCommandsWriteTheirOwnResult : Prop :=
  ∀ (i : Instr) (s t : State), exec i s = .next t → i ≠ .sysReset →
    t.data = s.data ∧ (∀ q, q ≠ s.port → t.result.get q = s.result.get q) ∧
    (i.producesValue = false → t.result = s.result)

/-! ### Invariants -/

/-- Every step keeps the number of instances of every unit and the block's parameters (R6). -/
def Obligations.StepKeepsTheShapeAndTheParameters : Prop :=
  ∀ s t : State, s.Shaped → step s = .next t → t.Shaped ∧ t.cfg = s.cfg

/-- Every step keeps every delay line's elements and cursor in range (R71), and its list of elements in the
canonical form, which is the model's own DESIGN CHOICE of storage (notes/assumptions/10.md). -/
def Obligations.StepKeepsTheDelayLines : Prop :=
  ∀ s t : State, s.LinesOk → step s = .next t → t.LinesOk

/-- Every step keeps `phase < cyc`, or `cyc = 0` and `phase = 0`, in every oscillator (R37). -/
def Obligations.StepKeepsThePhases : Prop :=
  ∀ s t : State, s.PhasesOk → step s = .next t → t.PhasesOk

/-- Every step keeps the coefficients of every biquad core what R230 computes from its cutoff, Q and mode,
up to the encoding of a NaN (R38, R20). -/
def Obligations.StepKeepsTheBiquadsCoherent : Prop :=
  ∀ s t : State, s.CoresCoherent → step s = .next t → t.CoresCoherent

/-- Every step keeps every smoothing coefficient in [0, 1) (R34) and the ones inside LADDER and DELAY at
their parameters (R45), and every ladder free of subnormal stage values (R216, R217). -/
def Obligations.StepKeepsCoefficientsAndFlushedLadders : Prop :=
  (∀ s t : State, s.CoeffsOk → step s = .next t → t.CoeffsOk) ∧
  ∀ s t : State, s.LaddersFlushed → step s = .next t → t.LaddersFlushed

/-- Every step keeps every duty in its range (R36), every delay's settings in theirs (R41, R191), and bits
31:1 of STATUS at 0 (R33). -/
def Obligations.StepKeepsTheSettingRangesAndStatus : Prop :=
  (∀ s t : State, s.DutiesOk → step s = .next t → t.DutiesOk) ∧
  (∀ s t : State, s.DelaySettingsOk → step s = .next t → t.DelaySettingsOk) ∧
  ∀ s t : State, s.StatusOk → step s = .next t → t.StatusOk

/-- The reset state of every legal block meets every invariant, and the model's reset block is legal (the
reference parameters, a DESIGN CHOICE: notes/assumptions/3.md). -/
def Obligations.ResetMeetsEveryInvariant : Prop :=
  State.reset.cfg.legal = true ∧
  ∀ c : Params, c.legal = true → let s := State.resetOf c
    s.Shaped ∧ s.LinesOk ∧ s.PhasesOk ∧ s.DutiesOk ∧ s.CoresCoherent ∧ s.CoeffsOk ∧ s.LaddersFlushed ∧
    s.DelaySettingsOk ∧ s.StatusOk
end

