-- ==== Sys2Proof/Laws/Float.lean ====
section
/-! SUPPORT. Binary32 lemmas: the parts of an encoding, decoding after encoding, and that every operation's
result is a representable datum, so that storing it and reading it back loses nothing. -/

namespace Sys2Proof

theorem F32.expOf_lt (w : Word) : F32.expOf w < 256 := Nat.mod_lt _ (by decide)

theorem F32.fracOf_lt (w : Word) : F32.fracOf w < 2 ^ 23 := Nat.mod_lt _ (by decide)

/-- An encoding is its sign, exponent and fraction. -/
theorem F32.toNat_eq_parts (w : Word) :
    w.toNat = (if F32.signOf w then 2 ^ 31 else 0) + F32.expOf w * 2 ^ 23 + F32.fracOf w := by
  have h := w.isLt
  unfold F32.signOf F32.expOf F32.fracOf
  simp only [decide_eq_true_eq]
  split <;> omega

theorem F32.pack_toNat (s : Bool) (low : Nat) (h : low < 2 ^ 31) :
    (F32.pack s low).toNat = (if s then 2 ^ 31 else 0) + low := by
  unfold F32.pack
  rw [BitVec.toNat_ofNat]
  split <;> omega

theorem F32.signOf_pack (s : Bool) (low : Nat) (h : low < 2 ^ 31) : F32.signOf (F32.pack s low) = s := by
  unfold F32.signOf
  rw [F32.pack_toNat s low h]
  cases s
  · simpa using h
  · simp

theorem F32.expOf_pack (s : Bool) (low : Nat) (h : low < 2 ^ 31) :
    F32.expOf (F32.pack s low) = low / 2 ^ 23 := by
  unfold F32.expOf
  rw [F32.pack_toNat s low h]
  split <;> omega

theorem F32.fracOf_pack (s : Bool) (low : Nat) (h : low < 2 ^ 31) :
    F32.fracOf (F32.pack s low) = low % 2 ^ 23 := by
  unfold F32.fracOf
  rw [F32.pack_toNat s low h]
  split <;> omega

/-- The rounding step of a magnitude already on its grid is the grid's. -/
theorem F32.log2_mul_pow (k e : Nat) (hk : k < 2 ^ 24) (he : e = 0 ∨ 2 ^ 23 ≤ k) :
    (k * 2 ^ e).log2 - 23 = e := by
  rcases Nat.eq_zero_or_pos k with h0 | hpos
  · subst h0
    rcases he with he | he
    · subst he; rfl
    · omega
  · have hne : k * 2 ^ e ≠ 0 := by positivity
    have h1 : k.log2 < 24 := (Nat.log2_lt (by omega)).2 hk
    have h2 : (k * 2 ^ e).log2 = k.log2 + e := by
      apply Nat.le_antisymm
      · have : (k * 2 ^ e).log2 < k.log2 + 1 + e := by
          rw [Nat.log2_lt hne, pow_add]
          exact Nat.mul_lt_mul_of_pos_right ((Nat.log2_lt (by omega)).1 (Nat.lt_succ_self _)) (by positivity)
        omega
      · rw [Nat.le_log2 hne, pow_add]
        exact Nat.mul_le_mul_right _ (Nat.log2_self_le (by omega))
    rcases he with he | he
    · omega
    · have : 23 ≤ k.log2 := (Nat.le_log2 (by omega)).2 he
      omega

/-- The magnitude bits of a significand `k` at an exponent step `e`. -/
theorem F32.magBits_mul (k e : Nat) (hk : k < 2 ^ 24) (he : e = 0 ∨ 2 ^ 23 ≤ k) :
    F32.magBits (k * 2 ^ e) = e * 2 ^ 23 + k := by
  unfold F32.magBits
  rw [F32.log2_mul_pow k e hk he, Nat.mul_div_cancel _ (by positivity)]

/-- The datum of a sign over magnitude bits below the infinity's. -/
theorem F32.ofBits_pack_mag (s : Bool) (k e : Nat) (hk : k < 2 ^ 24) (he : e = 0 ∨ 2 ^ 23 ≤ k)
    (hmax : e ≤ 253) : F32.ofBits (F32.pack s (e * 2 ^ 23 + k)) = .fin s (k * 2 ^ e) := by
  have hlow : e * 2 ^ 23 + k < 2 ^ 31 := by omega
  unfold F32.ofBits
  rw [F32.expOf_pack s _ hlow, F32.fracOf_pack s _ hlow, F32.signOf_pack s _ hlow]
  by_cases hsub : k < 2 ^ 23
  · have he0 : e = 0 := by omega
    subst he0
    have h1 : (0 * 2 ^ 23 + k) / 2 ^ 23 = 0 := by omega
    have h2 : (0 * 2 ^ 23 + k) % 2 ^ 23 = k := by omega
    rw [h1, h2]
    simp
  · have h1 : (e * 2 ^ 23 + k) / 2 ^ 23 = e + 1 := by omega
    have h2 : (e * 2 ^ 23 + k) % 2 ^ 23 = k - 2 ^ 23 := by omega
    rw [h1, h2, if_neg (by omega), if_neg (by omega)]
    have h3 : 2 ^ 23 + (k - 2 ^ 23) = k := by omega
    have h4 : e + 1 - 1 = e := by omega
    rw [h3, h4]

/-- A word that is a NaN encoding. -/
def F32.IsNanWord (w : Word) : Prop := F32.ofBits w = .nan

/-- Every drawn NaN encoding is a NaN (R20). -/
theorem F32.isNanWord_nanWord (p : BitVec 24) : F32.IsNanWord (F32.nanWord p) := by
  unfold F32.IsNanWord F32.nanWord F32.ofBits
  have hf : p.toNat % 2 ^ 23 < 2 ^ 23 := Nat.mod_lt _ (by decide)
  have hlow : 255 * 2 ^ 23 + (if p.toNat % 2 ^ 23 = 0 then 1 else p.toNat % 2 ^ 23) < 2 ^ 31 := by
    split <;> omega
  simp only [F32.expOf_pack _ _ hlow, F32.fracOf_pack _ _ hlow]
  rw [if_pos (by split <;> omega), if_neg (by split <;> omega)]

/-- A datum that some encoding stands for: storing it and reading it back gives it again, whatever NaN
is drawn. -/
def F32.Representable (x : F32) : Prop := ∀ n : Word, F32.IsNanWord n → F32.ofBits (x.toBits n) = x

theorem F32.representable_nan : F32.Representable .nan := fun _ h => h

theorem F32.representable_inf (s : Bool) : F32.Representable (.inf s) := by
  intro n _
  show F32.ofBits (F32.pack s (255 * 2 ^ 23)) = _
  cases s <;> decide

theorem F32.representable_fin (s : Bool) (k e : Nat) (hk : k < 2 ^ 24) (he : e = 0 ∨ 2 ^ 23 ≤ k)
    (hmax : e ≤ 253) : F32.Representable (.fin s (k * 2 ^ e)) := by
  intro n _
  show F32.ofBits (F32.pack s (F32.magBits (k * 2 ^ e))) = _
  rw [F32.magBits_mul k e hk he, F32.ofBits_pack_mag s k e hk he hmax]

/-- What a word stands for is representable. -/
theorem F32.representable_ofBits (w : Word) : F32.Representable (F32.ofBits w) := by
  have hf := F32.fracOf_lt w
  have hx := F32.expOf_lt w
  unfold F32.ofBits
  split
  · split
    · exact F32.representable_inf _
    · exact F32.representable_nan
  · split
    · have h := F32.representable_fin (F32.signOf w) (F32.fracOf w) 0 (by omega) (.inl rfl) (by omega)
      simpa using h
    · exact F32.representable_fin _ _ _ (by omega) (.inr (by omega)) (by omega)

/-- Encoding the datum of a word that is no NaN gives the word. -/
theorem F32.toBits_ofBits (n w : Word) (h : ¬ F32.IsNanWord w) : (F32.ofBits w).toBits n = w := by
  have hf := F32.fracOf_lt w
  have hx := F32.expOf_lt w
  have hw := F32.toNat_eq_parts w
  apply BitVec.eq_of_toNat_eq
  unfold F32.IsNanWord at h
  unfold F32.ofBits at h ⊢
  split at h
  · rename_i h255
    split at h
    · rename_i h0
      rw [if_pos h255, if_pos h0]
      show (F32.pack _ _).toNat = _
      rw [F32.pack_toNat _ _ (by omega), hw, h255, h0]
      omega
    · exact absurd rfl h
  · rename_i h255
    rw [if_neg h255]
    split
    · rename_i h0
      show (F32.pack _ (F32.magBits _)).toNat = _
      have hm := F32.magBits_mul (F32.fracOf w) 0 (by omega) (.inl rfl)
      rw [Nat.pow_zero, Nat.mul_one] at hm
      rw [hm, F32.pack_toNat _ _ (by omega), hw, h0]
      omega
    · rename_i h0
      show (F32.pack _ (F32.magBits _)).toNat = _
      rw [F32.magBits_mul _ _ (by omega) (.inr (by omega)), F32.pack_toNat _ _ (by omega), hw]
      have : (F32.expOf w - 1) * 2 ^ 23 + (2 ^ 23 + F32.fracOf w)
          = F32.expOf w * 2 ^ 23 + F32.fracOf w := by
        have : F32.expOf w = F32.expOf w - 1 + 1 := by omega
        omega
      omega

/-- Rounding to a whole number is within one of the truncated quotient. -/
theorem F32.divNearest_bounds (n d : Nat) :
    n / d ≤ F32.divNearest n d ∧ F32.divNearest n d ≤ n / d + 1 := by
  unfold F32.divNearest
  simp only
  split <;> omega

/-- A rounded magnitude is a significand of at most 24 bits at a step that fits it. -/
theorem F32.roundMag_form (n d : Nat) : ∃ k e, F32.roundMag n d = k * 2 ^ e ∧ k < 2 ^ 24 ∧
    (e = 0 ∨ 2 ^ 23 ≤ k) := by
  unfold F32.roundMag
  simp only
  generalize he : (n / d).log2 - 23 = e
  have hb := F32.divNearest_bounds n (d * 2 ^ e)
  rw [← Nat.div_div_eq_div_mul] at hb
  have hlt : n / d < 2 ^ (e + 24) := by
    rcases Nat.eq_zero_or_pos (n / d) with h0 | hpos
    · rw [h0]; positivity
    · exact (Nat.log2_lt (by omega)).1 (by omega)
  have hq : n / d / 2 ^ e < 2 ^ 24 := by
    rw [Nat.div_lt_iff_lt_mul (by positivity), ← pow_add, Nat.add_comm 24 e]
    exact hlt
  have hlow : e = 0 ∨ 2 ^ 23 ≤ n / d / 2 ^ e := by
    rcases Nat.eq_zero_or_pos e with h0 | hpos
    · exact .inl h0
    · right
      have hne : n / d ≠ 0 := by
        intro h0; rw [h0] at he; simp at he; omega
      have : 2 ^ (n / d).log2 ≤ n / d := Nat.log2_self_le hne
      rw [Nat.le_div_iff_mul_le (by positivity), ← pow_add]
      have h23 : 23 + e = (n / d).log2 := by omega
      rw [h23]
      exact this
  generalize hk : F32.divNearest n (d * 2 ^ e) = k at hb
  by_cases htop : k = 2 ^ 24
  · exact ⟨2 ^ 23, e + 1, by rw [htop, pow_succ]; ring, by decide, .inr (le_refl _)⟩
  · refine ⟨k, e, rfl, by omega, ?_⟩
    rcases hlow with h0 | h0
    · exact .inl h0
    · exact .inr (by omega)

/-- Every rounded result is representable. -/
theorem F32.representable_round (s : Bool) (n d : Nat) : F32.Representable (F32.round s n d) := by
  unfold F32.round
  split
  · rename_i hlt
    obtain ⟨k, e, hform, hk, he⟩ := F32.roundMag_form n d
    rw [hform] at hlt ⊢
    rcases he with he | he
    · exact F32.representable_fin s k e hk (.inl he) (by omega)
    · refine F32.representable_fin s k e hk (.inr he) ?_
      by_contra hbig
      have h1 : 2 ^ 23 * 2 ^ 254 ≤ k * 2 ^ e := Nat.mul_le_mul he (Nat.pow_le_pow_right (by decide) (by omega))
      have h2 : F32.overflow = 2 ^ 23 * 2 ^ 254 := by decide
      omega
  · exact F32.representable_inf s

theorem F32.representable_zero (s : Bool) : F32.Representable (.fin s 0) := by
  simpa using F32.representable_fin s 0 0 (by decide) (.inl rfl) (by decide)

/-- The sign does not decide whether a datum is representable. -/
theorem F32.representable_fin_sign (s t : Bool) (m : Nat) (h : F32.Representable (.fin s m)) :
    F32.Representable (.fin t m) := by
  have hw := h (F32.nanWord 0#24) (F32.isNanWord_nanWord _)
  generalize (F32.fin s m).toBits (F32.nanWord 0#24) = w at hw
  have hf := F32.fracOf_lt w
  have hx := F32.expOf_lt w
  unfold F32.ofBits at hw
  split at hw
  · split at hw <;> cases hw
  · split at hw
    · injection hw with _ hm
      subst hm
      simpa using F32.representable_fin t (F32.fracOf w) 0 (by omega) (.inl rfl) (by omega)
    · injection hw with _ hm
      subst hm
      exact F32.representable_fin t _ _ (by omega) (.inr (by omega)) (by omega)

theorem F32.representable_neg (x : F32) (h : F32.Representable x) : F32.Representable x.neg := by
  cases x with
  | nan => exact F32.representable_nan
  | inf s => exact F32.representable_inf _
  | fin s m => exact F32.representable_fin_sign s _ m h

theorem F32.representable_add (a b : F32) : F32.Representable (a.add b) := by
  unfold F32.add
  split <;> (repeat' split) <;>
    first
    | with_reducible exact F32.representable_nan
    | with_reducible exact F32.representable_inf _
    | with_reducible exact F32.representable_round _ _ _
    | with_reducible exact F32.representable_zero _

theorem F32.representable_sub (a b : F32) : F32.Representable (a.sub b) := F32.representable_add _ _

theorem F32.representable_mul (a b : F32) : F32.Representable (a.mul b) := by
  unfold F32.mul
  split <;> (repeat' split) <;>
    first
    | with_reducible exact F32.representable_nan
    | with_reducible exact F32.representable_inf _
    | with_reducible exact F32.representable_round _ _ _

theorem F32.representable_div (a b : F32) : F32.Representable (a.div b) := by
  unfold F32.div
  split <;> (repeat' split) <;>
    first
    | with_reducible exact F32.representable_nan
    | with_reducible exact F32.representable_inf _
    | with_reducible exact F32.representable_round _ _ _
    | with_reducible exact F32.representable_zero _

theorem F32.representable_fmin (a b : F32) (ha : F32.Representable a) (hb : F32.Representable b) :
    F32.Representable (a.fmin b) := by
  unfold F32.fmin; split <;> assumption

theorem F32.representable_fmax (a b : F32) (ha : F32.Representable a) (hb : F32.Representable b) :
    F32.Representable (a.fmax b) := by
  unfold F32.fmax; split <;> assumption

theorem F32.representable_clamp (v lo hi : F32) (hv : F32.Representable v) (hlo : F32.Representable lo)
    (hhi : F32.Representable hi) : F32.Representable (v.clamp lo hi) :=
  F32.representable_fmin _ _ (F32.representable_fmax _ _ hv hlo) hhi

theorem F32.representable_flush (x : F32) (h : F32.Representable x) : F32.Representable x.flush := by
  unfold F32.flush; split
  · exact F32.representable_zero _
  · exact h

theorem F32.representable_lit (n d : Nat) : F32.Representable (F32.lit n d) := F32.representable_round _ _ _

theorem F32.representable_satPositive (x : F32) : F32.Representable (F32.satPositive x) := by
  unfold F32.satPositive boundedOr
  repeat' split
  all_goals first
    | exact F32.representable_zero _
    | exact F32.representable_ofBits _

theorem F32.representable_sat (x : F32) : F32.Representable x.sat := by
  unfold F32.sat
  repeat' split
  all_goals first
    | exact F32.representable_nan
    | exact F32.representable_neg _ (F32.representable_satPositive _)
    | exact F32.representable_satPositive _

/-- The flushed datum is not subnormal (R19). -/
theorem F32.flush_not_subnormal (x : F32) : x.flush.isSubnormal = false := by
  unfold F32.flush
  split
  · rfl
  · rename_i h; simpa using h

/-- A minimum is one of its operands. -/
theorem F32.fmin_cases (a b : F32) : a.fmin b = a ∨ a.fmin b = b := by
  unfold F32.fmin; split <;> simp

/-- A maximum is one of its operands. -/
theorem F32.fmax_cases (a b : F32) : a.fmax b = a ∨ a.fmax b = b := by
  unfold F32.fmax; split <;> simp

/-- A comparison holds only between data that have a place in the order. -/
theorem F32.le_iff (a b : F32) : a.le b = true ↔ ∃ x y, a.key = some x ∧ b.key = some y ∧ x ≤ y := by
  unfold F32.le
  cases a.key <;> cases b.key <;> simp

theorem F32.lt_iff (a b : F32) : a.lt b = true ↔ ∃ x y, a.key = some x ∧ b.key = some y ∧ x < y := by
  unfold F32.lt
  cases a.key <;> cases b.key <;> simp

/-- A finite datum has a place in the order. -/
theorem F32.key_of_isFinite (x : F32) (h : x.isFinite = true) : ∃ k, x.key = some k := by
  cases x <;> simp_all [F32.isFinite, F32.key]

/-- A datum clamped between ordered bounds lies between them, where it and they have a place in the order. -/
theorem F32.clamp_mem (v lo hi : F32) (k : Int) (hv : v.key = some k) (hle : lo.le hi = true) :
    lo.le (v.clamp lo hi) = true ∧ (v.clamp lo hi).le hi = true := by
  obtain ⟨x, y, hx, hy, hxy⟩ := (F32.le_iff _ _).1 hle
  simp only [F32.clamp, F32.fmin, F32.fmax, F32.lt, F32.le_iff, hv, hx]
  by_cases h1 : x < k
  · simp only [h1, decide_true, if_true, hv, hy]
    by_cases h2 : k < y
    · simp [h2, hv]; omega
    · simp [h2, hy]; omega
  · simp only [h1, decide_false, Bool.false_eq_true, if_false, hx, hy]
    by_cases h2 : x < y
    · simp [h2, hx]; omega
    · simp [h2, hy]; omega

/-- A representable magnitude has at most 24 significant bits above a step of at most 2^253 units. -/
theorem F32.representable_form (s : Bool) (m : Nat) (h : F32.Representable (.fin s m)) :
    ∃ k e, m = k * 2 ^ e ∧ k < 2 ^ 24 ∧ (e = 0 ∨ 2 ^ 23 ≤ k) ∧ e ≤ 253 := by
  have hw := h (F32.nanWord 0#24) (F32.isNanWord_nanWord _)
  generalize (F32.fin s m).toBits (F32.nanWord 0#24) = w at hw
  have hf := F32.fracOf_lt w
  have hx := F32.expOf_lt w
  unfold F32.ofBits at hw
  split at hw
  · split at hw <;> cases hw
  · split at hw
    · injection hw with _ hm
      exact ⟨F32.fracOf w, 0, by omega, by omega, .inl rfl, by omega⟩
    · injection hw with _ hm
      exact ⟨2 ^ 23 + F32.fracOf w, F32.expOf w - 1, hm.symm, by omega, .inr (by omega), by omega⟩

/-- Rounding leaves a representable magnitude as it is (R14). -/
theorem F32.round_representable (s : Bool) (m : Nat) (h : F32.Representable (.fin s m)) :
    F32.round s m 1 = .fin s m := by
  obtain ⟨k, e, rfl, hk, he, hmax⟩ := F32.representable_form s m h
  have hr : F32.roundMag (k * 2 ^ e) 1 = k * 2 ^ e := by
    unfold F32.roundMag F32.divNearest
    simp only [Nat.div_one, F32.log2_mul_pow k e hk he, Nat.one_mul]
    rw [Nat.mul_div_cancel _ (Nat.two_pow_pos e), Nat.mul_mod_left]
    simp
  have hlt : k * 2 ^ e < F32.overflow := by
    calc k * 2 ^ e < 2 ^ 24 * 2 ^ e := Nat.mul_lt_mul_of_pos_right hk (Nat.two_pow_pos _)
      _ ≤ 2 ^ 24 * 2 ^ 253 := Nat.mul_le_mul_left _ (Nat.pow_le_pow_right (by decide) hmax)
      _ = F32.overflow := by decide
  unfold F32.round
  rw [hr, if_pos hlt]

/-- A zero magnitude rounds to a zero of the same sign. -/
theorem F32.round_zero (s : Bool) (d : Nat) : F32.round s 0 d = .fin s 0 := by
  have h : F32.roundMag 0 d = 0 := by
    unfold F32.roundMag F32.divNearest
    simp; omega
  unfold F32.round
  rw [h, if_pos (by decide)]

/-- A minimum is at most its second operand, where that has a place in the order (R18). -/
theorem F32.fmin_le_right (a b : F32) (k : Int) (hb : b.key = some k) : (a.fmin b).le b = true := by
  unfold F32.fmin
  split
  · rename_i h
    obtain ⟨x, y, hx, hy, hxy⟩ := (F32.lt_iff _ _).1 h
    exact (F32.le_iff _ _).2 ⟨x, y, hx, hy, by omega⟩
  · exact (F32.le_iff _ _).2 ⟨k, k, hb, hb, le_refl _⟩

end Sys2Proof
end

