-- ==== Sys2Proof/Laws/Memory.lean ====
section
/-! SUPPORT. The delay-line storage and the ring buffer: reading after writing, the canonical form, and what a
ring write leaves. -/

namespace Sys2Proof.Machine

@[simp] theorem Memory.read_nil (a : Nat) : Memory.read [] a = Memory.unwritten := rfl

/-- Nothing is listed below the first number of a canonical storage. -/
theorem Memory.read_of_wfFrom_lt (lo a : Nat) (m : Memory) (h : Memory.wfFrom lo m = true) (ha : a < lo) :
    Memory.read m a = Memory.unwritten := by
  induction m generalizing lo with
  | nil => rfl
  | cons e rest ih =>
    obtain ⟨b, v⟩ := e
    simp only [Memory.wfFrom, Bool.and_eq_true, decide_eq_true_eq] at h
    have hne : a ≠ b := by omega
    simp only [Memory.read, hne, if_false]
    exact ih (b + 1) h.2 (by omega)

/-- Reading the element just written gives the value written, in a canonical storage. -/
theorem Memory.read_write_same_from (lo a : Nat) (v : Word) (m : Memory) (h : Memory.wfFrom lo m = true) :
    Memory.read (Memory.write m a v) a = v := by
  induction m generalizing lo with
  | nil => simp only [Memory.write]; split <;> simp_all [Memory.read]
  | cons e rest ih =>
    obtain ⟨b, u⟩ := e
    simp only [Memory.wfFrom, Bool.and_eq_true, decide_eq_true_eq] at h
    simp only [Memory.write]
    by_cases hlt : a < b
    · rw [if_pos hlt]
      split
      · rename_i hv
        have hne : a ≠ b := by omega
        simp only [Memory.read, hne, if_false]
        rw [hv]
        exact Memory.read_of_wfFrom_lt (b + 1) a rest h.2 (by omega)
      · simp [Memory.read]
    · rw [if_neg hlt]
      by_cases heq : a = b
      · rw [if_pos heq]
        split
        · rename_i hv
          rw [hv, heq]
          exact Memory.read_of_wfFrom_lt (b + 1) b rest h.2 (by omega)
        · simp [Memory.read]
      · rw [if_neg heq]
        simp only [Memory.read, heq, if_false]
        exact ih (b + 1) h.2

theorem Memory.read_write_same (a : Nat) (v : Word) (m : Memory) (h : Memory.wf m = true) :
    Memory.read (Memory.write m a v) a = v := Memory.read_write_same_from 0 a v m h

/-- Writing one element leaves every other element as it was. -/
theorem Memory.read_write_other (a b : Nat) (v : Word) (m : Memory) (h : b ≠ a) :
    Memory.read (Memory.write m a v) b = Memory.read m b := by
  induction m with
  | nil => simp only [Memory.write]; split <;> simp [Memory.read, h]
  | cons e rest ih =>
    obtain ⟨c, u⟩ := e
    simp only [Memory.write]
    by_cases hlt : a < c
    · rw [if_pos hlt]; split <;> simp [Memory.read, h]
    · rw [if_neg hlt]
      by_cases heq : a = c
      · rw [if_pos heq]
        subst heq
        split <;> simp [Memory.read, h]
      · rw [if_neg heq]
        simp only [Memory.read, ih]

/-- A storage canonical from a higher number is canonical from a lower one. -/
theorem Memory.wfFrom_mono (lo hi : Nat) (m : Memory) (hle : lo ≤ hi) (h : Memory.wfFrom hi m = true) :
    Memory.wfFrom lo m = true := by
  cases m with
  | nil => rfl
  | cons e rest =>
    simp only [Memory.wfFrom, Bool.and_eq_true, decide_eq_true_eq] at h ⊢
    exact ⟨⟨by omega, h.1.2⟩, h.2⟩

/-- Every write keeps the canonical form. -/
theorem Memory.wfFrom_write (lo a : Nat) (v : Word) (m : Memory) (h : Memory.wfFrom lo m = true)
    (ha : lo ≤ a) : Memory.wfFrom lo (Memory.write m a v) = true := by
  induction m generalizing lo with
  | nil => simp only [Memory.write]; split <;> simp_all [Memory.wfFrom]
  | cons e rest ih =>
    obtain ⟨b, u⟩ := e
    have h' := h
    simp only [Memory.wfFrom, Bool.and_eq_true, decide_eq_true_eq] at h'
    obtain ⟨⟨hb, hu⟩, hr⟩ := h'
    simp only [Memory.write]
    by_cases hlt : a < b
    · rw [if_pos hlt]
      split
      · exact h
      · rename_i hv
        simp only [Memory.wfFrom, Bool.and_eq_true, decide_eq_true_eq]
        exact ⟨⟨ha, hv⟩, ⟨by omega, hu⟩, hr⟩
    · rw [if_neg hlt]
      by_cases heq : a = b
      · rw [if_pos heq]
        split
        · exact Memory.wfFrom_mono lo (b + 1) rest (by omega) hr
        · rename_i hv
          simp only [Memory.wfFrom, Bool.and_eq_true, decide_eq_true_eq]
          exact ⟨⟨ha, hv⟩, heq ▸ hr⟩
      · rw [if_neg heq]
        simp only [Memory.wfFrom, Bool.and_eq_true, decide_eq_true_eq]
        exact ⟨⟨hb, hu⟩, ih (b + 1) hr (by omega)⟩

theorem Memory.wf_write (a : Nat) (v : Word) (m : Memory) (h : Memory.wf m = true) :
    Memory.wf (Memory.write m a v) = true := Memory.wfFrom_write 0 a v m h (Nat.zero_le a)

theorem Memory.below_cons (n b : Nat) (u : Word) (rest : Memory) :
    Memory.below n ((b, u) :: rest) = true ↔ b < n ∧ Memory.below n rest = true := by
  simp [Memory.below]

/-- A write below `n` lists nothing at or above `n`. -/
theorem Memory.below_write (n a : Nat) (v : Word) (m : Memory) (h : Memory.below n m = true) (ha : a < n) :
    Memory.below n (Memory.write m a v) = true := by
  induction m with
  | nil =>
    simp only [Memory.write]
    split
    · rfl
    · exact (Memory.below_cons n a v []).2 ⟨ha, rfl⟩
  | cons e rest ih =>
    obtain ⟨b, u⟩ := e
    have h' := (Memory.below_cons n b u rest).1 h
    simp only [Memory.write]
    by_cases hlt : a < b
    · rw [if_pos hlt]
      split
      · exact h
      · exact (Memory.below_cons n a v _).2 ⟨ha, h⟩
    · rw [if_neg hlt]
      by_cases heq : a = b
      · rw [if_pos heq]
        split
        · exact h'.2
        · exact (Memory.below_cons n a v rest).2 ⟨ha, h'.2⟩
      · rw [if_neg heq]
        exact (Memory.below_cons n b u _).2 ⟨h'.1, ih h'.2⟩

/-- Nothing is read at or above a bound nothing is listed above. -/
theorem Memory.read_of_below (n a : Nat) (m : Memory) (h : Memory.below n m = true) (ha : n ≤ a) :
    Memory.read m a = Memory.unwritten := by
  induction m with
  | nil => rfl
  | cons e rest ih =>
    simp only [Memory.below, List.all_cons, Bool.and_eq_true, decide_eq_true_eq] at h ih
    have hne : a ≠ e.1 := by omega
    simp only [Memory.read, hne, if_false]
    exact ih h.2

/-- Two canonical storages that read alike are equal data. -/
theorem Memory.eq_of_read_eq (lo : Nat) (m k : Memory) (hm : Memory.wfFrom lo m = true)
    (hk : Memory.wfFrom lo k = true) (h : ∀ a, Memory.read m a = Memory.read k a) : m = k := by
  induction m generalizing lo k with
  | nil =>
    cases k with
    | nil => rfl
    | cons e rest =>
      exfalso
      have h1 := h e.1
      simp only [Memory.wfFrom, Bool.and_eq_true, decide_eq_true_eq] at hk
      simp only [Memory.read, if_true] at h1
      exact hk.1.2 h1.symm
  | cons e rest ih =>
    obtain ⟨b, v⟩ := e
    simp only [Memory.wfFrom, Bool.and_eq_true, decide_eq_true_eq] at hm
    cases k with
    | nil =>
      exfalso
      have h1 := h b
      simp only [Memory.read, if_true] at h1
      exact hm.1.2 h1
    | cons f rest' =>
      obtain ⟨c, u⟩ := f
      have hk' := hk
      simp only [Memory.wfFrom, Bool.and_eq_true, decide_eq_true_eq] at hk'
      have hbc : b = c := by
        rcases Nat.lt_trichotomy b c with hlt | heq | hgt
        · exfalso
          have h1 := h b
          have hne : b ≠ c := by omega
          simp only [Memory.read, if_true, hne, if_false] at h1
          rw [Memory.read_of_wfFrom_lt (c + 1) b rest' hk'.2 (by omega)] at h1
          exact hm.1.2 h1
        · exact heq
        · exfalso
          have h1 := h c
          have hne : c ≠ b := by omega
          simp only [Memory.read, if_true, hne, if_false] at h1
          rw [Memory.read_of_wfFrom_lt (b + 1) c rest hm.2 (by omega)] at h1
          exact hk'.1.2 h1.symm
      subst hbc
      have hvu : v = u := by simpa [Memory.read] using h b
      subst hvu
      have : rest = rest' := by
        refine ih (b + 1) rest' hm.2 hk'.2 ?_
        intro a
        have h1 := h a
        by_cases hab : a = b
        · subst hab
          rw [Memory.read_of_wfFrom_lt (a + 1) a rest hm.2 (by omega),
            Memory.read_of_wfFrom_lt (a + 1) a rest' hk'.2 (by omega)]
        · simpa [Memory.read, hab] using h1
      rw [this]

/-- Where the cursor stands after a write to a line of a legal length (R73). -/
theorem Ring.write_cursor (r : Ring) (n : Nat) (v : Word) (hpos : 0 < n) (hn : n ≤ 2 ^ 32) :
    (r.write n v).cursor.toNat = (r.cursor.toNat + 1) % n := by
  unfold Ring.write
  simp only [BitVec.toNat_ofNat]
  have := Nat.mod_lt (r.cursor.toNat + 1) hpos
  exact Nat.mod_eq_of_lt (by omega)

/-- A ring write keeps a ring well formed (R71). -/
theorem Ring.ok_write (n : Nat) (r : Ring) (v : Word) (h : Ring.Ok n r) (hn : n ≤ 2 ^ 32) :
    Ring.Ok n (r.write n v) where
  wf := Memory.wf_write _ _ _ h.wf
  below := Memory.below_write _ _ _ _ h.below h.cursor
  cursor := by
    have hpos : 0 < n := by have := h.cursor; omega
    rw [Ring.write_cursor r n v hpos hn]
    exact Nat.mod_lt _ hpos

/-- A zeroed line is well formed for every length (R43). -/
theorem Ring.ok_zeroed (n : Nat) (hpos : 0 < n) : Ring.Ok n Ring.zeroed := ⟨rfl, rfl, hpos⟩

/-- A zeroed line reads +0.0 at every tap (R43, R72). -/
theorem Ring.tap_zeroed (n d : Nat) : Ring.zeroed.tap n d = 0#32 := rfl

/-- The element a tap reads, in natural numbers (R72). -/
theorem Ring.slot_eq (r : Ring) (n d : Nat) (hd : d ≤ n) :
    r.slot n d = (r.cursor.toNat + n - d) % n := by
  have h : ((r.cursor.toNat + n - d : Nat) : Int) % n = ((r.cursor.toNat : Int) - d) % n := by
    rw [show ((r.cursor.toNat + n - d : Nat) : Int) = (r.cursor.toNat : Int) - d + n by omega,
      Int.add_emod_right]
  unfold Ring.slot
  rw [← h]
  norm_cast

end Sys2Proof.Machine
end

