-- ==== Sys2Proof/Laws/State.lean ====
section
/-! SUPPORT. The fields of the state after each named update, one lemma per field per update. -/

namespace Sys2Proof.Machine

@[simp] theorem State.setData_cfg (s : State) (p : Port) (v : Word) : (s.setData p v).cfg = s.cfg := rfl
@[simp] theorem State.setData_data (s : State) (p : Port) (v : Word) : (s.setData p v).data = s.data.set p v := rfl
@[simp] theorem State.setData_result (s : State) (p : Port) (v : Word) : (s.setData p v).result = s.result := rfl
@[simp] theorem State.setData_status (s : State) (p : Port) (v : Word) : (s.setData p v).status = s.status := rfl
@[simp] theorem State.setData_smooth (s : State) (p : Port) (v : Word) : (s.setData p v).smooth = s.smooth := rfl
@[simp] theorem State.setData_osc (s : State) (p : Port) (v : Word) : (s.setData p v).osc = s.osc := rfl
@[simp] theorem State.setData_delay (s : State) (p : Port) (v : Word) : (s.setData p v).delay = s.delay := rfl
@[simp] theorem State.setData_ladder (s : State) (p : Port) (v : Word) : (s.setData p v).ladder = s.ladder := rfl
@[simp] theorem State.setData_biquad (s : State) (p : Port) (v : Word) : (s.setData p v).biquad = s.biquad := rfl
@[simp] theorem State.setData_reverb (s : State) (p : Port) (v : Word) : (s.setData p v).reverb = s.reverb := rfl
@[simp] theorem State.setData_pending (s : State) (p : Port) (v : Word) : (s.setData p v).pending = s.pending := rfl
@[simp] theorem State.setData_reply (s : State) (p : Port) (v : Word) : (s.setData p v).reply = s.reply := rfl
@[simp] theorem State.setData_port (s : State) (p : Port) (v : Word) : (s.setData p v).port = s.port := rfl
@[simp] theorem State.setData_draws (s : State) (p : Port) (v : Word) : (s.setData p v).draws = s.draws := rfl

@[simp] theorem State.setResult_cfg (s : State) (v : Word) : (s.setResult v).cfg = s.cfg := rfl
@[simp] theorem State.setResult_data (s : State) (v : Word) : (s.setResult v).data = s.data := rfl
@[simp] theorem State.setResult_result (s : State) (v : Word) : (s.setResult v).result = s.result.set s.port v := rfl
@[simp] theorem State.setResult_status (s : State) (v : Word) : (s.setResult v).status = s.status := rfl
@[simp] theorem State.setResult_smooth (s : State) (v : Word) : (s.setResult v).smooth = s.smooth := rfl
@[simp] theorem State.setResult_osc (s : State) (v : Word) : (s.setResult v).osc = s.osc := rfl
@[simp] theorem State.setResult_delay (s : State) (v : Word) : (s.setResult v).delay = s.delay := rfl
@[simp] theorem State.setResult_ladder (s : State) (v : Word) : (s.setResult v).ladder = s.ladder := rfl
@[simp] theorem State.setResult_biquad (s : State) (v : Word) : (s.setResult v).biquad = s.biquad := rfl
@[simp] theorem State.setResult_reverb (s : State) (v : Word) : (s.setResult v).reverb = s.reverb := rfl
@[simp] theorem State.setResult_pending (s : State) (v : Word) : (s.setResult v).pending = s.pending := rfl
@[simp] theorem State.setResult_reply (s : State) (v : Word) : (s.setResult v).reply = s.reply := rfl
@[simp] theorem State.setResult_port (s : State) (v : Word) : (s.setResult v).port = s.port := rfl
@[simp] theorem State.setResult_draws (s : State) (v : Word) : (s.setResult v).draws = s.draws := rfl

@[simp] theorem State.setIll_cfg (s : State) : (s.setIll).cfg = s.cfg := rfl
@[simp] theorem State.setIll_data (s : State) : (s.setIll).data = s.data := rfl
@[simp] theorem State.setIll_result (s : State) : (s.setIll).result = s.result := rfl
@[simp] theorem State.setIll_status (s : State) : (s.setIll).status = s.status ||| 1#32 := rfl
@[simp] theorem State.setIll_smooth (s : State) : (s.setIll).smooth = s.smooth := rfl
@[simp] theorem State.setIll_osc (s : State) : (s.setIll).osc = s.osc := rfl
@[simp] theorem State.setIll_delay (s : State) : (s.setIll).delay = s.delay := rfl
@[simp] theorem State.setIll_ladder (s : State) : (s.setIll).ladder = s.ladder := rfl
@[simp] theorem State.setIll_biquad (s : State) : (s.setIll).biquad = s.biquad := rfl
@[simp] theorem State.setIll_reverb (s : State) : (s.setIll).reverb = s.reverb := rfl
@[simp] theorem State.setIll_pending (s : State) : (s.setIll).pending = s.pending := rfl
@[simp] theorem State.setIll_reply (s : State) : (s.setIll).reply = s.reply := rfl
@[simp] theorem State.setIll_port (s : State) : (s.setIll).port = s.port := rfl
@[simp] theorem State.setIll_draws (s : State) : (s.setIll).draws = s.draws := rfl

@[simp] theorem State.clearIll_cfg (s : State) : (s.clearIll).cfg = s.cfg := rfl
@[simp] theorem State.clearIll_data (s : State) : (s.clearIll).data = s.data := rfl
@[simp] theorem State.clearIll_result (s : State) : (s.clearIll).result = s.result := rfl
@[simp] theorem State.clearIll_status (s : State) : (s.clearIll).status = s.status &&& ~~~1#32 := rfl
@[simp] theorem State.clearIll_smooth (s : State) : (s.clearIll).smooth = s.smooth := rfl
@[simp] theorem State.clearIll_osc (s : State) : (s.clearIll).osc = s.osc := rfl
@[simp] theorem State.clearIll_delay (s : State) : (s.clearIll).delay = s.delay := rfl
@[simp] theorem State.clearIll_ladder (s : State) : (s.clearIll).ladder = s.ladder := rfl
@[simp] theorem State.clearIll_biquad (s : State) : (s.clearIll).biquad = s.biquad := rfl
@[simp] theorem State.clearIll_reverb (s : State) : (s.clearIll).reverb = s.reverb := rfl
@[simp] theorem State.clearIll_pending (s : State) : (s.clearIll).pending = s.pending := rfl
@[simp] theorem State.clearIll_reply (s : State) : (s.clearIll).reply = s.reply := rfl
@[simp] theorem State.clearIll_port (s : State) : (s.clearIll).port = s.port := rfl
@[simp] theorem State.clearIll_draws (s : State) : (s.clearIll).draws = s.draws := rfl

@[simp] theorem State.putSmooth_cfg (s : State) (i : Nat) (u : Smoother) : (s.putSmooth i u).cfg = s.cfg := rfl
@[simp] theorem State.putSmooth_data (s : State) (i : Nat) (u : Smoother) : (s.putSmooth i u).data = s.data := rfl
@[simp] theorem State.putSmooth_result (s : State) (i : Nat) (u : Smoother) : (s.putSmooth i u).result = s.result := rfl
@[simp] theorem State.putSmooth_status (s : State) (i : Nat) (u : Smoother) : (s.putSmooth i u).status = s.status := rfl
@[simp] theorem State.putSmooth_smooth (s : State) (i : Nat) (u : Smoother) : (s.putSmooth i u).smooth = s.smooth.set i u := rfl
@[simp] theorem State.putSmooth_osc (s : State) (i : Nat) (u : Smoother) : (s.putSmooth i u).osc = s.osc := rfl
@[simp] theorem State.putSmooth_delay (s : State) (i : Nat) (u : Smoother) : (s.putSmooth i u).delay = s.delay := rfl
@[simp] theorem State.putSmooth_ladder (s : State) (i : Nat) (u : Smoother) : (s.putSmooth i u).ladder = s.ladder := rfl
@[simp] theorem State.putSmooth_biquad (s : State) (i : Nat) (u : Smoother) : (s.putSmooth i u).biquad = s.biquad := rfl
@[simp] theorem State.putSmooth_reverb (s : State) (i : Nat) (u : Smoother) : (s.putSmooth i u).reverb = s.reverb := rfl
@[simp] theorem State.putSmooth_pending (s : State) (i : Nat) (u : Smoother) : (s.putSmooth i u).pending = s.pending := rfl
@[simp] theorem State.putSmooth_reply (s : State) (i : Nat) (u : Smoother) : (s.putSmooth i u).reply = s.reply := rfl
@[simp] theorem State.putSmooth_port (s : State) (i : Nat) (u : Smoother) : (s.putSmooth i u).port = s.port := rfl
@[simp] theorem State.putSmooth_draws (s : State) (i : Nat) (u : Smoother) : (s.putSmooth i u).draws = s.draws := rfl

@[simp] theorem State.putOsc_cfg (s : State) (i : Nat) (u : Osc) : (s.putOsc i u).cfg = s.cfg := rfl
@[simp] theorem State.putOsc_data (s : State) (i : Nat) (u : Osc) : (s.putOsc i u).data = s.data := rfl
@[simp] theorem State.putOsc_result (s : State) (i : Nat) (u : Osc) : (s.putOsc i u).result = s.result := rfl
@[simp] theorem State.putOsc_status (s : State) (i : Nat) (u : Osc) : (s.putOsc i u).status = s.status := rfl
@[simp] theorem State.putOsc_smooth (s : State) (i : Nat) (u : Osc) : (s.putOsc i u).smooth = s.smooth := rfl
@[simp] theorem State.putOsc_osc (s : State) (i : Nat) (u : Osc) : (s.putOsc i u).osc = s.osc.set i u := rfl
@[simp] theorem State.putOsc_delay (s : State) (i : Nat) (u : Osc) : (s.putOsc i u).delay = s.delay := rfl
@[simp] theorem State.putOsc_ladder (s : State) (i : Nat) (u : Osc) : (s.putOsc i u).ladder = s.ladder := rfl
@[simp] theorem State.putOsc_biquad (s : State) (i : Nat) (u : Osc) : (s.putOsc i u).biquad = s.biquad := rfl
@[simp] theorem State.putOsc_reverb (s : State) (i : Nat) (u : Osc) : (s.putOsc i u).reverb = s.reverb := rfl
@[simp] theorem State.putOsc_pending (s : State) (i : Nat) (u : Osc) : (s.putOsc i u).pending = s.pending := rfl
@[simp] theorem State.putOsc_reply (s : State) (i : Nat) (u : Osc) : (s.putOsc i u).reply = s.reply := rfl
@[simp] theorem State.putOsc_port (s : State) (i : Nat) (u : Osc) : (s.putOsc i u).port = s.port := rfl
@[simp] theorem State.putOsc_draws (s : State) (i : Nat) (u : Osc) : (s.putOsc i u).draws = s.draws := rfl

@[simp] theorem State.putDelay_cfg (s : State) (i : Nat) (u : Delay) : (s.putDelay i u).cfg = s.cfg := rfl
@[simp] theorem State.putDelay_data (s : State) (i : Nat) (u : Delay) : (s.putDelay i u).data = s.data := rfl
@[simp] theorem State.putDelay_result (s : State) (i : Nat) (u : Delay) : (s.putDelay i u).result = s.result := rfl
@[simp] theorem State.putDelay_status (s : State) (i : Nat) (u : Delay) : (s.putDelay i u).status = s.status := rfl
@[simp] theorem State.putDelay_smooth (s : State) (i : Nat) (u : Delay) : (s.putDelay i u).smooth = s.smooth := rfl
@[simp] theorem State.putDelay_osc (s : State) (i : Nat) (u : Delay) : (s.putDelay i u).osc = s.osc := rfl
@[simp] theorem State.putDelay_delay (s : State) (i : Nat) (u : Delay) : (s.putDelay i u).delay = s.delay.set i u := rfl
@[simp] theorem State.putDelay_ladder (s : State) (i : Nat) (u : Delay) : (s.putDelay i u).ladder = s.ladder := rfl
@[simp] theorem State.putDelay_biquad (s : State) (i : Nat) (u : Delay) : (s.putDelay i u).biquad = s.biquad := rfl
@[simp] theorem State.putDelay_reverb (s : State) (i : Nat) (u : Delay) : (s.putDelay i u).reverb = s.reverb := rfl
@[simp] theorem State.putDelay_pending (s : State) (i : Nat) (u : Delay) : (s.putDelay i u).pending = s.pending := rfl
@[simp] theorem State.putDelay_reply (s : State) (i : Nat) (u : Delay) : (s.putDelay i u).reply = s.reply := rfl
@[simp] theorem State.putDelay_port (s : State) (i : Nat) (u : Delay) : (s.putDelay i u).port = s.port := rfl
@[simp] theorem State.putDelay_draws (s : State) (i : Nat) (u : Delay) : (s.putDelay i u).draws = s.draws := rfl

@[simp] theorem State.putLadder_cfg (s : State) (i : Nat) (u : Ladder) : (s.putLadder i u).cfg = s.cfg := rfl
@[simp] theorem State.putLadder_data (s : State) (i : Nat) (u : Ladder) : (s.putLadder i u).data = s.data := rfl
@[simp] theorem State.putLadder_result (s : State) (i : Nat) (u : Ladder) : (s.putLadder i u).result = s.result := rfl
@[simp] theorem State.putLadder_status (s : State) (i : Nat) (u : Ladder) : (s.putLadder i u).status = s.status := rfl
@[simp] theorem State.putLadder_smooth (s : State) (i : Nat) (u : Ladder) : (s.putLadder i u).smooth = s.smooth := rfl
@[simp] theorem State.putLadder_osc (s : State) (i : Nat) (u : Ladder) : (s.putLadder i u).osc = s.osc := rfl
@[simp] theorem State.putLadder_delay (s : State) (i : Nat) (u : Ladder) : (s.putLadder i u).delay = s.delay := rfl
@[simp] theorem State.putLadder_ladder (s : State) (i : Nat) (u : Ladder) : (s.putLadder i u).ladder = s.ladder.set i u := rfl
@[simp] theorem State.putLadder_biquad (s : State) (i : Nat) (u : Ladder) : (s.putLadder i u).biquad = s.biquad := rfl
@[simp] theorem State.putLadder_reverb (s : State) (i : Nat) (u : Ladder) : (s.putLadder i u).reverb = s.reverb := rfl
@[simp] theorem State.putLadder_pending (s : State) (i : Nat) (u : Ladder) : (s.putLadder i u).pending = s.pending := rfl
@[simp] theorem State.putLadder_reply (s : State) (i : Nat) (u : Ladder) : (s.putLadder i u).reply = s.reply := rfl
@[simp] theorem State.putLadder_port (s : State) (i : Nat) (u : Ladder) : (s.putLadder i u).port = s.port := rfl
@[simp] theorem State.putLadder_draws (s : State) (i : Nat) (u : Ladder) : (s.putLadder i u).draws = s.draws := rfl

@[simp] theorem State.putBiquad_cfg (s : State) (i : Nat) (u : Biquad) : (s.putBiquad i u).cfg = s.cfg := rfl
@[simp] theorem State.putBiquad_data (s : State) (i : Nat) (u : Biquad) : (s.putBiquad i u).data = s.data := rfl
@[simp] theorem State.putBiquad_result (s : State) (i : Nat) (u : Biquad) : (s.putBiquad i u).result = s.result := rfl
@[simp] theorem State.putBiquad_status (s : State) (i : Nat) (u : Biquad) : (s.putBiquad i u).status = s.status := rfl
@[simp] theorem State.putBiquad_smooth (s : State) (i : Nat) (u : Biquad) : (s.putBiquad i u).smooth = s.smooth := rfl
@[simp] theorem State.putBiquad_osc (s : State) (i : Nat) (u : Biquad) : (s.putBiquad i u).osc = s.osc := rfl
@[simp] theorem State.putBiquad_delay (s : State) (i : Nat) (u : Biquad) : (s.putBiquad i u).delay = s.delay := rfl
@[simp] theorem State.putBiquad_ladder (s : State) (i : Nat) (u : Biquad) : (s.putBiquad i u).ladder = s.ladder := rfl
@[simp] theorem State.putBiquad_biquad (s : State) (i : Nat) (u : Biquad) : (s.putBiquad i u).biquad = s.biquad.set i u := rfl
@[simp] theorem State.putBiquad_reverb (s : State) (i : Nat) (u : Biquad) : (s.putBiquad i u).reverb = s.reverb := rfl
@[simp] theorem State.putBiquad_pending (s : State) (i : Nat) (u : Biquad) : (s.putBiquad i u).pending = s.pending := rfl
@[simp] theorem State.putBiquad_reply (s : State) (i : Nat) (u : Biquad) : (s.putBiquad i u).reply = s.reply := rfl
@[simp] theorem State.putBiquad_port (s : State) (i : Nat) (u : Biquad) : (s.putBiquad i u).port = s.port := rfl
@[simp] theorem State.putBiquad_draws (s : State) (i : Nat) (u : Biquad) : (s.putBiquad i u).draws = s.draws := rfl

@[simp] theorem State.putReverb_cfg (s : State) (i : Nat) (u : Reverb) : (s.putReverb i u).cfg = s.cfg := rfl
@[simp] theorem State.putReverb_data (s : State) (i : Nat) (u : Reverb) : (s.putReverb i u).data = s.data := rfl
@[simp] theorem State.putReverb_result (s : State) (i : Nat) (u : Reverb) : (s.putReverb i u).result = s.result := rfl
@[simp] theorem State.putReverb_status (s : State) (i : Nat) (u : Reverb) : (s.putReverb i u).status = s.status := rfl
@[simp] theorem State.putReverb_smooth (s : State) (i : Nat) (u : Reverb) : (s.putReverb i u).smooth = s.smooth := rfl
@[simp] theorem State.putReverb_osc (s : State) (i : Nat) (u : Reverb) : (s.putReverb i u).osc = s.osc := rfl
@[simp] theorem State.putReverb_delay (s : State) (i : Nat) (u : Reverb) : (s.putReverb i u).delay = s.delay := rfl
@[simp] theorem State.putReverb_ladder (s : State) (i : Nat) (u : Reverb) : (s.putReverb i u).ladder = s.ladder := rfl
@[simp] theorem State.putReverb_biquad (s : State) (i : Nat) (u : Reverb) : (s.putReverb i u).biquad = s.biquad := rfl
@[simp] theorem State.putReverb_reverb (s : State) (i : Nat) (u : Reverb) : (s.putReverb i u).reverb = s.reverb.set i u := rfl
@[simp] theorem State.putReverb_pending (s : State) (i : Nat) (u : Reverb) : (s.putReverb i u).pending = s.pending := rfl
@[simp] theorem State.putReverb_reply (s : State) (i : Nat) (u : Reverb) : (s.putReverb i u).reply = s.reply := rfl
@[simp] theorem State.putReverb_port (s : State) (i : Nat) (u : Reverb) : (s.putReverb i u).port = s.port := rfl
@[simp] theorem State.putReverb_draws (s : State) (i : Nat) (u : Reverb) : (s.putReverb i u).draws = s.draws := rfl

@[simp] theorem State.present_cfg (s : State) (p : Port) (w : Word) : (s.present p w).cfg = s.cfg := rfl
@[simp] theorem State.present_data (s : State) (p : Port) (w : Word) : (s.present p w).data = s.data.set p w := rfl
@[simp] theorem State.present_result (s : State) (p : Port) (w : Word) : (s.present p w).result = s.result := rfl
@[simp] theorem State.present_status (s : State) (p : Port) (w : Word) : (s.present p w).status = s.status := rfl
@[simp] theorem State.present_smooth (s : State) (p : Port) (w : Word) : (s.present p w).smooth = s.smooth := rfl
@[simp] theorem State.present_osc (s : State) (p : Port) (w : Word) : (s.present p w).osc = s.osc := rfl
@[simp] theorem State.present_delay (s : State) (p : Port) (w : Word) : (s.present p w).delay = s.delay := rfl
@[simp] theorem State.present_ladder (s : State) (p : Port) (w : Word) : (s.present p w).ladder = s.ladder := rfl
@[simp] theorem State.present_biquad (s : State) (p : Port) (w : Word) : (s.present p w).biquad = s.biquad := rfl
@[simp] theorem State.present_reverb (s : State) (p : Port) (w : Word) : (s.present p w).reverb = s.reverb := rfl
@[simp] theorem State.present_pending (s : State) (p : Port) (w : Word) : (s.present p w).pending = s.pending := rfl
@[simp] theorem State.present_reply (s : State) (p : Port) (w : Word) : (s.present p w).reply = s.reply := rfl
@[simp] theorem State.present_port (s : State) (p : Port) (w : Word) : (s.present p w).port = p := rfl
@[simp] theorem State.present_draws (s : State) (p : Port) (w : Word) : (s.present p w).draws = s.draws := rfl

@[simp] theorem State.taken_cfg (s : State) (p : Port) (rest : List Request) : (s.taken p rest).cfg = s.cfg := rfl
@[simp] theorem State.taken_data (s : State) (p : Port) (rest : List Request) : (s.taken p rest).data = s.data := rfl
@[simp] theorem State.taken_result (s : State) (p : Port) (rest : List Request) : (s.taken p rest).result = s.result := rfl
@[simp] theorem State.taken_status (s : State) (p : Port) (rest : List Request) : (s.taken p rest).status = s.status := rfl
@[simp] theorem State.taken_smooth (s : State) (p : Port) (rest : List Request) : (s.taken p rest).smooth = s.smooth := rfl
@[simp] theorem State.taken_osc (s : State) (p : Port) (rest : List Request) : (s.taken p rest).osc = s.osc := rfl
@[simp] theorem State.taken_delay (s : State) (p : Port) (rest : List Request) : (s.taken p rest).delay = s.delay := rfl
@[simp] theorem State.taken_ladder (s : State) (p : Port) (rest : List Request) : (s.taken p rest).ladder = s.ladder := rfl
@[simp] theorem State.taken_biquad (s : State) (p : Port) (rest : List Request) : (s.taken p rest).biquad = s.biquad := rfl
@[simp] theorem State.taken_reverb (s : State) (p : Port) (rest : List Request) : (s.taken p rest).reverb = s.reverb := rfl
@[simp] theorem State.taken_pending (s : State) (p : Port) (rest : List Request) : (s.taken p rest).pending = s.pending.set p rest := rfl
@[simp] theorem State.taken_reply (s : State) (p : Port) (rest : List Request) : (s.taken p rest).reply = s.reply := rfl
@[simp] theorem State.taken_port (s : State) (p : Port) (rest : List Request) : (s.taken p rest).port = p := rfl
@[simp] theorem State.taken_draws (s : State) (p : Port) (rest : List Request) : (s.taken p rest).draws = s.draws + 1 := rfl

@[simp] theorem State.blockReset_cfg (s : State) : s.blockReset.cfg = s.cfg := rfl
@[simp] theorem State.blockReset_data (s : State) : s.blockReset.data = (State.resetOf s.cfg).data := rfl
@[simp] theorem State.blockReset_result (s : State) : s.blockReset.result = (State.resetOf s.cfg).result := rfl
@[simp] theorem State.blockReset_status (s : State) : s.blockReset.status = (State.resetOf s.cfg).status := rfl
@[simp] theorem State.blockReset_smooth (s : State) : s.blockReset.smooth = (State.resetOf s.cfg).smooth := rfl
@[simp] theorem State.blockReset_osc (s : State) : s.blockReset.osc = (State.resetOf s.cfg).osc := rfl
@[simp] theorem State.blockReset_delay (s : State) : s.blockReset.delay = (State.resetOf s.cfg).delay := rfl
@[simp] theorem State.blockReset_ladder (s : State) : s.blockReset.ladder = (State.resetOf s.cfg).ladder := rfl
@[simp] theorem State.blockReset_biquad (s : State) : s.blockReset.biquad = (State.resetOf s.cfg).biquad := rfl
@[simp] theorem State.blockReset_reverb (s : State) : s.blockReset.reverb = (State.resetOf s.cfg).reverb := rfl
@[simp] theorem State.blockReset_pending (s : State) : s.blockReset.pending = s.pending := rfl
@[simp] theorem State.blockReset_reply (s : State) : s.blockReset.reply = s.reply := rfl
@[simp] theorem State.blockReset_port (s : State) : s.blockReset.port = s.port := rfl
@[simp] theorem State.blockReset_draws (s : State) : s.blockReset.draws = s.draws := rfl

@[simp] theorem Ports.get_set_self {α : Type} (r : Ports α) (p : Port) (v : α) : (r.set p v).get p = v := by
  cases p <;> rfl

theorem Ports.get_set_other {α : Type} (r : Ports α) (p q : Port) (v : α) (h : q ≠ p) :
    (r.set p v).get q = r.get q := by
  cases p <;> cases q <;> first | rfl | exact absurd rfl h

end Sys2Proof.Machine
end

