-- ==== Sys2Proof/Laws/Ops.lean ====
section
/-! SUPPORT. What each shared operation can do, said once: running a command on an instance, taking a request,
the transaction, a request, and a step; and the frames of the unit operations. -/

namespace Sys2Proof.Machine

/-- Everything `onUnit` can answer. -/
theorem onUnit_next {α : Type} (units : List α) (idx : Nat) (absent t : State) (perform : α → State) :
    onUnit units idx absent perform = .next t ↔
      (units[idx]? = none ∧ t = absent) ∨ ∃ u, units[idx]? = some u ∧ t = perform u := by
  unfold onUnit
  cases units[idx]? with
  | none => simp [eq_comm]
  | some u => simp [eq_comm]

theorem onUnit_some {α : Type} {units : List α} {idx : Nat} {u : α} (absent : State) (perform : α → State)
    (h : units[idx]? = some u) : onUnit units idx absent perform = .next (perform u) := by
  unfold onUnit; rw [h]

theorem onUnit_none {α : Type} {units : List α} {idx : Nat} (absent : State) (perform : α → State)
    (h : units[idx]? = none) : onUnit units idx absent perform = .next absent := by
  unfold onUnit; rw [h]

/-- The port that goes next has a request waiting. -/
theorem State.nextPort_pending (s : State) (p : Port) (h : s.nextPort = some p) :
    ∃ r rest, s.pending.get p = r :: rest := by
  unfold State.nextPort at h
  split at h
  · cases h
  · rename_i a b ha hb
    cases h; exact ⟨a, b, ha⟩
  · rename_i a b ha hb
    cases h; exact ⟨a, b, hb⟩
  · rename_i a b c d ha hb
    split at h <;> cases h
    · exact ⟨c, d, hb⟩
    · exact ⟨a, b, ha⟩

/-- No port goes next exactly when no request waits. -/
theorem State.nextPort_eq_none (s : State) :
    s.nextPort = none ↔ s.pending.ctrl = [] ∧ s.pending.audio = [] := by
  unfold State.nextPort
  split <;> simp_all

/-- Everything `takeRequest` can answer. -/
theorem State.takeRequest_eq_some (s s' : State) (p : Port) (r : Request) :
    s.takeRequest = some (p, r, s') ↔
      s.nextPort = some p ∧ ∃ rest, s.pending.get p = r :: rest ∧
        s' = s.taken p rest := by
  unfold State.takeRequest
  cases hn : s.nextPort with
  | none => simp
  | some q =>
    obtain ⟨r', rest, hp⟩ := s.nextPort_pending q hn
    simp only [hp]
    constructor
    · intro h
      injection h with h
      injection h with h1 h
      injection h with h2 h3
      subst h1 h2
      exact ⟨rfl, rest, hp, h3.symm⟩
    · rintro ⟨h1, rest', h2, h3⟩
      injection h1 with h1
      subst h1
      rw [hp] at h2
      injection h2 with h2 h4
      subst h2 h4
      rw [h3]

theorem State.takeRequest_eq_none (s : State) :
    s.takeRequest = none ↔ s.pending.ctrl = [] ∧ s.pending.audio = [] := by
  rw [← State.nextPort_eq_none]
  unfold State.takeRequest
  cases hn : s.nextPort with
  | none => simp
  | some q =>
    obtain ⟨r', rest, hp⟩ := s.nextPort_pending q hn
    simp [hp]

/-- Everything a transaction can answer (R100, R106). -/
theorem transact_next (p : Port) (cmd data : Word) (s t : State) (h : transact p cmd data s = .next t) :
    (∃ i, decode cmd = .ok i ∧ exec i (s.present p data) = .next t) ∨
    (∃ e, decode cmd = .error e ∧ t = (s.present p data).setIll) := by
  unfold transact at h
  cases hd : decode cmd with
  | ok i => rw [hd] at h; exact .inl ⟨i, rfl, h⟩
  | error e =>
    rw [hd] at h
    injection h with h
    exact .inr ⟨e, rfl, h.symm⟩

/-- Everything one request can answer: a transaction, or a change of DATA, STATUS or the agent's reply,
or nothing. -/
theorem serve_next (p : Port) (r : Request) (s t : State) (h : serve p r s = .next t) :
    (∃ q cmd data, transact q cmd data s = .next t) ∨ (∃ q w, t = s.setData q w) ∨ t = s.clearIll ∨
    (∃ bytes, t = { s with reply := bytes }) ∨ t = s := by
  unfold serve at h
  split at h
  · exact .inl ⟨_, _, _, h⟩
  · injection h with h
    subst h
    unfold State.busRead
    split
    · exact .inr (.inr (.inr (.inl ⟨_, rfl⟩)))
    · exact .inr (.inr (.inr (.inr rfl)))
  · unfold busWrite at h
    split at h
    · injection h with h; exact .inr (.inr (.inr (.inr h.symm)))
    · split at h
      · unfold writeReg at h
        split at h
        · injection h with h; exact .inr (.inl ⟨_, _, h.symm⟩)
        · exact .inl ⟨_, _, _, h⟩
        · injection h with h; exact .inr (.inr (.inr (.inr h.symm)))
        · injection h with h
          subst h
          unfold State.writeStatus
          split
          · exact .inr (.inr (.inl rfl))
          · exact .inr (.inr (.inr (.inr rfl)))
      · injection h with h; exact .inr (.inr (.inr (.inr h.symm)))

/-- Everything a step can answer. -/
theorem step_next (s t : State) (h : step s = .next t) :
    s.cfg.legal = true ∧
    ((s.takeRequest = none ∧ t = s) ∨
      ∃ p r s', s.takeRequest = some (p, r, s') ∧ serve p r s' = .next t) := by
  unfold step at h
  split at h
  · rename_i hl
    refine ⟨hl, ?_⟩
    unfold advance at h
    split at h
    · rename_i hn; injection h with h; exact .inl ⟨hn, h.symm⟩
    · rename_i p r s' hn; exact .inr ⟨p, r, s', hn, h⟩
  · cases h

/-- An invariant of the units that every command keeps is kept by every step: a step is otherwise a change
of registers, requests and replies only. -/
theorem step_keeps (P : State → Prop)
    (hframe : ∀ s t, t.cfg = s.cfg → State.SameUnits s t → P s → P t)
    (hexec : ∀ i s t, s.cfg.legal = true → P s → exec i s = .next t → P t) (s t : State) (hs : P s)
    (h : step s = .next t) : P t := by
  obtain ⟨hl, ⟨_, rfl⟩ | ⟨p, r, s', hq, hserve⟩⟩ := step_next s t h
  · exact hs
  · obtain ⟨_, rest, _, rfl⟩ := (State.takeRequest_eq_some s s' p r).1 hq
    have hs' : P (s.taken p rest) := hframe s _ rfl ⟨rfl, rfl, rfl, rfl, rfl, rfl⟩ hs
    have hl' : (s.taken p rest).cfg.legal = true := hl
    generalize s.taken p rest = u at hserve hs' hl'
    rcases serve_next _ _ _ _ hserve with ⟨q, cmd, data, ht⟩ | ⟨q, w, rfl⟩ | rfl | ⟨bytes, rfl⟩ | rfl
    · have hp : P (u.present q data) := hframe u _ rfl ⟨rfl, rfl, rfl, rfl, rfl, rfl⟩ hs'
      rcases transact_next _ _ _ _ _ ht with ⟨i, _, hi⟩ | ⟨e, _, rfl⟩
      · exact hexec i (u.present q data) t hl' hp hi
      · exact hframe (u.present q data) _ rfl ⟨rfl, rfl, rfl, rfl, rfl, rfl⟩ hp
    · exact hframe u _ rfl ⟨rfl, rfl, rfl, rfl, rfl, rfl⟩ hs'
    · exact hframe u _ rfl ⟨rfl, rfl, rfl, rfl, rfl, rfl⟩ hs'
    · exact hframe u _ rfl ⟨rfl, rfl, rfl, rfl, rfl, rfl⟩ hs'
    · exact hs'

/-- The sentinel returns the target and leaves the smoother (R140). -/
theorem Smoother.step_sentinel (nan : Word) (u : Smoother) (h : (F32.ofBits u.coeff).eq F32.zero = true) :
    u.step nan = (u.tgt, u) := by
  unfold Smoother.step; rw [if_pos h]

/-- A smoothing step changes at most the current value (R140). -/
@[simp] theorem Smoother.step_tgt (nan : Word) (u : Smoother) : (u.step nan).2.tgt = u.tgt := by
  unfold Smoother.step; split <;> rfl

@[simp] theorem Smoother.step_coeff (nan : Word) (u : Smoother) : (u.step nan).2.coeff = u.coeff := by
  unfold Smoother.step; split <;> rfl

@[simp] theorem Biquad.recompute_fc (f : F32) (nan : Site → Word) (c : Biquad) :
    (c.recompute f nan).fc = c.fc := rfl
@[simp] theorem Biquad.recompute_q (f : F32) (nan : Site → Word) (c : Biquad) :
    (c.recompute f nan).q = c.q := rfl
@[simp] theorem Biquad.recompute_mode (f : F32) (nan : Site → Word) (c : Biquad) :
    (c.recompute f nan).mode = c.mode := rfl
@[simp] theorem Biquad.recompute_x1 (f : F32) (nan : Site → Word) (c : Biquad) :
    (c.recompute f nan).x1 = c.x1 := rfl
@[simp] theorem Biquad.recompute_x2 (f : F32) (nan : Site → Word) (c : Biquad) :
    (c.recompute f nan).x2 = c.x2 := rfl
@[simp] theorem Biquad.recompute_y1 (f : F32) (nan : Site → Word) (c : Biquad) :
    (c.recompute f nan).y1 = c.y1 := rfl
@[simp] theorem Biquad.recompute_y2 (f : F32) (nan : Site → Word) (c : Biquad) :
    (c.recompute f nan).y2 = c.y2 := rfl

/-- What a command draws for a NaN is a NaN (R20). -/
@[simp] theorem State.ofBits_nan (s : State) (site : Site) : F32.ofBits (s.nan site) = .nan :=
  F32.isNanWord_nanWord _

/-- What reset draws for a NaN is a NaN (R20). -/
@[simp] theorem ofBits_resetNan (site : Site) : F32.ofBits (resetNan site) = .nan := F32.isNanWord_nanWord _

/-- A recomputed core is coherent where the words drawn for NaNs are NaNs (R38, R230). -/
theorem Biquad.coherent_recompute (f : F32) (nan : Site → Word) (c : Biquad)
    (hn : ∀ site, F32.ofBits (nan site) = .nan) : (c.recompute f nan).Coherent f := ⟨nan, hn, rfl⟩

@[simp] theorem Biquad.step_fc (n : Word) (c : Biquad) (x : Word) : (c.step n x).2.fc = c.fc := rfl
@[simp] theorem Biquad.step_q (n : Word) (c : Biquad) (x : Word) : (c.step n x).2.q = c.q := rfl
@[simp] theorem Biquad.step_mode (n : Word) (c : Biquad) (x : Word) : (c.step n x).2.mode = c.mode := rfl
@[simp] theorem Biquad.step_coeffs (n : Word) (c : Biquad) (x : Word) : (c.step n x).2.coeffs = c.coeffs := rfl
@[simp] theorem Biquad.step_x1 (n : Word) (c : Biquad) (x : Word) : (c.step n x).2.x1 = x := rfl
@[simp] theorem Biquad.step_x2 (n : Word) (c : Biquad) (x : Word) : (c.step n x).2.x2 = c.x1 := rfl
@[simp] theorem Biquad.step_y1 (n : Word) (c : Biquad) (x : Word) :
    (c.step n x).2.y1 = (c.step n x).1 := rfl
@[simp] theorem Biquad.step_y2 (n : Word) (c : Biquad) (x : Word) : (c.step n x).2.y2 = c.y1 := rfl

end Sys2Proof.Machine
end

