-- ==== Sys2Proof/Laws/Moves.lean ====
section
/-! SUPPORT. What a command can do to each unit, said once: for each unit the changes its commands make to one
instance, and that a command otherwise leaves the unit or resets the block.  An invariant of a unit is
proved by cases on these.  A computed setting is a word with an equation, so that comparing two records
never makes the kernel evaluate the arithmetic behind it. -/

namespace Sys2Proof.Machine

/-- The changes a command makes to `SMOOTH[idx]`. -/
inductive SmoothMove (s : State) (idx : Nat) (u : Smoother) : Instr → Smoother → Prop where
  | setTarget (h : s.operandF.isFinite = true) :
      SmoothMove s idx u (.smoothSetTarget idx) { u with tgt := s.operand }
  | get : SmoothMove s idx u (.smoothGet idx) (u.step (s.nan .cur)).2
  | setCoeff (h : (F32.zero.le s.operandF && s.operandF.lt F32.one) = true) :
      SmoothMove s idx u (.smoothSetCoeff idx) { u with coeff := s.operand }

/-- The changes a command makes to `OSC[idx]`. -/
inductive OscMove (s : State) (idx : Nat) (o : Osc) : Instr → Osc → Prop where
  | setFreq (h : (s.operandF.isFinite && F32.zero.lt s.operandF) = true) (w : Word)
      (hw : w = cycleLength s.cfg.fsF s.operandF) : OscMove s idx o (.oscSetFreq idx) { o with pend := w }
  | sample : OscMove s idx o (.oscSample idx) (o.sample (s.nan .result)).2
  | reset : OscMove s idx o (.oscReset idx) { o with phase := 0#32 }
  | setWave (w : Wave) (h : waveOf s.operandU = some w) :
      OscMove s idx o (.oscSetWave idx) { o with wave := w }
  | setDuty (h : s.operandF.isFinite = true) (w : Word)
      (hw : w = (s.operandF.clamp dutyMin dutyMax).toBits (s.nan .setting)) :
      OscMove s idx o (.oscSetDuty idx) { o with duty := w }

/-- The changes a command makes to `DELAY[idx]`. -/
inductive DelayMove (s : State) (idx : Nat) (d : Delay) : Instr → Delay → Prop where
  | setBeats (h : (s.operandF.isFinite && F32.zero.le s.operandF) = true) (w : Word)
      (hw : w = (delayTarget s.cfg s.operandF (F32.ofBits d.bpm)).toBits (s.nan .setting)) :
      DelayMove s idx d (.delaySetBeats idx)
        { d with beats := s.operand, sLen := { d.sLen with tgt := w } }
  | setBpm (h : (s.operandF.isFinite && F32.zero.lt s.operandF) = true) (w : Word)
      (hw : w = (delayTarget s.cfg (F32.ofBits d.beats) s.operandF).toBits (s.nan .setting)) :
      DelayMove s idx d (.delaySetBpm idx)
        { d with bpm := s.operand, sLen := { d.sLen with tgt := w } }
  | setFb (h : s.operandF.isFinite = true) (w : Word)
      (hw : w = (s.operandF.clamp F32.zero delayFbMax).toBits (s.nan .setting)) :
      DelayMove s idx d (.delaySetFb idx) { d with fb := w }
  | setWet (h : s.operandF.isFinite = true) (w : Word)
      (hw : w = (s.operandF.clamp F32.zero F32.one).toBits (s.nan .setting)) :
      DelayMove s idx d (.delaySetWet idx) { d with sWet := { d.sWet with tgt := w } }
  | process : DelayMove s idx d (.delayProcess idx) (d.process s.cfg s.nan s.operand).2

/-- The changes a command makes to `LADDER[idx]`. -/
inductive LadderMove (s : State) (idx : Nat) (l : Ladder) : Instr → Ladder → Prop where
  | setCutoff (h : s.operandF.isFinite = true) (w : Word)
      (hw : w = (s.cfg.clampLadderFc s.operandF).toBits (s.nan .setting)) :
      LadderMove s idx l (.ladderSetCutoff idx) { l with sFc := { l.sFc with tgt := w } }
  | setRes (h : s.operandF.isFinite = true) (w : Word)
      (hw : w = (s.operandF.clamp F32.zero (F32.ofBits s.cfg.ladderResMax)).toBits (s.nan .setting)) :
      LadderMove s idx l (.ladderSetRes idx) { l with sRes := { l.sRes with tgt := w } }
  | setMode (m : FilterMode) (h : modeOf s.operandU = some m) :
      LadderMove s idx l (.ladderSetMode idx) { l with mode := m }
  | process : LadderMove s idx l (.ladderProcess idx) (l.process s.cfg.fsF s.nan s.operandF).2

/-- The changes a command makes to `BIQUAD[idx]`. -/
inductive BiquadMove (s : State) (idx : Nat) (c : Biquad) : Instr → Biquad → Prop where
  | setCutoff (h : s.operandF.isFinite = true) (w : Word)
      (hw : w = (s.cfg.clampBqFc s.operandF).toBits (s.nan .setting)) :
      BiquadMove s idx c (.biquadSetCutoff idx) (Biquad.recompute s.cfg.fsF s.nan { c with fc := w })
  | setQ (h : s.operandF.isFinite = true) (w : Word)
      (hw : w = (s.cfg.clampBqQ s.operandF).toBits (s.nan .setting)) :
      BiquadMove s idx c (.biquadSetQ idx) (Biquad.recompute s.cfg.fsF s.nan { c with q := w })
  | setMode (m : FilterMode) (h : modeOf s.operandU = some m) : BiquadMove s idx c (.biquadSetMode idx)
      (Biquad.recompute s.cfg.fsF s.nan { c with mode := m })
  | process : BiquadMove s idx c (.biquadProcess idx) (c.step (s.nan .y) s.operand).2

/-- The changes a command makes to `REVERB[idx]`. -/
inductive ReverbMove (s : State) (idx : Nat) (rv : Reverb) : Instr → Reverb → Prop where
  | setRt60 (h : (s.operandF.isFinite && F32.zero.lt s.operandF) = true) (f : Four Word)
      (hf : f = Four.of fun k =>
        (rt60Feedback s.cfg s.operandF (s.cfg.combLen.get k)).toBits (s.nan (.combFb k))) :
      ReverbMove s idx rv (.reverbSetRt60 idx) { rv with fbc := f }
  | process : ReverbMove s idx rv (.reverbProcess idx) (rv.process s.cfg s.nan s.operandF).2

/-- Everything a command can answer, said once: nothing, silence from an instance that is not there, the two
SYS effects, or one move of one instance, with or without a result. -/
inductive ExecMove (s : State) (i : Instr) : State → Prop where
  | stay : ExecMove s i s
  | silence : ExecMove s i (s.setResult 0#32)
  | clear (h : i = .sysClrstat) : ExecMove s i s.clearIll
  | reset (h : i = .sysReset) : ExecMove s i s.blockReset
  | smooth (idx : Nat) (u u' : Smoother) (hu : s.smooth[idx]? = some u) (hm : SmoothMove s idx u i u') :
      ExecMove s i (s.putSmooth idx u')
  | smoothOut (idx : Nat) (u u' : Smoother) (w : Word) (hu : s.smooth[idx]? = some u)
      (hm : SmoothMove s idx u i u') : ExecMove s i ((s.putSmooth idx u').setResult w)
  | osc (idx : Nat) (u u' : Osc) (hu : s.osc[idx]? = some u) (hm : OscMove s idx u i u') :
      ExecMove s i (s.putOsc idx u')
  | oscOut (idx : Nat) (u u' : Osc) (w : Word) (hu : s.osc[idx]? = some u)
      (hm : OscMove s idx u i u') : ExecMove s i ((s.putOsc idx u').setResult w)
  | delay (idx : Nat) (u u' : Delay) (hu : s.delay[idx]? = some u) (hm : DelayMove s idx u i u') :
      ExecMove s i (s.putDelay idx u')
  | delayOut (idx : Nat) (u u' : Delay) (w : Word) (hu : s.delay[idx]? = some u)
      (hm : DelayMove s idx u i u') : ExecMove s i ((s.putDelay idx u').setResult w)
  | ladder (idx : Nat) (u u' : Ladder) (hu : s.ladder[idx]? = some u) (hm : LadderMove s idx u i u') :
      ExecMove s i (s.putLadder idx u')
  | ladderOut (idx : Nat) (u u' : Ladder) (w : Word) (hu : s.ladder[idx]? = some u)
      (hm : LadderMove s idx u i u') : ExecMove s i ((s.putLadder idx u').setResult w)
  | biquad (idx : Nat) (u u' : Biquad) (hu : s.biquad[idx]? = some u) (hm : BiquadMove s idx u i u') :
      ExecMove s i (s.putBiquad idx u')
  | biquadOut (idx : Nat) (u u' : Biquad) (w : Word) (hu : s.biquad[idx]? = some u)
      (hm : BiquadMove s idx u i u') : ExecMove s i ((s.putBiquad idx u').setResult w)
  | reverb (idx : Nat) (u u' : Reverb) (hu : s.reverb[idx]? = some u) (hm : ReverbMove s idx u i u') :
      ExecMove s i (s.putReverb idx u')
  | reverbOut (idx : Nat) (u u' : Reverb) (w : Word) (hu : s.reverb[idx]? = some u)
      (hm : ReverbMove s idx u i u') : ExecMove s i ((s.putReverb idx u').setResult w)

theorem exec_move (i : Instr) (s t : State) (h : exec i s = .next t) : ExecMove s i t := by
  cases i
  case sysNop => injection h with h; subst h; exact .stay
  case sysReset => injection h with h; subst h; exact .reset rfl
  case sysClrstat => injection h with h; subst h; exact .clear rfl
  case smoothSetTarget idx =>
    rcases (onUnit_next _ _ _ _ _).1 h with ⟨_, rfl⟩ | ⟨u, hu, rfl⟩
    · exact .stay
    · split
      · rename_i hc; exact .smooth idx u _ hu (.setTarget hc)
      · exact .stay
  case smoothSetCoeff idx =>
    rcases (onUnit_next _ _ _ _ _).1 h with ⟨_, rfl⟩ | ⟨u, hu, rfl⟩
    · exact .stay
    · split
      · rename_i hc; exact .smooth idx u _ hu (.setCoeff hc)
      · exact .stay
  case oscSetFreq idx =>
    rcases (onUnit_next _ _ _ _ _).1 h with ⟨_, rfl⟩ | ⟨u, hu, rfl⟩
    · exact .stay
    · split
      · rename_i hc; exact .osc idx u _ hu (.setFreq hc _ rfl)
      · exact .stay
  case oscSetDuty idx =>
    rcases (onUnit_next _ _ _ _ _).1 h with ⟨_, rfl⟩ | ⟨u, hu, rfl⟩
    · exact .stay
    · split
      · rename_i hc; exact .osc idx u _ hu (.setDuty hc _ rfl)
      · exact .stay
  case oscSetWave idx =>
    rcases (onUnit_next _ _ _ _ _).1 h with ⟨_, rfl⟩ | ⟨u, hu, rfl⟩
    · exact .stay
    · split
      · rename_i m hm; exact .osc idx u _ hu (.setWave m hm)
      · exact .stay
  case oscReset idx =>
    rcases (onUnit_next _ _ _ _ _).1 h with ⟨_, rfl⟩ | ⟨u, hu, rfl⟩
    · exact .stay
    · exact .osc idx u _ hu .reset
  case delaySetBeats idx =>
    rcases (onUnit_next _ _ _ _ _).1 h with ⟨_, rfl⟩ | ⟨u, hu, rfl⟩
    · exact .stay
    · split
      · rename_i hc; exact .delay idx u _ hu (.setBeats hc _ rfl)
      · exact .stay
  case delaySetBpm idx =>
    rcases (onUnit_next _ _ _ _ _).1 h with ⟨_, rfl⟩ | ⟨u, hu, rfl⟩
    · exact .stay
    · split
      · rename_i hc; exact .delay idx u _ hu (.setBpm hc _ rfl)
      · exact .stay
  case delaySetFb idx =>
    rcases (onUnit_next _ _ _ _ _).1 h with ⟨_, rfl⟩ | ⟨u, hu, rfl⟩
    · exact .stay
    · split
      · rename_i hc; exact .delay idx u _ hu (.setFb hc _ rfl)
      · exact .stay
  case delaySetWet idx =>
    rcases (onUnit_next _ _ _ _ _).1 h with ⟨_, rfl⟩ | ⟨u, hu, rfl⟩
    · exact .stay
    · split
      · rename_i hc; exact .delay idx u _ hu (.setWet hc _ rfl)
      · exact .stay
  case ladderSetCutoff idx =>
    rcases (onUnit_next _ _ _ _ _).1 h with ⟨_, rfl⟩ | ⟨u, hu, rfl⟩
    · exact .stay
    · split
      · rename_i hc; exact .ladder idx u _ hu (.setCutoff hc _ rfl)
      · exact .stay
  case ladderSetRes idx =>
    rcases (onUnit_next _ _ _ _ _).1 h with ⟨_, rfl⟩ | ⟨u, hu, rfl⟩
    · exact .stay
    · split
      · rename_i hc; exact .ladder idx u _ hu (.setRes hc _ rfl)
      · exact .stay
  case ladderSetMode idx =>
    rcases (onUnit_next _ _ _ _ _).1 h with ⟨_, rfl⟩ | ⟨u, hu, rfl⟩
    · exact .stay
    · split
      · rename_i m hm; exact .ladder idx u _ hu (.setMode m hm)
      · exact .stay
  case biquadSetCutoff idx =>
    rcases (onUnit_next _ _ _ _ _).1 h with ⟨_, rfl⟩ | ⟨u, hu, rfl⟩
    · exact .stay
    · split
      · rename_i hc; exact .biquad idx u _ hu (.setCutoff hc _ rfl)
      · exact .stay
  case biquadSetQ idx =>
    rcases (onUnit_next _ _ _ _ _).1 h with ⟨_, rfl⟩ | ⟨u, hu, rfl⟩
    · exact .stay
    · split
      · rename_i hc; exact .biquad idx u _ hu (.setQ hc _ rfl)
      · exact .stay
  case biquadSetMode idx =>
    rcases (onUnit_next _ _ _ _ _).1 h with ⟨_, rfl⟩ | ⟨u, hu, rfl⟩
    · exact .stay
    · split
      · rename_i m hm; exact .biquad idx u _ hu (.setMode m hm)
      · exact .stay
  case reverbSetRt60 idx =>
    rcases (onUnit_next _ _ _ _ _).1 h with ⟨_, rfl⟩ | ⟨u, hu, rfl⟩
    · exact .stay
    · split
      · rename_i hc; exact .reverb idx u _ hu (.setRt60 hc _ rfl)
      · exact .stay
  case smoothGet idx =>
    rcases (onUnit_next _ _ _ _ _).1 h with ⟨_, rfl⟩ | ⟨u, hu, rfl⟩
    · exact .silence
    · exact .smoothOut idx u _ _ hu .get
  case oscSample idx =>
    rcases (onUnit_next _ _ _ _ _).1 h with ⟨_, rfl⟩ | ⟨u, hu, rfl⟩
    · exact .silence
    · exact .oscOut idx u _ _ hu .sample
  case delayProcess idx =>
    rcases (onUnit_next _ _ _ _ _).1 h with ⟨_, rfl⟩ | ⟨u, hu, rfl⟩
    · exact .silence
    · exact .delayOut idx u _ _ hu .process
  case ladderProcess idx =>
    rcases (onUnit_next _ _ _ _ _).1 h with ⟨_, rfl⟩ | ⟨u, hu, rfl⟩
    · exact .silence
    · exact .ladderOut idx u _ _ hu .process
  case biquadProcess idx =>
    rcases (onUnit_next _ _ _ _ _).1 h with ⟨_, rfl⟩ | ⟨u, hu, rfl⟩
    · exact .silence
    · exact .biquadOut idx u _ _ hu .process
  case reverbProcess idx =>
    rcases (onUnit_next _ _ _ _ _).1 h with ⟨_, rfl⟩ | ⟨u, hu, rfl⟩
    · exact .silence
    · exact .reverbOut idx u _ _ hu .process

/-- No command changes the fields that are not the block's own. -/
theorem exec_model_fields (i : Instr) (s t : State) (h : exec i s = .next t) :
    t.cfg = s.cfg ∧ t.pending = s.pending ∧ t.reply = s.reply ∧ t.port = s.port ∧ t.draws = s.draws := by
  cases exec_move i s t h <;> exact ⟨rfl, rfl, rfl, rfl, rfl⟩

/-- A unit after a command: untouched, reset with the block, or changed in one instance by a move. -/
def UnitAfter {α : Type} (i : Instr) (before after fresh : List α) (move : Nat → α → Instr → α → Prop) : Prop :=
  after = before ∨ (i = .sysReset ∧ after = fresh) ∨
    ∃ idx u u', before[idx]? = some u ∧ after = before.set idx u' ∧ move idx u i u'

theorem exec_smooth (i : Instr) (s t : State) (h : exec i s = .next t) :
    UnitAfter i s.smooth t.smooth (State.resetOf s.cfg).smooth (fun idx u i u' => SmoothMove s idx u i u') := by
  cases exec_move i s t h
  case reset hi => exact .inr (.inl ⟨hi, rfl⟩)
  case smooth idx u u' hu hm => exact .inr (.inr ⟨idx, u, u', hu, rfl, hm⟩)
  case smoothOut idx u u' w hu hm => exact .inr (.inr ⟨idx, u, u', hu, rfl, hm⟩)
  all_goals exact .inl rfl

theorem exec_osc (i : Instr) (s t : State) (h : exec i s = .next t) :
    UnitAfter i s.osc t.osc (State.resetOf s.cfg).osc (fun idx u i u' => OscMove s idx u i u') := by
  cases exec_move i s t h
  case reset hi => exact .inr (.inl ⟨hi, rfl⟩)
  case osc idx u u' hu hm => exact .inr (.inr ⟨idx, u, u', hu, rfl, hm⟩)
  case oscOut idx u u' w hu hm => exact .inr (.inr ⟨idx, u, u', hu, rfl, hm⟩)
  all_goals exact .inl rfl

theorem exec_delay (i : Instr) (s t : State) (h : exec i s = .next t) :
    UnitAfter i s.delay t.delay (State.resetOf s.cfg).delay (fun idx u i u' => DelayMove s idx u i u') := by
  cases exec_move i s t h
  case reset hi => exact .inr (.inl ⟨hi, rfl⟩)
  case delay idx u u' hu hm => exact .inr (.inr ⟨idx, u, u', hu, rfl, hm⟩)
  case delayOut idx u u' w hu hm => exact .inr (.inr ⟨idx, u, u', hu, rfl, hm⟩)
  all_goals exact .inl rfl

theorem exec_ladder (i : Instr) (s t : State) (h : exec i s = .next t) :
    UnitAfter i s.ladder t.ladder (State.resetOf s.cfg).ladder (fun idx u i u' => LadderMove s idx u i u') := by
  cases exec_move i s t h
  case reset hi => exact .inr (.inl ⟨hi, rfl⟩)
  case ladder idx u u' hu hm => exact .inr (.inr ⟨idx, u, u', hu, rfl, hm⟩)
  case ladderOut idx u u' w hu hm => exact .inr (.inr ⟨idx, u, u', hu, rfl, hm⟩)
  all_goals exact .inl rfl

theorem exec_biquad (i : Instr) (s t : State) (h : exec i s = .next t) :
    UnitAfter i s.biquad t.biquad (State.resetOf s.cfg).biquad (fun idx u i u' => BiquadMove s idx u i u') := by
  cases exec_move i s t h
  case reset hi => exact .inr (.inl ⟨hi, rfl⟩)
  case biquad idx u u' hu hm => exact .inr (.inr ⟨idx, u, u', hu, rfl, hm⟩)
  case biquadOut idx u u' w hu hm => exact .inr (.inr ⟨idx, u, u', hu, rfl, hm⟩)
  all_goals exact .inl rfl

theorem exec_reverb (i : Instr) (s t : State) (h : exec i s = .next t) :
    UnitAfter i s.reverb t.reverb (State.resetOf s.cfg).reverb (fun idx u i u' => ReverbMove s idx u i u') := by
  cases exec_move i s t h
  case reset hi => exact .inr (.inl ⟨hi, rfl⟩)
  case reverb idx u u' hu hm => exact .inr (.inr ⟨idx, u, u', hu, rfl, hm⟩)
  case reverbOut idx u u' w hu hm => exact .inr (.inr ⟨idx, u, u', hu, rfl, hm⟩)
  all_goals exact .inl rfl

/-- A property of every instance of a unit is kept where the fresh instances and every move keep it. -/
theorem UnitAfter.forall {α : Type} {i : Instr} {before after fresh : List α}
    {move : Nat → α → Instr → α → Prop} (h : UnitAfter i before after fresh move) (Q : α → Prop)
    (hb : ∀ u ∈ before, Q u) (hf : ∀ u ∈ fresh, Q u)
    (hm : ∀ idx u u', u ∈ before → Q u → move idx u i u' → Q u') : ∀ u ∈ after, Q u := by
  rcases h with rfl | ⟨_, rfl⟩ | ⟨idx, u, u', hu, rfl, hmv⟩
  · exact hb
  · exact hf
  · intro v hv
    rcases List.mem_or_eq_of_mem_set hv with hv | rfl
    · exact hb v hv
    · have hmem : u ∈ before := List.mem_of_getElem? hu
      exact hm idx u v hmem (hb u hmem) hmv

end Sys2Proof.Machine
end

