-- ==== Sys2Proof/Laws/PerInstr.lean ====
section
/-! SUPPORT. The per-instruction family: every command's UNIT and OP codes fit their fields, and its row of the
opcode map (spec/30_encoding.md R110) reads back as that command. -/

namespace Sys2Proof.Laws.CodesFit

/-- The command's (UNIT, OP) pair is assigned, fits its fields, and names the command. -/
def Statement (i : Instr) : Prop :=
  i.unitOp.1 < 7 ∧ i.unitOp.2 < 5 ∧ decodePair i.unitOp.1 i.unitOp.2 i.idx = .ok i

theorem sysNop : Statement (.sysNop) := ⟨by decide, by decide, rfl⟩
theorem sysReset : Statement (.sysReset) := ⟨by decide, by decide, rfl⟩
theorem sysClrstat : Statement (.sysClrstat) := ⟨by decide, by decide, rfl⟩
theorem smoothSetTarget (idx : Nat) : Statement (.smoothSetTarget idx) := ⟨by simp [Instr.unitOp], by simp [Instr.unitOp], rfl⟩
theorem smoothGet (idx : Nat) : Statement (.smoothGet idx) := ⟨by simp [Instr.unitOp], by simp [Instr.unitOp], rfl⟩
theorem smoothSetCoeff (idx : Nat) : Statement (.smoothSetCoeff idx) := ⟨by simp [Instr.unitOp], by simp [Instr.unitOp], rfl⟩
theorem oscSetFreq (idx : Nat) : Statement (.oscSetFreq idx) := ⟨by simp [Instr.unitOp], by simp [Instr.unitOp], rfl⟩
theorem oscSample (idx : Nat) : Statement (.oscSample idx) := ⟨by simp [Instr.unitOp], by simp [Instr.unitOp], rfl⟩
theorem oscReset (idx : Nat) : Statement (.oscReset idx) := ⟨by simp [Instr.unitOp], by simp [Instr.unitOp], rfl⟩
theorem oscSetWave (idx : Nat) : Statement (.oscSetWave idx) := ⟨by simp [Instr.unitOp], by simp [Instr.unitOp], rfl⟩
theorem oscSetDuty (idx : Nat) : Statement (.oscSetDuty idx) := ⟨by simp [Instr.unitOp], by simp [Instr.unitOp], rfl⟩
theorem delaySetBeats (idx : Nat) : Statement (.delaySetBeats idx) := ⟨by simp [Instr.unitOp], by simp [Instr.unitOp], rfl⟩
theorem delaySetBpm (idx : Nat) : Statement (.delaySetBpm idx) := ⟨by simp [Instr.unitOp], by simp [Instr.unitOp], rfl⟩
theorem delaySetFb (idx : Nat) : Statement (.delaySetFb idx) := ⟨by simp [Instr.unitOp], by simp [Instr.unitOp], rfl⟩
theorem delaySetWet (idx : Nat) : Statement (.delaySetWet idx) := ⟨by simp [Instr.unitOp], by simp [Instr.unitOp], rfl⟩
theorem delayProcess (idx : Nat) : Statement (.delayProcess idx) := ⟨by simp [Instr.unitOp], by simp [Instr.unitOp], rfl⟩
theorem ladderSetCutoff (idx : Nat) : Statement (.ladderSetCutoff idx) := ⟨by simp [Instr.unitOp], by simp [Instr.unitOp], rfl⟩
theorem ladderSetRes (idx : Nat) : Statement (.ladderSetRes idx) := ⟨by simp [Instr.unitOp], by simp [Instr.unitOp], rfl⟩
theorem ladderSetMode (idx : Nat) : Statement (.ladderSetMode idx) := ⟨by simp [Instr.unitOp], by simp [Instr.unitOp], rfl⟩
theorem ladderProcess (idx : Nat) : Statement (.ladderProcess idx) := ⟨by simp [Instr.unitOp], by simp [Instr.unitOp], rfl⟩
theorem biquadSetCutoff (idx : Nat) : Statement (.biquadSetCutoff idx) := ⟨by simp [Instr.unitOp], by simp [Instr.unitOp], rfl⟩
theorem biquadSetQ (idx : Nat) : Statement (.biquadSetQ idx) := ⟨by simp [Instr.unitOp], by simp [Instr.unitOp], rfl⟩
theorem biquadSetMode (idx : Nat) : Statement (.biquadSetMode idx) := ⟨by simp [Instr.unitOp], by simp [Instr.unitOp], rfl⟩
theorem biquadProcess (idx : Nat) : Statement (.biquadProcess idx) := ⟨by simp [Instr.unitOp], by simp [Instr.unitOp], rfl⟩
theorem reverbSetRt60 (idx : Nat) : Statement (.reverbSetRt60 idx) := ⟨by simp [Instr.unitOp], by simp [Instr.unitOp], rfl⟩
theorem reverbProcess (idx : Nat) : Statement (.reverbProcess idx) := ⟨by simp [Instr.unitOp], by simp [Instr.unitOp], rfl⟩

end Sys2Proof.Laws.CodesFit
end

