-- ==== Sys2Proof/Laws/Units.lean ====
section
/-! SUPPORT. What the per-sample steps of the units leave unchanged, and their two outcomes. -/

namespace Sys2Proof.Machine

@[simp] theorem Osc.commit_phase (o : Osc) : o.commit.phase = o.phase := by
  unfold Osc.commit; split <;> rfl
@[simp] theorem Osc.commit_pend (o : Osc) : o.commit.pend = o.pend := by
  unfold Osc.commit; split <;> rfl
@[simp] theorem Osc.commit_wave (o : Osc) : o.commit.wave = o.wave := by
  unfold Osc.commit; split <;> rfl
@[simp] theorem Osc.commit_duty (o : Osc) : o.commit.duty = o.duty := by
  unfold Osc.commit; split <;> rfl

/-- At phase 0 the pending length is committed, elsewhere the length is kept (R161). -/
theorem Osc.commit_cyc (o : Osc) : o.commit.cyc = if o.phase = 0#32 then o.pend else o.cyc := by
  unfold Osc.commit; split <;> rfl

@[simp] theorem Osc.advance_cyc (o : Osc) : o.advance.cyc = o.cyc := rfl

/-- A zero cycle length is silence, and the oscillator only commits (R161). -/
theorem Osc.sample_silent (n : Word) (o : Osc) (h : o.commit.cyc = 0#32) :
    o.sample n = (0#32, o.commit) := by
  unfold Osc.sample; simp only [h, if_true]

/-- Any other length gives the waveform's value and advances the phase (R161). -/
theorem Osc.sample_sounding (n : Word) (o : Osc) (h : o.commit.cyc ≠ 0#32) :
    o.sample n = ((waveValue o.wave (F32.ofNat o.phase.toNat) (F32.ofNat o.commit.cyc.toNat)
      (F32.ofBits o.duty)).toBits n, o.commit.advance) := by
  unfold Osc.sample; simp only [h, if_false, commit_phase, commit_wave, commit_duty]

/-- The oscillator after a sample step. -/
theorem Osc.sample_snd (n : Word) (o : Osc) :
    (o.sample n).2 = if o.commit.cyc = 0#32 then o.commit else o.commit.advance := by
  unfold Osc.sample
  by_cases h : o.commit.cyc = 0#32 <;> simp only [h, if_true, if_false]

@[simp] theorem Osc.sample_pend (n : Word) (o : Osc) : (o.sample n).2.pend = o.pend := by
  rw [Osc.sample_snd]; split <;> simp [Osc.advance]
@[simp] theorem Osc.sample_wave (n : Word) (o : Osc) : (o.sample n).2.wave = o.wave := by
  rw [Osc.sample_snd]; split <;> simp [Osc.advance]
@[simp] theorem Osc.sample_duty (n : Word) (o : Osc) : (o.sample n).2.duty = o.duty := by
  rw [Osc.sample_snd]; split <;> simp [Osc.advance]

/-- Below one sample the input is returned and only the smoothed length has stepped (R195). -/
theorem Delay.process_short (c : Params) (nan : Site → Word) (d : Delay) (x : Word)
    (h : F32.one.le (F32.ofBits (d.sLen.step (nan .len)).1) = false) :
    d.process c nan x = ((F32.ofBits x).toBits (nan .result), { d with sLen := (d.sLen.step (nan .len)).2 }) := by
  unfold Delay.process; simp only [h, Bool.false_eq_true, if_false]

/-- From one sample on, the line is tapped, fed back and mixed (R195). -/
theorem Delay.process_long (c : Params) (nan : Site → Word) (d : Delay) (x : Word)
    (h : F32.one.le (F32.ofBits (d.sLen.step (nan .len)).1) = true) :
    d.process c nan x = Delay.echo c nan { d with sLen := (d.sLen.step (nan .len)).2 }
      (tapDelay c (F32.ofBits (d.sLen.step (nan .len)).1)) x := by
  unfold Delay.process; simp only [h, if_true]

@[simp] theorem Delay.process_sLen (c : Params) (nan : Site → Word) (d : Delay) (x : Word) :
    (d.process c nan x).2.sLen = (d.sLen.step (nan .len)).2 := by
  unfold Delay.process; simp only; split <;> rfl
@[simp] theorem Delay.process_beats (c : Params) (nan : Site → Word) (d : Delay) (x : Word) :
    (d.process c nan x).2.beats = d.beats := by
  unfold Delay.process; simp only; split <;> rfl
@[simp] theorem Delay.process_bpm (c : Params) (nan : Site → Word) (d : Delay) (x : Word) :
    (d.process c nan x).2.bpm = d.bpm := by
  unfold Delay.process; simp only; split <;> rfl
@[simp] theorem Delay.process_fb (c : Params) (nan : Site → Word) (d : Delay) (x : Word) :
    (d.process c nan x).2.fb = d.fb := by
  unfold Delay.process; simp only; split <;> rfl

theorem Delay.process_sWet (c : Params) (nan : Site → Word) (d : Delay) (x : Word) :
    (d.process c nan x).2.sWet = d.sWet ∨ (d.process c nan x).2.sWet = (d.sWet.step (nan .wet)).2 := by
  unfold Delay.process; simp only; split
  · exact .inr rfl
  · exact .inl rfl

/-- The ring after a per-sample step is the ring before it, or one write on. -/
theorem Delay.process_ring (c : Params) (nan : Site → Word) (d : Delay) (x : Word) :
    (d.process c nan x).2.ring = d.ring ∨ ∃ v, (d.process c nan x).2.ring = d.ring.write c.nDbuf v := by
  unfold Delay.process; simp only; split
  · exact .inr ⟨_, rfl⟩
  · exact .inl rfl

/-- The lowpass after a per-sample step is the lowpass before it, or one step on. -/
theorem Delay.process_lp (c : Params) (nan : Site → Word) (d : Delay) (x : Word) :
    (d.process c nan x).2.lp = d.lp ∨ ∃ v, (d.process c nan x).2.lp = (d.lp.step (nan .y) v).2 := by
  unfold Delay.process; simp only; split
  · unfold Delay.echo Delay.filter; simp only; split
    · exact .inr ⟨_, rfl⟩
    · exact .inl rfl
  · exact .inl rfl

@[simp] theorem Ladder.process_sFc (f : F32) (nan : Site → Word) (l : Ladder) (x : F32) :
    (l.process f nan x).2.sFc = (l.sFc.step (nan .cur)).2 := rfl
@[simp] theorem Ladder.process_sRes (f : F32) (nan : Site → Word) (l : Ladder) (x : F32) :
    (l.process f nan x).2.sRes = (l.sRes.step (nan .res)).2 := rfl
@[simp] theorem Ladder.process_mode (f : F32) (nan : Site → Word) (l : Ladder) (x : F32) :
    (l.process f nan x).2.mode = l.mode := rfl

@[simp] theorem Reverb.process_fbc (c : Params) (nan : Site → Word) (rv : Reverb) (x : F32) :
    (rv.process c nan x).2.fbc = rv.fbc := rfl

/-- Each comb line after a per-sample step is one write on (R250). -/
theorem Reverb.process_comb (c : Params) (nan : Site → Word) (rv : Reverb) (x : F32) (k : Fin 4) :
    ∃ v, (rv.process c nan x).2.comb.get k = (rv.comb.get k).write (c.combLen.get k) v := by
  match k with
  | 0 => exact ⟨_, rfl⟩
  | 1 => exact ⟨_, rfl⟩
  | 2 => exact ⟨_, rfl⟩
  | 3 => exact ⟨_, rfl⟩

/-- Each all-pass line after a per-sample step is one write on (R251). -/
theorem Reverb.process_ap (c : Params) (nan : Site → Word) (rv : Reverb) (x : F32) (k : Fin 4) :
    ∃ v, (rv.process c nan x).2.ap.get k = (rv.ap.get k).write (c.apLen.get k) v := by
  match k with
  | 0 => exact ⟨_, rfl⟩
  | 1 => exact ⟨_, rfl⟩
  | 2 => exact ⟨_, rfl⟩
  | 3 => exact ⟨_, rfl⟩

end Sys2Proof.Machine
end

