-- ==== Sys2Proof/Machine/Assembler.lean ====
section
/-! DEFINITION. The assembler of spec/30_encoding.md R112 and R113: one line of text to the command word and
the data word, and the listing form.  It is a host tool: no step of the machine calls it.  What R112 leaves open of the
text is a DESIGN CHOICE (notes/assumptions/16.md). -/

namespace Sys2Proof

/-- The command a mnemonic in lower case names, on instance `idx` (R110, R112), with the two
pseudo-instructions of R113. -/
def mnemonicOf (name : List Char) (idx : Nat) : Option Instr :=
  if name = "sys.nop".toList ∨ name = "nop".toList then some .sysNop
  else if name = "sys.reset".toList ∨ name = "reset".toList then some .sysReset
  else if name = "sys.clrstat".toList then some .sysClrstat
  else if name = "smooth.settarget".toList then some (.smoothSetTarget idx)
  else if name = "smooth.get".toList then some (.smoothGet idx)
  else if name = "smooth.setcoeff".toList then some (.smoothSetCoeff idx)
  else if name = "osc.setfreq".toList then some (.oscSetFreq idx)
  else if name = "osc.sample".toList then some (.oscSample idx)
  else if name = "osc.reset".toList then some (.oscReset idx)
  else if name = "osc.setwave".toList then some (.oscSetWave idx)
  else if name = "osc.setduty".toList then some (.oscSetDuty idx)
  else if name = "delay.setbeats".toList then some (.delaySetBeats idx)
  else if name = "delay.setbpm".toList then some (.delaySetBpm idx)
  else if name = "delay.setfb".toList then some (.delaySetFb idx)
  else if name = "delay.setwet".toList then some (.delaySetWet idx)
  else if name = "delay.process".toList then some (.delayProcess idx)
  else if name = "ladder.setcutoff".toList then some (.ladderSetCutoff idx)
  else if name = "ladder.setres".toList then some (.ladderSetRes idx)
  else if name = "ladder.setmode".toList then some (.ladderSetMode idx)
  else if name = "ladder.process".toList then some (.ladderProcess idx)
  else if name = "biquad.setcutoff".toList then some (.biquadSetCutoff idx)
  else if name = "biquad.setq".toList then some (.biquadSetQ idx)
  else if name = "biquad.setmode".toList then some (.biquadSetMode idx)
  else if name = "biquad.process".toList then some (.biquadProcess idx)
  else if name = "reverb.setrt60".toList then some (.reverbSetRt60 idx)
  else if name = "reverb.process".toList then some (.reverbProcess idx)
  else none

/-- The value of a digit in base 16, in either case. -/
def digitOf (ch : Char) : Option Nat :=
  let n := ch.toNat
  if 48 ≤ n ∧ n ≤ 57 then some (n - 48)
  else if 97 ≤ n ∧ n ≤ 102 then some (n - 87)
  else if 65 ≤ n ∧ n ≤ 70 then some (n - 55)
  else none

/-- The value of a run of digits in a base, most significant first, added to `acc`. -/
def digitsFrom (base acc : Nat) : List Char → Option Nat
  | [] => some acc
  | ch :: rest =>
    match digitOf ch with
    | some d => if d < base then digitsFrom base (acc * base + d) rest else none
    | none => none

/-- A number of at least one digit in a base. -/
def digits (base : Nat) (cs : List Char) : Option Nat :=
  if cs = [] then none else digitsFrom base 0 cs

/-- The text split at the first character satisfying `p`: what precedes it, and what follows it. -/
def splitAtFirst (p : Char → Bool) : List Char → List Char × Option (List Char)
  | [] => ([], none)
  | ch :: rest =>
    if p ch then ([], some rest)
    else (ch :: (splitAtFirst p rest).1, (splitAtFirst p rest).2)

/-- The text without leading and trailing blanks. -/
def trimBlanks (cs : List Char) : List Char :=
  ((cs.dropWhile (·.isWhitespace)).reverse.dropWhile (·.isWhitespace)).reverse

/-- An optional sign, true for minus, and the rest. -/
def signPart : List Char → Bool × List Char
  | '-' :: rest => (true, rest)
  | '+' :: rest => (false, rest)
  | cs => (false, cs)

/-- The decimal exponent of a literal: none where it is malformed, 0 where there is none. -/
def exponentPart : Option (List Char) → Option (Bool × Nat)
  | none => some (false, 0)
  | some cs => (digits 10 (signPart cs).2).map fun n => ((signPart cs).1, n)

/-- A decimal floating-point literal as its nearest binary32 value (R16, R112). -/
def floatLiteral (cs : List Char) : Option F32 :=
  let body := splitAtFirst (fun ch => ch = 'e' || ch = 'E') (signPart cs).2
  let parts := splitAtFirst (fun ch => ch = '.') body.1
  let frac := parts.2.getD []
  match digits 10 (parts.1 ++ frac), exponentPart body.2 with
  | some m, some (expNeg, e) =>
    let num := if expNeg then m else m * 10 ^ e
    let den := 10 ^ frac.length * (if expNeg then 10 ^ e else 1)
    some (F32.round (signPart cs).1 (num * F32.one149) den)
  | _, _ => none

/-- An F operand: `0x` and 8 hex digits for raw bits, else a decimal literal (R112). -/
def operandTextF (cs : List Char) : Option Word :=
  match cs with
  | '0' :: 'x' :: rest => if rest.length = 8 then (digits 16 rest).map (BitVec.ofNat 32) else none
  | _ => (floatLiteral cs).map (F32.toBits 0#32)

/-- A U operand: a name of R112, or an unsigned decimal or hex literal of 32 bits. -/
def operandTextU (cs : List Char) : Option Word :=
  if cs = "saw".toList ∨ cs = "lp".toList then some 0#32
  else if cs = "sine".toList ∨ cs = "hp".toList then some 1#32
  else if cs = "square".toList then some 2#32
  else if cs = "triangle".toList then some 3#32
  else
    let n := match cs with
      | '0' :: 'x' :: rest => digits 16 rest
      | _ => digits 10 cs
    match n with
    | some v => if v < 2 ^ 32 then some (BitVec.ofNat 32 v) else none
    | none => none

/-- The data word of a command from its operand text: required for forms F and U, absent for form none,
whose data word is 0 (R112). -/
def dataText (i : Instr) (operand : Option (List Char)) : Option Word :=
  match i.operandForm, operand with
  | .f, some cs => operandTextF (trimBlanks cs)
  | .u, some cs => operandTextU (trimBlanks cs)
  | .none, none => some 0#32
  | _, _ => none

/-- One line of assembler text to its command and data words (R112, R113).  A line that would name a
reserved word or an instance above 255 does not assemble. -/
def assemble (line : List Char) : Option (Word × Word) :=
  let code := trimBlanks (splitAtFirst (fun ch => ch = ';') line).1
  let halves := splitAtFirst (fun ch => ch = ',') code
  let head := splitAtFirst (·.isWhitespace) (trimBlanks halves.1)
  let idx := match head.2 with
    | none => some 0
    | some cs => digits 10 (trimBlanks cs)
  match idx with
  | none => none
  | some n =>
    match mnemonicOf (head.1.map Char.toLower) n with
    | none => none
    | some i =>
      if n < 256 ∧ i.idx = n then (dataText i halves.2).map fun d => (encode i, d) else none

/-- A word as 8 hex digits. -/
def hexWord (w : Word) : List Char :=
  [7, 6, 5, 4, 3, 2, 1, 0].map fun k =>
    let d := w.toNat / 16 ^ k % 16
    Char.ofNat (if d < 10 then 48 + d else 55 + d)

/-- The listing form of an assembled command: `<cmd word hex> <data word hex>` (R112). -/
def listing (code : Word × Word) : List Char := hexWord code.1 ++ ' ' :: hexWord code.2

end Sys2Proof
end

