-- ==== Sys2Proof/Tests/Slice0.lean ====
section
/-! SUPPORT. Tests, each naming the vector of spec/95_test_vectors.md or the rule it takes its expected result
from, and a witness of the hypotheses of each statement that has any. -/

namespace Sys2Proof.Tests

open Sys2Proof.Machine

/-! ### Well-formedness: the one check refuses an instance number that does not fit IDX (R101, R104). -/

theorem test_ill_formed_index_256 : (Instr.oscSample 256).wellFormed = false := by decide
theorem test_well_formed_index_255 : (Instr.biquadProcess 255).wellFormed = true := by decide

/-! ### Decoding: words written out from R101 and R110, and V-EN-1 to V-EN-3. -/

theorem test_decode_sys : decode 0x00000000#32 = .ok .sysNop ∧ decode 0x01000000#32 = .ok .sysReset ∧
    decode 0x02000000#32 = .ok .sysClrstat := ⟨rfl, rfl, rfl⟩
theorem test_decode_smooth : decode 0x10050000#32 = .ok (.smoothSetTarget 5) ∧
    decode 0x11050000#32 = .ok (.smoothGet 5) ∧ decode 0x12050000#32 = .ok (.smoothSetCoeff 5) :=
  ⟨rfl, rfl, rfl⟩
theorem test_decode_osc : decode 0x20010000#32 = .ok (.oscSetFreq 1) ∧
    decode 0x21010000#32 = .ok (.oscSample 1) ∧ decode 0x22010000#32 = .ok (.oscReset 1) ∧
    decode 0x23010000#32 = .ok (.oscSetWave 1) ∧ decode 0x24010000#32 = .ok (.oscSetDuty 1) :=
  ⟨rfl, rfl, rfl, rfl, rfl⟩
theorem test_decode_delay : decode 0x30FF0000#32 = .ok (.delaySetBeats 255) ∧
    decode 0x31FF0000#32 = .ok (.delaySetBpm 255) ∧ decode 0x32FF0000#32 = .ok (.delaySetFb 255) ∧
    decode 0x33FF0000#32 = .ok (.delaySetWet 255) ∧ decode 0x34FF0000#32 = .ok (.delayProcess 255) :=
  ⟨rfl, rfl, rfl, rfl, rfl⟩
theorem test_decode_ladder : decode 0x40800000#32 = .ok (.ladderSetCutoff 128) ∧
    decode 0x41800000#32 = .ok (.ladderSetRes 128) ∧ decode 0x42800000#32 = .ok (.ladderSetMode 128) ∧
    decode 0x43800000#32 = .ok (.ladderProcess 128) := ⟨rfl, rfl, rfl, rfl⟩
theorem test_decode_biquad : decode 0x50000000#32 = .ok (.biquadSetCutoff 0) ∧
    decode 0x51000000#32 = .ok (.biquadSetQ 0) ∧ decode 0x52000000#32 = .ok (.biquadSetMode 0) ∧
    decode 0x53FF0000#32 = .ok (.biquadProcess 255) := ⟨rfl, rfl, rfl, rfl⟩
theorem test_decode_reverb : decode 0x60020000#32 = .ok (.reverbSetRt60 2) ∧
    decode 0x61020000#32 = .ok (.reverbProcess 2) := ⟨rfl, rfl⟩

/-- V-EN-2. -/
theorem test_reserved_words :
    [0x70000000#32, 0xF0000000#32, 0x03000000#32, 0x13000000#32, 0x25000000#32, 0x35000000#32,
      0x44000000#32, 0x54000000#32, 0x62000000#32, 0x21000001#32, 0x00010000#32, 0x01010000#32].all
      reserved = true := by decide

/-- The table's bits are the command word alone, or the command word and the data word. -/
theorem test_decode_table_word : decodeTableWord 32 0x53FF0000 = some (.biquadProcess 255) ∧
    decodeTableWord 64 0x463B800020000000 = some (.oscSetFreq 0) ∧ decodeTableWord 32 0x70000000 = none :=
  ⟨rfl, rfl, rfl⟩

/-! ### The number format -/

/-- The constants of R7 are the nearest binary32 values of their decimals. -/
theorem test_constants_are_the_nearest :
    F32.lit 5 100 = dutyMin ∧ F32.lit 95 100 = dutyMax ∧ F32.lit 99 100 = delayFbMax ∧
    F32.lit 9 10 = dryFloor ∧ F32.lit 399 100 = ladderRMax ∧ F32.lit 1386249 1000000 = ladderScaleK ∧
    F32.lit 5 10 = ladderCompK := by decide

/-- R14: 2^24 + 1 is a tie, which goes to the even significand; the largest value plus one unit of its own
rounds to infinity; 1/0 is an infinity and 0/0 a NaN. -/
theorem test_rounding : F32.ofNat (2 ^ 24 + 1) = F32.ofNat (2 ^ 24) ∧
    (F32.ofBits 0x7F7FFFFF#32).add (F32.ofBits 0x7F7FFFFF#32) = .inf false ∧
    F32.one.div (F32.ofBits 0x80000000#32) = .inf true ∧ F32.zero.div F32.zero = .nan := by decide

/-- R18: `fmax(-0.0, 0.0)` is its second operand, +0.0. -/
theorem test_fmax_of_zeros : (F32.ofBits 0x80000000#32).fmax F32.zero = F32.zero := by decide

/-- V-LD-7: 0x0070603C is subnormal and flushed; the smallest normal is kept. -/
theorem test_flush : (F32.ofBits 0x0070603C#32).flush = F32.zero ∧
    (F32.ofBits 0x00800000#32).flush = F32.ofBits 0x00800000#32 := by decide

/-! ### One step of each command -/

/-- The block with operand `v` in DATA[0]. -/
def given (s : State) (v : Word) : State := { s with data := ⟨v, s.data.audio⟩ }

/-- What a meaning leaves in one part of the next state. -/
def seen {α : Type} (f : State → α) (r : Result) : Option α :=
  match r with
  | .next t => some (f t)
  | _ => none

/-- V-SYS-8. -/
theorem test_nop : seen (fun t => (t.data.ctrl, t.status)) (transact .ctrl 0#32 0xDEADBEEF#32 State.reset) =
    some (0xDEADBEEF#32, 0#32) := by decide

/-- V-SYS-4, step 4. -/
theorem test_sys_reset : seen (fun t => (t.data, t.status, t.osc.map (·.pend)))
    (transact .ctrl 0x01000000#32 7#32
      { State.reset with status := 1#32, osc := [⟨1#32, 4#32, 4#32, .saw, 0x3F000000#32⟩] }) =
    some (⟨0#32, 0#32⟩, 0#32, [0#32, 0#32]) := by decide

/-- V-SYS-5. -/
theorem test_clrstat : seen (·.status) (exec .sysClrstat { State.reset with status := 1#32 }) = some 0#32 := by
  decide

/-- V-SYS-1. -/
theorem test_reserved_before_range : seen (fun t => (t.status, t.result.audio, t.data.audio))
    (transact .audio 0x25050000#32 0x12345678#32 { State.reset with result := ⟨0#32, 0x3F000000#32⟩ }) =
    some (1#32, 0x3F000000#32, 0x12345678#32) := by decide

/-- V-SYS-2. -/
theorem test_out_of_range_value : seen (fun t => (t.result.audio, t.status))
    (transact .audio 0x21020000#32 0#32 { State.reset with result := ⟨0#32, 0x3F000000#32⟩ }) =
    some (0#32, 0#32) := by decide

/-- The smoother of V-SM-1. -/
def smoothing : State := { State.reset with smooth := [⟨0#32, 0x3F800000#32, 0x3F000000#32⟩] }

/-- V-SM-1, the second GET; R46: the first leaves `cur` for it. -/
theorem test_smooth_get : seen (fun t => (t.result.ctrl, t.smooth.map (·.cur)))
    (exec (.smoothGet 0) { smoothing with smooth := [⟨0x3F000000#32, 0x3F800000#32, 0x3F000000#32⟩] }) =
    some (0x3F400000#32, [0x3F400000#32]) := by decide

/-- V-SM-3. -/
theorem test_smooth_get_sentinel : seen (fun t => (t.result.ctrl, t.smooth.map (·.cur)))
    (exec (.smoothGet 0) { smoothing with smooth := [⟨0x3E800000#32, 0x40400000#32, 0#32⟩] }) =
    some (0x40400000#32, [0x3E800000#32]) := by decide

/-- V-SM-7. -/
theorem test_smooth_settarget : seen (·.smooth.map (·.tgt))
    (exec (.smoothSetTarget 0) (given smoothing 0x80000000#32)) = some [0x80000000#32] := by decide
theorem test_smooth_settarget_ignores_inf : seen (·.smooth.map (·.tgt))
    (exec (.smoothSetTarget 0) (given smoothing 0x7F800000#32)) = some [0x3F800000#32] := by decide

/-- V-SM-6. -/
theorem test_smooth_setcoeff : seen (·.smooth.map (·.coeff))
    (exec (.smoothSetCoeff 0) (given smoothing 0x80000000#32)) = some [0x80000000#32] := by decide
theorem test_smooth_setcoeff_ignores_one : seen (·.smooth.map (·.coeff))
    (exec (.smoothSetCoeff 0) (given smoothing 0x3F800000#32)) = some [0x3F000000#32] := by decide

/-- An oscillator of cycle length 4 at a phase. -/
def sounding (phase : Word) (wave : Wave) : State :=
  { State.reset with osc := [⟨phase, 4#32, 4#32, wave, 0x3F000000#32⟩] }

/-- V-OS-11. -/
theorem test_osc_setfreq : seen (·.osc.map (·.pend))
    (exec (.oscSetFreq 0) (given State.reset 0x3A83126F#32)) = some [47999996#32, 0#32] := by decide
theorem test_osc_setfreq_saturates : seen (·.osc.map (·.pend))
    (exec (.oscSetFreq 1) (given State.reset 0x0DA24260#32)) = some [0#32, 4294967295#32] := by decide

/-- V-OS-4, the fourth sample, and V-OS-1, the second. -/
theorem test_osc_sample_triangle : seen (fun t => (t.result.ctrl, t.osc.map (·.phase)))
    (exec (.oscSample 0) (sounding 3#32 .triangle)) = some (0#32, [0#32]) := by decide
theorem test_osc_sample_saw : seen (fun t => (t.result.ctrl, t.osc.map (·.phase)))
    (exec (.oscSample 0) (sounding 1#32 .saw)) = some (0xBF000000#32, [2#32]) := by decide

/-- V-OS-14. -/
theorem test_osc_reset : seen (·.osc.map fun o => (o.phase, o.cyc))
    (exec (.oscReset 0) (sounding 2#32 .saw)) = some [(0#32, 4#32)] := by decide

/-- R163; V-OS-16. -/
theorem test_osc_setwave : seen (·.osc.map (·.wave))
    (exec (.oscSetWave 0) (given (sounding 2#32 .saw) 3#32)) = some [.triangle] := by decide
theorem test_osc_setwave_ignores_four : seen (·.osc.map (·.wave))
    (exec (.oscSetWave 0) (given (sounding 2#32 .sine) 4#32)) = some [.sine] := by decide

/-- V-OS-13. -/
theorem test_osc_setduty : seen (·.osc.map (·.duty))
    (exec (.oscSetDuty 0) (given (sounding 0#32 .saw) 0x3C23D70A#32)) = some [0x3D4CCCCD#32] := by decide

/-- The block of V-DL-1: no lowpass and no smoothing. -/
def dry : Params := { Params.reference with delayLpEnable := false, scDelayLen := 0#32, scDelayWet := 0#32 }

/-- The delay of V-DL-1 at its third sample: the impulse three writes ago, feedback and wet 0.5. -/
def echoing : State :=
  { State.resetOf dry with delay := [{ Delay.reset dry with
      ring := ⟨[(0, 0x3F800000#32)], 3#32⟩, sLen := ⟨0#32, 0x40400001#32, 0#32⟩,
      sWet := ⟨0#32, 0x3F000000#32, 0#32⟩, fb := 0x3F000000#32 }] }

/-- V-DL-1, sample 3. -/
theorem test_delay_process : seen (fun t => (t.result.ctrl, t.delay.map (·.ring)))
    (exec (.delayProcess 0) echoing) =
    some (0x3F000000#32, [⟨[(0, 0x3F800000#32), (3, 0x3F000000#32)], 4#32⟩]) := by decide

/-- V-DL-4. -/
theorem test_delay_process_bypass : seen (fun t => (t.result.ctrl, t.delay.map (·.ring.cursor)))
    (exec (.delayProcess 1) (given State.reset 0xBE4CCCCD#32)) = some (0xBE4CCCCD#32, [0#32, 0#32]) := by
  decide

/-- V-DL-7. -/
theorem test_delay_setbeats : seen (·.delay.map (·.sLen.tgt))
    (exec (.delaySetBeats 0) (given State.reset 0x42C80000#32)) = some [0x473B8000#32, 0#32] := by decide
theorem test_delay_setbpm_ignores_zero : seen (·.delay.map (·.bpm))
    (exec (.delaySetBpm 0) (given State.reset 0#32)) = some [0x42F00000#32, 0x42F00000#32] := by decide
theorem test_delay_setfb : seen (·.delay.map (·.fb))
    (exec (.delaySetFb 0) (given State.reset 0x40A00000#32)) = some [0x3F7D70A4#32, 0#32] := by decide
theorem test_delay_setwet : seen (·.delay.map (·.sWet.tgt))
    (exec (.delaySetWet 1) (given State.reset 0x40000000#32)) = some [0#32, 0x3F800000#32] := by decide

/-- The setup of part 2.6: at 120000 bpm, 0.125 beats make 0x40400001 samples. -/
theorem test_delay_setbpm : seen (·.delay.map (·.sLen.tgt)) (exec (.delaySetBpm 0)
    (given { State.resetOf dry with delay := [{ Delay.reset dry with beats := 0x3E000000#32 }] }
      0x47EA6000#32)) = some [0x40400001#32] := by decide

/-- V-LD-6. -/
theorem test_ladder_setcutoff : seen (·.ladder.map (·.sFc.tgt))
    (exec (.ladderSetCutoff 0) (given State.reset 0x4E6E6B28#32)) =
    some [0x46A8C000#32, 0x447A0000#32] := by decide
theorem test_ladder_setres : seen (·.ladder.map (·.sRes.tgt))
    (exec (.ladderSetRes 1) (given State.reset 0x40E00000#32)) = some [0#32, 0x3F800000#32] := by decide
theorem test_ladder_setmode : seen (·.ladder.map (·.mode))
    (exec (.ladderSetMode 0) (given State.reset 1#32)) = some [.highpass, .lowpass] := by decide
theorem test_ladder_setmode_ignores_two : seen (·.ladder.map (·.mode))
    (exec (.ladderSetMode 0) (given State.reset 2#32)) = some [.lowpass, .lowpass] := by decide

/-- V-LD-5, the first row: f, k and p at 1000 Hz. -/
theorem test_ladder_coefficients :
    ladderF (F32.ofNat 48000) (F32.ofNat 1000) = F32.ofBits 0x3D2AAAAB#32 ∧
    ladderK (F32.ofNat 48000) (F32.ofNat 1000) = F32.ofBits 0xBF5A4FA5#32 ∧
    ladderP (F32.ofNat 48000) (F32.ofNat 1000) = F32.ofBits 0x3D96C16C#32 := by decide

/-- V-LD-8: the smoothed cutoff after the first of its three samples, hand-computed as 1000 + 0.001 * 4000. -/
theorem test_ladder_process_smooths : seen (·.ladder.map (·.sFc.cur))
    (exec (.ladderProcess 0) { State.reset with ladder :=
      [{ Ladder.reset Params.reference with sFc := ⟨0x447A0000#32, 0x459C4000#32, 0x3A83126F#32⟩ }] }) =
    some [0x447B0000#32] := by decide

/-- R231's example; V-BQ's clamps. -/
theorem test_biquad_setcutoff : seen (·.biquad.map (·.fc))
    (exec (.biquadSetCutoff 0) (given State.reset 0x4E6E6B28#32)) =
    some [0x46B7C000#32, 0x447A0000#32] := by decide

/-- R232's example. -/
theorem test_biquad_setq : seen (·.biquad.map (·.q))
    (exec (.biquadSetQ 0) (given State.reset 0#32)) = some [0x3DCCCCCD#32, 0x3F3504F3#32] := by decide

/-- R233. -/
theorem test_biquad_setmode : seen (·.biquad.map (·.mode))
    (exec (.biquadSetMode 1) (given State.reset 1#32)) = some [.lowpass, .highpass] := by decide

/-- The core of V-BQ-1 before its third sample. -/
def filtering : State :=
  { State.reset with biquad := [⟨0x463B8000#32, 0x3F3504F3#32, .lowpass, 0x3E95F619#32, 0x3F15F619#32,
      0x3E95F619#32, 0x335BF32C#32, 0x3E2FB0CD#32, 0#32, 0x3F800000#32, 0x3F15F619#32, 0x3E95F619#32⟩] }

/-- V-BQ-1, the third result. -/
theorem test_biquad_process : seen (fun t => (t.result.ctrl, t.biquad.map fun c => (c.y1, c.y2)))
    (exec (.biquadProcess 0) filtering) = some (0x3E7876CA#32, [(0x3E7876CA#32, 0x3F15F619#32)]) := by
  decide

/-- R252: a decay time of 0 is ignored. -/
theorem test_reverb_setrt60_ignores_zero : seen (·.reverb.map (·.fbc.e0))
    (exec (.reverbSetRt60 0) (given State.reset 0#32)) = some [0x3F4CCCCD#32, 0x3F4CCCCD#32] := by decide

/-- The reverb of V-RV-1 before its fourth sample: the impulse stands three writes back in every comb. -/
def reverberating : State :=
  { State.reset with reverb := [{ Reverb.reset Params.reference with
      comb := ⟨⟨[(0, 0x3F800000#32)], 0#32⟩, ⟨[(0, 0x3F800000#32)], 3#32⟩, ⟨[(0, 0x3F800000#32)], 3#32⟩,
        ⟨[(0, 0x3F800000#32)], 3#32⟩⟩ }] }

/-- V-RV-1, sample 3. -/
theorem test_reverb_process : seen (·.result.ctrl) (exec (.reverbProcess 0) reverberating) =
    some 0x3DD1B718#32 := by decide

/-! ### The ring buffer: V-RB-1 -/

theorem test_ring_of_two : let r := (Ring.zeroed.write 2 0x3F333333#32).write 2 0x3E99999A#32
    r.cursor = 0#32 ∧ r.tap 2 2 = 0x3F333333#32 ∧ r.tap 2 1 = 0x3E99999A#32 := by decide

/-! ### The register window: V-EN-4, V-SYS-6, V-SYS-7 -/

theorem test_bus_byte_order : seen (·.data.ctrl)
    (busWrite 0 [0x00#8, 0x80#8, 0x3B#8, 0x46#8] State.reset) = some 0x463B8000#32 := by decide
theorem test_status_write_clears : seen (·.status)
    (busWrite 0x1C (bytesOf 1#32) { State.reset with status := 1#32 }) = some 0#32 ∧
    seen (·.status) (busWrite 0x0C (bytesOf 0xFFFFFFFE#32) { State.reset with status := 1#32 }) =
      some 1#32 := by decide
theorem test_narrow_command_write_is_ignored : seen (·.status)
    (busWrite 0x04 [0x00#8, 0x00#8] State.reset) = some 0#32 ∧
    seen (·.status) (busWrite 0x06 (bytesOf 0x70000000#32) State.reset) = some 0#32 := by decide
theorem test_command_write_runs : seen (·.osc.map (·.pend))
    (busWrite 0x04 (bytesOf 0x20000000#32) (given State.reset 0x463B8000#32)) = some [4#32, 0#32] := by decide
theorem test_command_reads_zero : State.reset.readWindow 0x04 4 = List.replicate 4 0#8 := by decide

/-! ### Steps -/

/-- An idle block steps to itself (R282). -/
theorem test_idle_step : step State.reset = .next State.reset := rfl

/-- A fetched instruction runs on the next step: V-OS-1's `osc.setfreq 0, 12000.0`. -/
theorem test_fetched_step : seen (fun t => (t.osc.map (·.pend), t.pending))
    (step (State.reset.withFetchWord 64 0x463B800020000000)) = some ([4#32, 0#32], ⟨[], []⟩) := by decide

/-- A block outside its legal ranges is refused (R10). -/
theorem test_illegal_block :
    step (State.resetOf { Params.reference with fs := 0 }) = .refused .illegalConfiguration := rfl

/-! ### The assembler: V-EN-1 -/

theorem test_assemble :
    assemble "osc.setfreq 0, 12000.0".toList = some (0x20000000#32, 0x463B8000#32) ∧
    assemble "osc.sample 1".toList = some (0x21010000#32, 0#32) ∧
    assemble "osc.setwave 0, triangle".toList = some (0x23000000#32, 3#32) ∧
    assemble "ladder.process 1, -0.5 ; half".toList = some (0x43010000#32, 0xBF000000#32) ∧
    assemble "reverb.setrt60 0, 0x3A83126F".toList = some (0x60000000#32, 0x3A83126F#32) ∧
    assemble "reset".toList = some (0x01000000#32, 0#32) := by decide
theorem test_listing : (assemble "delay.setbpm 1, 120.0".toList).map listing =
    some "31010000 42F00000".toList := by decide

/-! ### Witnesses: a state and operands that meet the hypotheses of each statement -/

theorem witness_DecodingAnEncodedCommandGivesItBack :
    (Instr.sysClrstat).wellFormed = true ∧ (Instr.reverbProcess 255).wellFormed = true := by decide

theorem witness_EncodingADecodedWordGivesItBack :
    decode 0x02000000#32 = .ok .sysClrstat ∧ decode 0x61FF0000#32 = .ok (.reverbProcess 255) := ⟨rfl, rfl⟩

/-- One word for each bullet of R106, at the edge of its range. -/
theorem witness_ReservedWordsOnlySetIll : reserved 0x61000001#32 = true ∧ reserved 0x70000000#32 = true ∧
    reserved 0x62000000#32 = true ∧ reserved 0x02010000#32 = true := by decide

/-- A block with a command waiting at each port. -/
def busy (ctrl audio : List Request) : State := { State.reset with pending := ⟨ctrl, audio⟩ }

theorem witness_StepRunsTheDecodedCommand :
    let s := busy [.command 0x11010000#32 0#32] []
    s.cfg.legal = true ∧ s.nextPort = some .ctrl ∧ s.pending.get .ctrl = [.command 0x11010000#32 0#32] ∧
    decode 0x11010000#32 = .ok (.smoothGet 1) := by
  refine ⟨by decide, rfl, rfl, rfl⟩

/-- The same at the other port. -/
theorem witness_StepRunsTheDecodedCommand_audio :
    let s := busy [] [.command 0x11010000#32 0#32]
    s.cfg.legal = true ∧ s.nextPort = some .audio ∧ s.pending.get .audio = [.command 0x11010000#32 0#32] := by
  refine ⟨by decide, rfl, rfl⟩

/-- The other requests: a reserved word, a bus read and a bus write. -/
theorem witness_StepRunsTheDecodedCommand_requests :
    let c := busy [.command 0x11010001#32 0#32] []
    let r := busy [] [.busRead 31 1]
    let w := busy [.busWrite 0x0C [1#8, 0#8, 0#8, 0#8]] []
    c.cfg.legal = true ∧ c.nextPort = some .ctrl ∧ reserved 0x11010001#32 = true ∧
    c.pending.get .ctrl = [.command 0x11010001#32 0#32] ∧
    r.cfg.legal = true ∧ r.nextPort = some .audio ∧ r.pending.get .audio = [.busRead 31 1] ∧
    w.cfg.legal = true ∧ w.nextPort = some .ctrl ∧
    w.pending.get .ctrl = [.busWrite 0x0C [1#8, 0#8, 0#8, 0#8]] :=
  ⟨by decide, rfl, by decide, rfl, by decide, rfl, rfl, by decide, rfl, rfl⟩

theorem witness_shaped : State.reset.Shaped := ⟨rfl, rfl, rfl, rfl, rfl, rfl⟩

/-- The first instance number out of range, for a value-producing command and for one that is not. -/
theorem witness_OutOfRangeInstanceIsIgnored : isSys (.oscSample 2) = false ∧
    unitCount State.reset.cfg (.oscSample 2) ≤ (Instr.oscSample 2).idx ∧
    (Instr.oscSample 2).producesValue = true ∧ isSys (.oscReset 2) = false ∧
    unitCount State.reset.cfg (.oscReset 2) ≤ (Instr.oscReset 2).idx ∧
    (Instr.oscReset 2).producesValue = false := by decide

/-- One state for each clause: requests at one port, at the other, at both, and a step that takes one. -/
theorem witness_EachStepTakesOnePortsFirstRequest :
    (busy [.busRead 0 4] []).pending.audio = [] ∧ (busy [] [.busRead 0 4]).pending.ctrl = [] ∧
    (busy [.busRead 0 4] [.busRead 8 4]).pending.ctrl = [.busRead 0 4] ∧
    (busy [.busRead 0 4] [.busRead 8 4]).pending.audio = [.busRead 8 4] ∧
    (busy [.busRead 0 4, .busRead 8 4] []).nextPort = some .ctrl ∧
    ∃ t, step (busy [.busRead 0 4, .busRead 8 4] []) = .next t :=
  ⟨rfl, rfl, rfl, rfl, rfl, _, rfl⟩

theorem witness_IdleBlockKeepsItsState : State.reset.cfg.legal = true ∧ State.reset.pending.ctrl = [] ∧
    State.reset.pending.audio = [] := by decide

theorem witness_EveryCommandAndStepCompletes : (busy [.busRead 0 4] []).cfg.legal = true ∧
    (State.resetOf { Params.reference with nOsc := 257 }).cfg.legal = false := by decide

theorem witness_SysNopSkips : (0x00000001#32 : Word).toNat / 2 ^ 24 = 0 ∧ (0x00000001#32 : Word) ≠ 0#32 ∧
    (0x00FF0000#32 : Word).toNat / 2 ^ 24 = 0 ∧ (0x00FF0000#32 : Word) ≠ 0#32 := by decide

theorem witness_ResetValuesAreThoseOfTheTable :
    State.reset.ladder.length = 2 ∧ State.reset.biquad.length = 2 ∧ State.reset.delay.length = 2 ∧
    State.reset.reverb.length = 2 ∧ 1 ≤ 1 ∧ 0 < 1 := by decide

/-- The sentinel in both its signs, and the largest coefficient below 1. -/
theorem witness_SmoothingStepFollowsItsFormula :
    (F32.ofBits 0x80000000#32).eq F32.zero = true ∧ (F32.ofBits 0x00000000#32).eq F32.zero = true ∧
    (F32.ofBits 0x3F7FFFFF#32).eq F32.zero = false ∧ (F32.ofBits 0x00000001#32).eq F32.zero = false := by
  decide

/-- The last instance of every unit is there: for the SMOOTH, OSC, DELAY, LADDER, BIQUAD and REVERB statements
about one instance. -/
theorem witness_instances : (∃ u, State.reset.smooth[1]? = some u) ∧ (∃ o, State.reset.osc[1]? = some o) ∧
    (∃ d, State.reset.delay[1]? = some d) ∧ (∃ l, State.reset.ladder[1]? = some l) ∧
    (∃ c, State.reset.biquad[1]? = some c) ∧ ∃ rv, State.reset.reverb[1]? = some rv :=
  ⟨⟨_, rfl⟩, ⟨_, rfl⟩, ⟨_, rfl⟩, ⟨_, rfl⟩, ⟨_, rfl⟩, ⟨_, rfl⟩⟩

/-- The last words below the NaNs, of both signs, and -0.0. -/
theorem witness_DelayProcessEchoesOrPassesThrough : F32.ofBits 0x7F800000#32 ≠ .nan ∧
    F32.ofBits 0xFF800000#32 ≠ .nan ∧ F32.ofBits 0x80000000#32 ≠ .nan := by decide

/-- The shortest and the longest cycle. -/
theorem witness_OscillatorIsPeriodicOnceCommitted :
    let a : Osc := ⟨0#32, 1#32, 1#32, .saw, 0x3F000000#32⟩
    let b : Osc := ⟨0#32, 0xFFFFFFFF#32, 0xFFFFFFFF#32, .sine, 0x3F000000#32⟩
    a.phase = 0#32 ∧ a.pend = a.cyc ∧ a.cyc ≠ 0#32 ∧ b.phase = 0#32 ∧ b.pend = b.cyc ∧ b.cyc ≠ 0#32 := by
  decide

/-- Beats -0.0 and the largest finite value, bpm the smallest positive value and the largest. -/
theorem witness_DelayTargetStaysWithinTheLine : Params.reference.legal = true ∧
    (F32.ofBits 0x80000000#32).isFinite = true ∧ F32.zero.le (F32.ofBits 0x80000000#32) = true ∧
    (F32.ofBits 0x7F7FFFFF#32).isFinite = true ∧ F32.zero.le (F32.ofBits 0x7F7FFFFF#32) = true ∧
    (F32.ofBits 0x00000001#32).isFinite = true ∧ F32.zero.lt (F32.ofBits 0x00000001#32) = true ∧
    F32.zero.lt (F32.ofBits 0x7F7FFFFF#32) = true := by decide

theorem witness_ReverbSetRt60SetsFourCappedFeedbacks : Params.reference.legal = true := by decide

/-- The shortest and the longest line, with the largest feedback below 1 and with feedback 0. -/
theorem witness_CombImpulseResponseIsGeometric : 1 ≤ 1 ∧ 2 ^ 24 ≤ 2 ^ 24 ∧
    F32.ofBits 0x3F7FFFFF#32 = .fin false (0xFFFFFF * 2 ^ 125) ∧
    (F32.ofBits 0x3F7FFFFF#32).lt F32.one = true ∧ F32.ofBits 0#32 = .fin false 0 ∧
    (F32.ofBits 0#32).lt F32.one = true := by decide

/-- The shortest line, the longest one, and one whose cursor stands at its last element; both ends of the
delay's range. -/
theorem witness_RingTapAndWriteFollowTheirRules : Ring.Ok 1 Ring.zeroed ∧ Ring.Ok (2 ^ 24) Ring.zeroed ∧
    Ring.Ok 3 ⟨[(0, 1#32), (2, 5#32)], 2#32⟩ ∧ 1 ≤ 1 ∧ 3 ≤ 3 :=
  ⟨⟨rfl, rfl, by decide⟩, ⟨rfl, rfl, by decide⟩, ⟨by decide, by decide, by decide⟩, by decide, by decide⟩

/-- A tap at the number of writes and one beyond it, in a line longer than the writes and in one shorter. -/
theorem witness_ATapAtDelayDReturnsTheDthLastWrite :
    (lineAfter 5 [1#32, 2#32, 3#32]).tap 5 3 = 1#32 ∧ (lineAfter 5 [1#32, 2#32, 3#32]).tap 5 4 = 0#32 ∧
    (lineAfter 2 [1#32, 2#32, 3#32]).tap 2 2 = 2#32 ∧ (lineAfter 2 [1#32, 2#32, 3#32]).tap 2 1 = 3#32 := by
  decide

/-- The tie of 2^24 + 1 units, whose other neighbour is 2^24 + 2. -/
theorem witness_RoundingIsToNearestTiesToEven : 0 < 1 ∧ F32.ofBits 0x01000001#32 = .fin false (2 ^ 24 + 2) ∧
    |((2 ^ 24 + 1 : Nat) : Int) - (1 : Nat) * F32.roundMag (2 ^ 24 + 1) 1| =
      |((2 ^ 24 + 1 : Nat) : Int) - (1 : Nat) * ((2 ^ 24 + 2 : Nat) : Int)| ∧
    2 ^ 24 + 2 ≠ F32.roundMag (2 ^ 24 + 1) 1 := by decide

/-- The edges of its other clauses: the first exact magnitude that overflows and the one below it, the
largest u32, and a word that is no NaN. -/
theorem witness_RoundingIsToNearestTiesToEven_edges :
    F32.overflow ≤ F32.roundMag ((2 ^ 25 - 1) * 2 ^ 252) 1 ∧
    F32.roundMag ((2 ^ 25 - 1) * 2 ^ 252 - 1) 1 < F32.overflow ∧ 2 ^ 32 - 1 < 2 ^ 32 ∧
    F32.ofBits 0xFF800000#32 ≠ .nan := by decide

theorem witness_ConfigurationFunctionsHaveTheirNamedProperties :
    (F32.ofBits 0x7F7FFFFF#32).isFinite = true ∧ (F32.ofBits 0x80000000#32).isFinite = true ∧
    (F32.ofBits 0x80000000#32).le F32.zero = true ∧ (F32.ofBits 0xFF7FFFFF#32).le F32.zero = true := by decide

theorem witness_ComparisonsAndConversionsFollowTheirRules : F32.ofBits 0x7FC00000#32 = .nan ∧
    (F32.ofBits 0x7F7FFFFF#32).isFinite = true ∧ (F32.ofBits 0xFF7FFFFF#32).isFinite = true ∧
    2 ^ 24 ≤ 2 ^ 24 ∧ 2 ^ 32 * F32.one149 - 1 < 2 ^ 32 * F32.one149 := by decide

theorem witness_FlushReplacesExactlyTheSubnormals : F32.isFinite .nan = false ∧
    (F32.ofBits 0x007FFFFF#32).isSubnormal = true ∧ (F32.ofBits 0x00800000#32).isSubnormal = false := by decide

/-- The first and last byte of the window; a narrow access and a misaligned one: for the three statements about
the window. -/
theorem witness_window_accesses : 0 < 32 ∧ 31 < 32 ∧ 31 % 4 ≠ 0 ∧
    ([0x00#8, 0x00#8] : List Byte).length ≠ 4 ∧ (0x0C = 0x0C ∨ 0x0C = 0x1C) ∧ (0x1C = 0x0C ∨ 0x1C = 0x1C) := by
  decide

/-- A command for each clause: one that produces a value, one that does not, and SYS.RESET. -/
theorem witness_ThePortChangesOnlyDataAndResult :
    (Instr.smoothGet 0).producesValue = true ∧ Instr.smoothGet 0 ≠ .sysReset ∧
    (Instr.oscReset 0).producesValue = false ∧ Instr.oscReset 0 ≠ .sysReset := by decide

/-- Both zeros are resonances of 0; the scale there is free but for R9. -/
theorem witness_LadderFeedbackIsCapped : F32.zero.eq F32.zero = true ∧
    (F32.ofBits 0x80000000#32).eq F32.zero = true := by decide

/-- A next state of a setter and one of a value-producing command: for OnlyTheListedCommandsWriteAField (with
the instances of `witness_instances`) and OnlyValueCommandsWriteTheirOwnResult. -/
theorem witness_exec_next : (∃ t, exec (.oscReset 1) State.reset = .next t) ∧
    (Instr.oscReset 1) ≠ .sysReset ∧ (Instr.oscReset 1).producesValue = false ∧
    (∃ t, exec (.smoothGet 1) State.reset = .next t) ∧ (Instr.smoothGet 1) ≠ .sysReset ∧
    Port.audio ≠ State.reset.port := by
  refine ⟨⟨_, rfl⟩, by decide, rfl, ⟨_, rfl⟩, by decide, by decide⟩

/-- A block with one command waiting, which each invariant below holds of and which steps. -/
def oneWaiting : State := busy [.command 0x34010000#32 0x3F800000#32] []

theorem witness_step_next : ∃ t, step oneWaiting = .next t := ⟨_, rfl⟩

theorem witness_StepKeepsTheShapeAndTheParameters : oneWaiting.Shaped := ⟨rfl, rfl, rfl, rfl, rfl, rfl⟩

theorem witness_StepKeepsTheDelayLines : oneWaiting.LinesOk := by
  refine ⟨fun d hd => ?_, fun rv hr k => ?_, fun rv hr k => ?_⟩
  · rw [List.eq_of_mem_replicate hd]; exact Ring.ok_zeroed _ (by decide)
  · rw [List.eq_of_mem_replicate hr]; fin_cases k <;> exact Ring.ok_zeroed _ (by decide)
  · rw [List.eq_of_mem_replicate hr]; fin_cases k <;> exact Ring.ok_zeroed _ (by decide)

theorem witness_StepKeepsThePhases : oneWaiting.PhasesOk := fun o ho => by
  rw [List.eq_of_mem_replicate ho]; exact .inr ⟨rfl, rfl⟩

/-- A phase inside its cycle, at the cycle's last sample. -/
theorem witness_StepKeepsThePhases_sounding : (sounding 3#32 .saw).PhasesOk := fun o ho => by
  rw [List.mem_singleton.1 ho]; exact .inl (by decide)

theorem witness_StepKeepsTheBiquadsCoherent : oneWaiting.CoresCoherent := by
  refine ⟨fun c hc => ?_, fun d hd => ?_⟩
  · rw [List.eq_of_mem_replicate hc]; exact Biquad.coherent_recompute _ _ _ ofBits_resetNan
  · rw [List.eq_of_mem_replicate hd]; exact Biquad.coherent_recompute _ _ _ ofBits_resetNan

theorem witness_StepKeepsCoefficientsAndFlushedLadders : oneWaiting.CoeffsOk ∧ oneWaiting.LaddersFlushed := by
  refine ⟨⟨fun u hu => ?_, fun l hl => ?_, fun d hd => ?_⟩, fun l hl => ?_⟩
  · rw [List.eq_of_mem_replicate hu]; exact by unfold Smoother.CoeffOk; decide
  · rw [List.eq_of_mem_replicate hl]; exact ⟨rfl, rfl⟩
  · rw [List.eq_of_mem_replicate hd]; exact ⟨rfl, rfl⟩
  · rw [List.eq_of_mem_replicate hl]
    constructor <;> exact by unfold NotSubnormal; decide

theorem witness_StepKeepsTheSettingRangesAndStatus :
    oneWaiting.DutiesOk ∧ oneWaiting.DelaySettingsOk ∧ oneWaiting.StatusOk := by
  refine ⟨fun o ho => ?_, fun d hd => ?_, by unfold State.StatusOk; decide⟩
  · rw [List.eq_of_mem_replicate ho]; exact ⟨by decide, by decide⟩
  · rw [List.eq_of_mem_replicate hd]
    exact ⟨by decide, by decide, by decide, by decide, ⟨by decide, by decide⟩, ⟨by decide, by decide⟩⟩

theorem witness_ResetMeetsEveryInvariant : Params.reference.legal = true := by decide

end Sys2Proof.Tests
end

section
/-! The number of records a unit holds: what a command and a step keep of `State.Shaped` and of the block's
parameters (spec/00_scope.md R6, spec/10_state.md R291). -/

namespace Sys2Proof.Machine

/-- A command changes one record of a unit in place or resets the unit, so the unit's length stays where the
reset unit has that length too. -/
theorem UnitAfter.length_eq {α : Type} {i : Instr} {before after fresh : List α}
    {move : Nat → α → Instr → α → Prop} {n : Nat} (h : UnitAfter i before after fresh move)
    (hb : before.length = n) (hf : fresh.length = n) : after.length = n := by
  rcases h with rfl | ⟨_, rfl⟩ | ⟨idx, u, u', _, rfl, _⟩
  · exact hb
  · exact hf
  · rw [List.length_set, hb]

theorem State.shaped_resetOf (c : Params) : (State.resetOf c).Shaped where
  smooth := List.length_replicate
  osc := List.length_replicate
  delay := List.length_replicate
  ladder := List.length_replicate
  biquad := List.length_replicate
  reverb := List.length_replicate

/-- The shape depends on the parameters and the units alone, not on registers, requests and replies. -/
theorem State.Shaped.of_sameUnits {s t : State} (h : s.Shaped) (hcfg : t.cfg = s.cfg)
    (hu : State.SameUnits s t) : t.Shaped where
  smooth := by rw [hu.smooth, hcfg, h.smooth]
  osc := by rw [hu.osc, hcfg, h.osc]
  delay := by rw [hu.delay, hcfg, h.delay]
  ladder := by rw [hu.ladder, hcfg, h.ladder]
  biquad := by rw [hu.biquad, hcfg, h.biquad]
  reverb := by rw [hu.reverb, hcfg, h.reverb]

theorem exec_cfg (i : Instr) (s t : State) (h : exec i s = .next t) : t.cfg = s.cfg :=
  (exec_model_fields i s t h).1

theorem exec_shaped (i : Instr) (s t : State) (hs : s.Shaped) (h : exec i s = .next t) : t.Shaped := by
  have hcfg := exec_cfg i s t h
  have hfresh := State.shaped_resetOf s.cfg
  constructor <;> rw [hcfg]
  case smooth => exact (exec_smooth i s t h).length_eq hs.smooth hfresh.smooth
  case osc => exact (exec_osc i s t h).length_eq hs.osc hfresh.osc
  case delay => exact (exec_delay i s t h).length_eq hs.delay hfresh.delay
  case ladder => exact (exec_ladder i s t h).length_eq hs.ladder hfresh.ladder
  case biquad => exact (exec_biquad i s t h).length_eq hs.biquad hfresh.biquad
  case reverb => exact (exec_reverb i s t h).length_eq hs.reverb hfresh.reverb

/-- Settles O54: the invariant carried over a step is the shape together with the parameters the step started
with, since `State.Shaped` speaks of the parameters too. -/
theorem stepKeepsTheShapeAndTheParameters : Obligations.StepKeepsTheShapeAndTheParameters := by
  intro s t hs hstep
  refine step_keeps (fun u => u.Shaped ∧ u.cfg = s.cfg) ?_ ?_ s t ⟨hs, rfl⟩ hstep
  · rintro u v hcfg hunits ⟨hshape, hparams⟩
    exact ⟨hshape.of_sameUnits hcfg hunits, hcfg.trans hparams⟩
  · rintro i u v - ⟨hshape, hparams⟩ hexec
    exact ⟨exec_shaped i u v hshape hexec, (exec_cfg i u v hexec).trans hparams⟩

end Sys2Proof.Machine
end

section
/-! Binary32, the order and the sign: a finite datum lies between the infinities, negation turns the order
round, and which magnitudes are representable (spec/00_scope.md R12, R14, R18). -/

namespace Sys2Proof

/-- Every representable magnitude is below the overflow threshold 2^128. -/
theorem F32.mag_lt_overflow (s : Bool) (m : Nat) (h : F32.Representable (.fin s m)) : m < F32.overflow := by
  obtain ⟨k, e, rfl, hk, _, hmax⟩ := F32.representable_form s m h
  calc k * 2 ^ e < 2 ^ 24 * 2 ^ e := Nat.mul_lt_mul_of_pos_right hk (Nat.two_pow_pos _)
    _ ≤ 2 ^ 24 * 2 ^ 253 := Nat.mul_le_mul_left _ (Nat.pow_le_pow_right (by decide) hmax)
    _ = F32.overflow := by decide

/-- An encoded finite value has a place strictly between the infinities' (R18). -/
theorem F32.key_ofBits_bounds (w : Word) (h : (F32.ofBits w).isFinite = true) :
    ∃ k, (F32.ofBits w).key = some k ∧ -(F32.overflow : Int) < k ∧ k < F32.overflow := by
  have hrep := F32.representable_ofBits w
  generalize F32.ofBits w = x at h hrep
  cases x with
  | nan => cases h
  | inf s => cases h
  | fin s m =>
    have hm := F32.mag_lt_overflow s m hrep
    cases s <;> exact ⟨_, rfl, by simp; omega, by simp; omega⟩

/-- A whole number up to 2^24, in steps from 2^-126 up, is a binary32 value. -/
theorem F32.representable_whole (s : Bool) (n e : Nat) (hn : n ≤ 2 ^ 24) (he : 23 ≤ e) (hmax : e ≤ 252) :
    F32.Representable (.fin s (n * 2 ^ e)) := by
  rcases Nat.eq_zero_or_pos n with rfl | hpos
  · rw [Nat.zero_mul]
    exact F32.representable_zero s
  rcases Nat.lt_or_ge n (2 ^ 24) with hlt | hge
  · have hlog : n.log2 < 24 := (Nat.log2_lt (by omega)).2 hlt
    have hlow : 2 ^ 23 ≤ n * 2 ^ (23 - n.log2) :=
      calc 2 ^ 23 = 2 ^ n.log2 * 2 ^ (23 - n.log2) := by rw [← pow_add]; congr 1; omega
        _ ≤ n * 2 ^ (23 - n.log2) := Nat.mul_le_mul_right _ (Nat.log2_self_le (by omega))
    have hhigh : n * 2 ^ (23 - n.log2) < 2 ^ 24 :=
      calc n * 2 ^ (23 - n.log2) < 2 ^ (n.log2 + 1) * 2 ^ (23 - n.log2) :=
            Nat.mul_lt_mul_of_pos_right Nat.lt_log2_self (Nat.two_pow_pos _)
        _ = 2 ^ 24 := by rw [← pow_add]; congr 1; omega
    have hshift : n * 2 ^ e = n * 2 ^ (23 - n.log2) * 2 ^ (e - (23 - n.log2)) := by
      rw [Nat.mul_assoc, ← pow_add]; congr 2; omega
    rw [hshift]
    exact F32.representable_fin s _ _ hhigh (.inr hlow) (by omega)
  · have hshift : n * 2 ^ e = 2 ^ 23 * 2 ^ (e + 1) := by
      rw [show n = 2 ^ 23 * 2 by omega, Nat.mul_assoc, pow_succ' 2 e]
    rw [hshift]
    exact F32.representable_fin s _ _ (by decide) (.inr (le_refl _)) (by omega)

theorem F32.neg_neg (x : F32) : x.neg.neg = x := by
  cases x <;> simp [F32.neg]

theorem F32.key_neg (x : F32) : x.neg.key = x.key.map (- ·) := by
  cases x with
  | nan => rfl
  | inf s => cases s <;> simp [F32.neg, F32.key]
  | fin s m => cases s <;> simp [F32.neg, F32.key]

/-- Negation turns the order round. -/
theorem F32.neg_le_neg (a b : F32) : a.neg.le b.neg = b.le a := by
  unfold F32.le
  rw [F32.key_neg, F32.key_neg]
  cases a.key <;> cases b.key <;> simp

end Sys2Proof
end

section
/-! The subnormal flush (spec/00_scope.md R19). -/

namespace Sys2Proof

theorem F32.isSubnormal_fin (s : Bool) (m : Nat) :
    (F32.fin s m).isSubnormal = true ↔ m ≠ 0 ∧ m < 2 ^ 23 := by
  simp [F32.isSubnormal, Nat.pos_iff_ne_zero]

theorem F32.isSubnormal_of_not_finite (x : F32) (h : x.isFinite = false) : x.isSubnormal = false := by
  cases x with
  | nan => rfl
  | inf s => rfl
  | fin s m => cases h

/-- The subnormal encodings (R12, R19). -/
theorem F32.isSubnormal_ofBits (w : Word) :
    (F32.ofBits w).isSubnormal = true ↔ F32.expOf w = 0 ∧ F32.fracOf w ≠ 0 := by
  have hf := F32.fracOf_lt w
  unfold F32.ofBits
  by_cases h255 : F32.expOf w = 255
  · rw [if_pos h255]
    split <;> simp [F32.isSubnormal, h255]
  · rw [if_neg h255]
    by_cases h0 : F32.expOf w = 0
    · rw [if_pos h0, F32.isSubnormal_fin]
      exact ⟨fun h => ⟨h0, h.1⟩, fun h => ⟨h.2, hf⟩⟩
    · rw [if_neg h0, F32.isSubnormal_fin]
      have hbig : 2 ^ 23 ≤ (2 ^ 23 + F32.fracOf w) * 2 ^ (F32.expOf w - 1) :=
        le_trans (Nat.le_add_right _ _) (Nat.le_mul_of_pos_right _ (Nat.two_pow_pos _))
      exact ⟨fun h => absurd h.2 (by omega), fun h => absurd h.1 h0⟩

/-- Settles O47: the subnormal encodings are those with a zero exponent and a nonzero fraction, since a normal
significand alone has 2^23 units. -/
theorem flushReplacesExactlyTheSubnormals : Obligations.FlushReplacesExactlyTheSubnormals :=
  ⟨F32.isSubnormal_fin, F32.isSubnormal_of_not_finite, F32.isSubnormal_ofBits, fun _ => rfl⟩

end Sys2Proof
end

section
/-! Comparisons and exact conversions (spec/00_scope.md R17, R18). -/

namespace Sys2Proof

/-- A comparison with a NaN is false. -/
theorem F32.comparisons_nan (a b : F32) (h : a = .nan ∨ b = .nan) :
    a.lt b = false ∧ a.le b = false ∧ a.eq b = false := by
  rcases h with rfl | rfl
  · exact ⟨rfl, rfl, rfl⟩
  · cases a <;> exact ⟨rfl, rfl, rfl⟩

theorem F32.isFinite_iff (x : F32) :
    x.isFinite = true ↔ x ≠ .nan ∧ x ≠ .inf false ∧ x ≠ .inf true := by
  cases x with
  | nan => simp [F32.isFinite]
  | inf s => cases s <;> simp [F32.isFinite]
  | fin s m => simp [F32.isFinite]

theorem F32.key_inf_true : (F32.inf true).key = some (-(F32.overflow : Int)) := rfl
theorem F32.key_inf_false : (F32.inf false).key = some (F32.overflow : Int) := rfl

theorem F32.finite_between_infinities (w : Word) (h : (F32.ofBits w).isFinite = true) :
    (F32.inf true).lt (F32.ofBits w) = true ∧ (F32.ofBits w).lt (.inf false) = true ∧
    (F32.inf true).le (F32.ofBits w) = true ∧ (F32.ofBits w).le (.inf false) = true ∧
    (F32.inf true).eq (F32.ofBits w) = false ∧ (F32.inf false).eq (F32.ofBits w) = false := by
  obtain ⟨k, hk, hlo, hhi⟩ := F32.key_ofBits_bounds w h
  simp only [F32.lt, F32.le, F32.eq, F32.key_inf_true, F32.key_inf_false, hk, decide_eq_true_eq,
    decide_eq_false_iff_not]
  omega

theorem F32.infinity_comparisons (s : Bool) : (F32.inf s).lt (.inf s) = false ∧
    (F32.inf s).le (.inf s) = true ∧ (F32.inf s).eq (.inf s) = true ∧
    (F32.inf s).eq (.inf (!s)) = false := by
  cases s <;> decide

theorem F32.ofNat_exact (n : Nat) (h : n ≤ 2 ^ 24) : F32.ofNat n = .fin false (n * F32.one149) :=
  F32.round_representable false _ (F32.representable_whole false n 149 h (by decide) (by decide))

theorem F32.trunc_fin (m : Nat) (h : m < 2 ^ 32 * F32.one149) :
    (F32.fin false m).trunc = m / F32.one149 := if_pos ⟨.inl rfl, h⟩

/-- Settles O46: finite data are compared by their places in the order, the infinities stand outside the places
of every encoded value, and whole numbers up to 2^24 round to themselves. -/
theorem comparisonsAndConversionsFollowTheirRules :
    Obligations.ComparisonsAndConversionsFollowTheirRules :=
  ⟨F32.comparisons_nan, fun _ _ _ _ => ⟨rfl, rfl, rfl⟩, F32.finite_between_infinities,
    F32.infinity_comparisons, by decide, by decide, by decide, fun _ _ => ⟨rfl, rfl⟩, fun _ _ _ => rfl,
    F32.isFinite_iff, F32.ofNat_exact, F32.trunc_fin⟩

end Sys2Proof
end

section
/-! The named properties of SIN, COS, EXP, POW10 and SAT (spec/00_scope.md R9): each holds of the raw value where
that is kept and of its replacement where it is not. -/

namespace Sys2Proof

theorem F32.inSignedUnit_iff (v : F32) :
    v.inSignedUnit = true ↔ F32.one.neg.le v = true ∧ v.le F32.one = true := by
  simp [F32.inSignedUnit]

theorem F32.inSignedUnit_neg (v : F32) : v.neg.inSignedUnit = v.inSignedUnit := by
  have h : v.neg.le F32.one = F32.one.neg.le v := by rw [← F32.neg_le_neg, F32.neg_neg]
  rw [F32.inSignedUnit, F32.neg_le_neg, h, Bool.and_comm, F32.inSignedUnit]

theorem F32.inSignedUnit_zero : F32.zero.inSignedUnit = true := by decide
theorem F32.inSignedUnit_one : F32.one.inSignedUnit = true := by decide

theorem F32.inSignedUnit_boundedOr (v other : F32) (h : other.inSignedUnit = true) :
    (boundedOr v other).inSignedUnit = true := by
  unfold boundedOr
  split
  · assumption
  · exact h

/-- The shape SIN, COS and SAT share: a fixed value at +0.0, and a bounded one at every other finite operand. -/
theorem F32.inSignedUnit_guarded (x atZero v w : F32) (hx : x.isFinite = true)
    (hzero : atZero.inSignedUnit = true) :
    (if x = F32.zero then atZero
      else if x.isFinite then boundedOr v F32.zero else w).inSignedUnit = true := by
  by_cases h0 : x = F32.zero
  · rw [if_pos h0]; exact hzero
  · rw [if_neg h0, if_pos hx]; exact F32.inSignedUnit_boundedOr v _ F32.inSignedUnit_zero

theorem F32.inSignedUnit_sin (x : F32) (h : x.isFinite = true) : x.sin.inSignedUnit = true :=
  F32.inSignedUnit_guarded x _ _ _ h F32.inSignedUnit_zero

theorem F32.inSignedUnit_cos (x : F32) (h : x.isFinite = true) : x.cos.inSignedUnit = true :=
  F32.inSignedUnit_guarded x _ _ _ h F32.inSignedUnit_one

theorem F32.inSignedUnit_satPositive (x : F32) (h : x.isFinite = true) :
    x.satPositive.inSignedUnit = true :=
  F32.inSignedUnit_guarded x _ _ _ h F32.inSignedUnit_zero

theorem F32.inSignedUnit_sat (x : F32) (h : x.isFinite = true) : x.sat.inSignedUnit = true := by
  cases x with
  | nan => cases h
  | inf s => cases h
  | fin s m =>
    have hpos := F32.inSignedUnit_satPositive (.fin false m) rfl
    cases s with
    | false => exact hpos
    | true => exact (F32.inSignedUnit_neg _).trans hpos

/-- SAT is odd because it is computed on the sign + and the sign put back (R9). -/
theorem F32.sat_neg (x : F32) : x.neg.sat = x.sat.neg := by
  cases x with
  | nan => rfl
  | inf s =>
    cases s with
    | false => rfl
    | true => exact (F32.neg_neg _).symm
  | fin s m =>
    cases s with
    | false => rfl
    | true => exact (F32.neg_neg _).symm

theorem F32.sin_zero : F32.zero.sin = F32.zero := if_pos rfl
theorem F32.cos_zero : F32.zero.cos = F32.one := if_pos rfl
theorem F32.satPositive_zero : F32.zero.satPositive = F32.zero := if_pos rfl
theorem F32.sat_zero : F32.zero.sat = F32.zero := F32.satPositive_zero

/-- Either the raw value is above 0 and kept, or it is replaced by 1.0 (R9). -/
theorem F32.exp_pos (x : F32) (h : x.isFinite = true) : F32.zero.lt x.exp = true := by
  by_cases hraw : F32.zero.lt (F32.ofBits (Config.rawExp x)) = true
  · simp [F32.exp, hraw]
  · simp only [F32.exp, h, hraw, Bool.not_false, Bool.and_self, if_true]
    decide

/-- Either the raw value lies in [0, 1] and is kept, or it is replaced by 1.0 (R9). -/
theorem F32.pow10_mem (x : F32) (h : x.isFinite = true) (hx : x.le F32.zero = true) :
    F32.zero.le x.pow10 = true ∧ x.pow10.le F32.one = true := by
  by_cases hraw : F32.zero.le (F32.ofBits (Config.rawPow10 x)) = true ∧
      (F32.ofBits (Config.rawPow10 x)).le F32.one = true
  · simp [F32.pow10, hraw]
  · have hreplaced : x.pow10 = F32.one := by
      rw [← Bool.and_eq_true, Bool.not_eq_true] at hraw
      simp [F32.pow10, h, hx, hraw]
    rw [hreplaced]
    decide

/-- Settles O45: SAT inherits its bound and its oddness from its values on data with the sign +. -/
theorem configurationFunctionsHaveTheirNamedProperties :
    Obligations.ConfigurationFunctionsHaveTheirNamedProperties := by
  refine ⟨F32.sin_zero, F32.cos_zero, F32.sat_zero, F32.sat_neg, fun x h => ⟨?_, ?_, ?_, ?_, ?_⟩⟩
  · exact (F32.inSignedUnit_iff _).1 (F32.inSignedUnit_sin x h)
  · exact (F32.inSignedUnit_iff _).1 (F32.inSignedUnit_cos x h)
  · exact F32.exp_pos x h
  · exact F32.pow10_mem x h
  · exact (F32.inSignedUnit_iff _).1 (F32.inSignedUnit_sat x h)

end Sys2Proof
end

section
/-! Rounding to nearest, ties to even (spec/00_scope.md R14): the significand `divNearest` picks is the nearest
whole number of steps, and a representable magnitude off the steps lies too far below to be nearer. -/

namespace Sys2Proof

/-- The whole number `divNearest` gives is nearest to `n / d`, and where another is as near it is even. -/
theorem F32.divNearest_nearest (n d j : Nat) (hd : 0 < d) :
    |(n : Int) - d * F32.divNearest n d| ≤ |(n : Int) - d * j| ∧
    (|(n : Int) - d * F32.divNearest n d| = |(n : Int) - d * j| → j ≠ F32.divNearest n d →
      F32.divNearest n d % 2 = 0) := by
  have hn := Nat.div_add_mod n d
  have hr := Nat.mod_lt n hd
  unfold F32.divNearest
  simp only
  generalize n / d = q at hn ⊢
  generalize n % d = r at hn hr ⊢
  have hj : (j ≠ q ∧ j ≠ q + 1 ∧ ((d : Int) * j + d ≤ d * q ∨ (d : Int) * q + 2 * d ≤ d * j)) ∨
      j = q ∨ j = q + 1 := by
    rcases Nat.lt_trichotomy j q with hlt | heq | hgt
    · exact .inl ⟨by omega, by omega, .inl (by nlinarith)⟩
    · exact .inr (.inl heq)
    · rcases Nat.eq_or_lt_of_le (Nat.succ_le_of_lt hgt) with heq | hgt
      · exact .inr (.inr heq.symm)
      · exact .inl ⟨by omega, by omega, .inr (by nlinarith)⟩
  have hnext : (d : Int) * ((q + 1 : Nat) : Int) = d * q + d := by push_cast; ring
  have hcast : (n : Int) = d * q + r := by rw [← hn]; push_cast; ring
  simp only [abs_eq_max_neg, hcast]
  split
  · rcases hj with ⟨h0, h1, hfar⟩ | rfl | rfl
    · omega
    · omega
    · rw [hnext]; omega
  · rw [hnext]
    rcases hj with ⟨h0, h1, hfar⟩ | rfl | rfl
    · omega
    · omega
    · rw [hnext]; omega

/-- The exponent of the rounding step of `n / d` (R14). -/
def F32.stepExp (n d : Nat) : Nat := (n / d).log2 - 23

theorem F32.roundMag_eq (n d : Nat) :
    F32.roundMag n d = F32.divNearest n (d * 2 ^ F32.stepExp n d) * 2 ^ F32.stepExp n d := rfl

/-- In steps, an exact magnitude is below 2^24. -/
theorem F32.quotient_lt (n d : Nat) : n / (d * 2 ^ F32.stepExp n d) < 2 ^ 24 := by
  rw [← Nat.div_div_eq_div_mul, Nat.div_lt_iff_lt_mul (Nat.two_pow_pos _), ← pow_add]
  calc n / d < 2 ^ ((n / d).log2 + 1) := Nat.lt_log2_self
    _ ≤ 2 ^ (24 + F32.stepExp n d) :=
      Nat.pow_le_pow_right (by decide) (by unfold F32.stepExp; omega)

/-- In steps longer than one unit, an exact magnitude is at least 2^23. -/
theorem F32.le_quotient (n d : Nat) (h : F32.stepExp n d ≠ 0) :
    2 ^ 23 ≤ n / (d * 2 ^ F32.stepExp n d) := by
  have hne : n / d ≠ 0 := by
    intro h0
    exact h (by rw [F32.stepExp, h0]; rfl)
  rw [← Nat.div_div_eq_div_mul, Nat.le_div_iff_mul_le (Nat.two_pow_pos _), ← pow_add]
  calc 2 ^ (23 + F32.stepExp n d) = 2 ^ (n / d).log2 := by
        congr 1; unfold F32.stepExp at h ⊢; omega
    _ ≤ n / d := Nat.log2_self_le hne

/-- Where the rounded significand is even, the significand bits of the rounded magnitude are even. -/
theorem F32.magBits_roundMag_even (n d : Nat)
    (h : F32.divNearest n (d * 2 ^ F32.stepExp n d) % 2 = 0) :
    F32.magBits (F32.roundMag n d) % 2 = 0 := by
  have hb := F32.divNearest_bounds n (d * 2 ^ F32.stepExp n d)
  have hlt := F32.quotient_lt n d
  have hge : F32.stepExp n d = 0 ∨ 2 ^ 23 ≤ F32.divNearest n (d * 2 ^ F32.stepExp n d) := by
    rcases Nat.eq_zero_or_pos (F32.stepExp n d) with h0 | hpos
    · exact .inl h0
    · exact .inr (le_trans (F32.le_quotient n d (by omega)) hb.1)
  rw [F32.roundMag_eq]
  generalize F32.divNearest n (d * 2 ^ F32.stepExp n d) = k at *
  generalize F32.stepExp n d = e at *
  rcases Nat.lt_or_ge k (2 ^ 24) with hk | hk
  · rw [F32.magBits_mul k e hk hge]
    omega
  · have hcarry : k * 2 ^ e = 2 ^ 23 * 2 ^ (e + 1) := by
      rw [show k = 2 ^ 23 * 2 by omega, Nat.mul_assoc, pow_succ' 2 e]
    rw [hcarry, F32.magBits_mul _ _ (by decide) (.inr (le_refl _))]
    omega

/-- A representable magnitude is a whole number of steps, or lies below every significand of 24 bits at that
step. -/
theorem F32.representable_on_step (s : Bool) (m e : Nat) (h : F32.Representable (.fin s m)) :
    (∃ j, m = j * 2 ^ e) ∨ (e ≠ 0 ∧ m < 2 ^ 23 * 2 ^ e) := by
  obtain ⟨k, x, rfl, hk, _, _⟩ := F32.representable_form s m h
  rcases Nat.lt_or_ge x e with hlt | hge
  · refine .inr ⟨by omega, ?_⟩
    calc k * 2 ^ x < 2 ^ 24 * 2 ^ x := Nat.mul_lt_mul_of_pos_right hk (Nat.two_pow_pos _)
      _ = 2 ^ 23 * 2 ^ (x + 1) := by rw [show 2 ^ 24 = 2 ^ 23 * 2 by rfl, Nat.mul_assoc, pow_succ' 2 x]
      _ ≤ 2 ^ 23 * 2 ^ e := Nat.mul_le_mul_left _ (Nat.pow_le_pow_right (by decide) hlt)
  · exact .inl ⟨k * 2 ^ (x - e), by rw [Nat.mul_assoc, ← pow_add, Nat.sub_add_cancel hge]⟩

/-- The rounded magnitude is nearest to the exact one among the representable magnitudes, ties to the even
significand (R14). -/
theorem F32.roundMag_nearest (n d m : Nat) (hd : 0 < d) (hm : F32.Representable (.fin false m)) :
    |(n : Int) - d * F32.roundMag n d| ≤ |(n : Int) - d * m| ∧
    (|(n : Int) - d * F32.roundMag n d| = |(n : Int) - d * m| → m ≠ F32.roundMag n d →
      F32.magBits (F32.roundMag n d) % 2 = 0) := by
  have heven := F32.magBits_roundMag_even n d
  have hlow := F32.le_quotient n d
  have hon := F32.representable_on_step false m (F32.stepExp n d) hm
  rw [F32.roundMag_eq] at heven ⊢
  generalize F32.stepExp n d = e at *
  have hD : 0 < d * 2 ^ e := Nat.mul_pos hd (Nat.two_pow_pos e)
  have hsteps : ∀ j : Nat, (d : Int) * ((j * 2 ^ e : Nat) : Int) = ((d * 2 ^ e : Nat) : Int) * j := by
    intro j; push_cast; ring
  rcases hon with ⟨j, rfl⟩ | ⟨he, hsmall⟩
  · have hnear := F32.divNearest_nearest n (d * 2 ^ e) j hD
    rw [hsteps, hsteps]
    exact ⟨hnear.1, fun htie hne => heven (hnear.2 htie fun h => hne (by rw [h]))⟩
  · have hnear := (F32.divNearest_nearest n (d * 2 ^ e) (2 ^ 23) hD).1
    have hbelow : d * m < d * (2 ^ 23 * 2 ^ e) := Nat.mul_lt_mul_of_pos_left hsmall hd
    have hexact : d * (2 ^ 23 * 2 ^ e) ≤ n := by
      have := (Nat.le_div_iff_mul_le hD).1 (hlow he)
      calc d * (2 ^ 23 * 2 ^ e) = 2 ^ 23 * (d * 2 ^ e) := by ring
        _ ≤ n := this
    have hstrict : |(n : Int) - d * ((F32.divNearest n (d * 2 ^ e) * 2 ^ e : Nat) : Int)|
        < |(n : Int) - d * m| := by
      rw [hsteps]
      refine lt_of_le_of_lt hnear ?_
      rw [← hsteps, ← Nat.cast_mul, ← Nat.cast_mul, abs_of_nonneg (by omega), abs_of_nonneg (by omega)]
      omega
    exact ⟨le_of_lt hstrict, fun htie => absurd htie (ne_of_lt hstrict)⟩

/-- A rounded magnitude below the overflow threshold has an encoding (R12, R14). -/
theorem F32.roundMag_encoded (n d : Nat) (h : F32.roundMag n d < F32.overflow) :
    ∃ w : Word, F32.ofBits w = .fin false (F32.roundMag n d) := by
  have hrep := F32.representable_round false n d
  rw [F32.round, if_pos h] at hrep
  exact ⟨_, hrep _ (F32.isNanWord_nanWord 0#24)⟩

theorem F32.round_eq (neg : Bool) (n d : Nat) : F32.round neg n d =
    if F32.overflow ≤ F32.roundMag n d then .inf neg else .fin neg (F32.roundMag n d) := by
  unfold F32.round
  by_cases h : F32.overflow ≤ F32.roundMag n d
  · rw [if_pos h, if_neg (not_lt.2 h)]
  · rw [if_neg h, if_pos (not_le.1 h)]

/-- Rounding does not carry an exact magnitude past a representable one above it. -/
theorem F32.roundMag_le (n d m : Nat) (hd : 0 < d) (hm : F32.Representable (.fin false m))
    (hle : n ≤ d * m) : F32.roundMag n d ≤ m := by
  have hnear := (F32.roundMag_nearest n d m hd hm).1
  by_contra hpast
  have hfar : d * m < d * F32.roundMag n d := Nat.mul_lt_mul_of_pos_left (by omega) hd
  rw [← Nat.cast_mul, ← Nat.cast_mul, abs_of_nonpos (by omega), abs_of_nonpos (by omega)] at hnear
  omega

/-- `u2f` of a u32 does not overflow: 2^32 is a binary32 value, and rounding does not pass it (R17). -/
theorem F32.ofNat_finite (n : Nat) (h : n < 2 ^ 32) :
    F32.ofNat n = .fin false (F32.roundMag (n * F32.one149) 1) := by
  have hrep : F32.Representable (.fin false (1 * 2 ^ 181)) :=
    F32.representable_whole false 1 181 (by decide) (by decide) (by decide)
  have hexact : n * F32.one149 ≤ 1 * (1 * 2 ^ 181) :=
    calc n * F32.one149 ≤ 2 ^ 32 * F32.one149 := Nat.mul_le_mul_right _ (le_of_lt h)
      _ = 1 * (1 * 2 ^ 181) := by decide
  have hlt : F32.roundMag (n * F32.one149) 1 < F32.overflow :=
    lt_of_le_of_lt (F32.roundMag_le _ 1 _ Nat.one_pos hrep hexact) (by decide)
  rw [F32.ofNat, F32.round, if_pos hlt]

end Sys2Proof
end

section
/-! The operations of spec/00_scope.md R14 as one rounding of the exact result, with the special cases of
IEEE 754. -/

open Sys2Proof.Machine

namespace Sys2Proof

@[simp] theorem signedUnits_false (m : Nat) : signedUnits false m = (m : Int) := rfl
@[simp] theorem signedUnits_true (m : Nat) : signedUnits true m = -(m : Int) := rfl

theorem signedUnits_not (t : Bool) (n : Nat) : signedUnits (!t) n = -signedUnits t n := by
  cases t <;> simp

theorem signedUnits_add (s : Bool) (m n : Nat) :
    signedUnits s m + signedUnits s n = signedUnits s (m + n) := by
  cases s <;> simp [add_comm]

theorem signedUnits_sub (s : Bool) (m n : Nat) (h : n ≤ m) :
    signedUnits s m - signedUnits s n = signedUnits s (m - n) := by
  cases s <;> simp <;> omega

/-- An exact sum given by its sign and magnitude rounds with that sign; for an exact 0 this is the sign
`roundedSum` is told. -/
theorem roundedSum_signedUnits (z s : Bool) (k : Nat) (h : k ≠ 0 ∨ z = s) :
    roundedSum z (signedUnits s k) = F32.round s k 1 := by
  unfold roundedSum
  rcases Nat.eq_zero_or_pos k with rfl | hpos
  · have hz : z = s := h.resolve_left (fun hne => hne rfl)
    rw [F32.round_zero, if_pos (by cases s <;> rfl), hz]
  · cases s
    · rw [if_neg (by simp; omega)]
      simp [not_lt.2 (Int.natCast_nonneg k)]
    · rw [if_neg (by simp; omega)]
      simp [hpos]

/-- A sum of finite data is one rounding of the exact sum: with equal signs the magnitudes add, and otherwise the
larger magnitude gives the sign (R14). -/
theorem F32.add_fin (s t : Bool) (m n : Nat) :
    (F32.fin s m).add (.fin t n) = roundedSum (s && t) (signedUnits s m + signedUnits t n) := by
  by_cases hst : s = t
  · subst hst
    rw [signedUnits_add, roundedSum_signedUnits _ _ _ (.inr (Bool.and_self s)), F32.add, if_pos rfl]
  · have ht : t = !s := Bool.eq_not.2 (Ne.symm hst)
    rw [F32.add, if_neg hst]
    rcases Nat.lt_trichotomy n m with hlt | heq | hgt
    · rw [if_pos hlt, ht, signedUnits_not, ← sub_eq_add_neg, signedUnits_sub s m n hlt.le,
        roundedSum_signedUnits _ _ _ (.inl (by omega))]
    · subst heq
      rw [if_neg (lt_irrefl n), if_neg (lt_irrefl n), ht, signedUnits_not, add_neg_cancel,
        Bool.and_not_self]
      rfl
    · have hs : s = !t := by rw [ht, Bool.not_not]
      rw [if_neg (by omega), if_pos hgt, hs, signedUnits_not, neg_add_eq_sub,
        signedUnits_sub t n m hgt.le, roundedSum_signedUnits _ _ _ (.inl (by omega))]

theorem F32.sub_fin (s t : Bool) (m n : Nat) :
    (F32.fin s m).sub (.fin t n) = roundedSum (s && !t) (signedUnits s m - signedUnits t n) := by
  rw [sub_eq_add_neg, ← signedUnits_not]
  exact F32.add_fin s (!t) m n

theorem F32.div_fin (s t : Bool) (m n : Nat) :
    (F32.fin s m).div (.fin t n) =
      (if n ≠ 0 then F32.round (s ^^ t) (m * F32.one149) n
       else if m ≠ 0 then .inf (s ^^ t) else .nan) := by
  unfold F32.div
  by_cases hn : n = 0
  · by_cases hm : m = 0 <;> simp [hn, hm]
  · simp [hn]

theorem F32.infinity_operations (s t : Bool) (m : Nat) :
    (F32.inf s).add (.inf t) = (if s = t then .inf s else .nan) ∧
    (F32.inf s).sub (.inf t) = (if s = t then .nan else .inf s) ∧
    (F32.inf s).add (.fin t m) = .inf s ∧ (F32.fin t m).add (.inf s) = .inf s ∧
    (F32.inf s).sub (.fin t m) = .inf s ∧ (F32.fin t m).sub (.inf s) = .inf (!s) ∧
    (F32.inf s).mul (.inf t) = .inf (s ^^ t) ∧
    (F32.inf s).mul (.fin t m) = (if m = 0 then .nan else .inf (s ^^ t)) ∧
    (F32.fin t m).mul (.inf s) = (if m = 0 then .nan else .inf (s ^^ t)) ∧
    (F32.inf s).div (.inf t) = .nan ∧ (F32.inf s).div (.fin t m) = .inf (s ^^ t) ∧
    (F32.fin t m).div (.inf s) = .fin (s ^^ t) 0 ∧ (F32.inf s).neg = .inf (!s) := by
  have hmul : (F32.fin t m).mul (.inf s) = (if m = 0 then .nan else .inf (s ^^ t)) := by
    rw [Bool.xor_comm]; rfl
  have hdiv : (F32.fin t m).div (.inf s) = .fin (s ^^ t) 0 := by
    rw [Bool.xor_comm]; rfl
  have hsub : (F32.inf s).sub (.inf t) = (if s = t then .nan else .inf s) := by
    cases s <;> cases t <;> rfl
  exact ⟨rfl, hsub, rfl, rfl, rfl, rfl, rfl, rfl, hmul, rfl, rfl, hdiv, rfl⟩

theorem F32.nan_operations (x : F32) :
    F32.nan.add x = .nan ∧ x.add .nan = .nan ∧ F32.nan.sub x = .nan ∧ x.sub .nan = .nan ∧
    F32.nan.mul x = .nan ∧ x.mul .nan = .nan ∧ F32.nan.div x = .nan ∧ x.div .nan = .nan ∧
    F32.nan.neg = .nan := by
  cases x <;> exact ⟨rfl, rfl, rfl, rfl, rfl, rfl, rfl, rfl, rfl⟩

/-- Flipping bit 31 adds 2^31 modulo 2^32. -/
theorem xor_signBit (w : Word) : w ^^^ 0x80000000#32 = w + 0x80000000#32 := by
  have hw := w.isLt
  have hlow : (w.toNat ^^^ 2 ^ 31) % 2 ^ 31 = w.toNat % 2 ^ 31 := by
    rw [Nat.xor_mod_two_pow, Nat.mod_self, Nat.xor_zero]
  have hhigh : (w.toNat ^^^ 2 ^ 31) / 2 ^ 31 = w.toNat / 2 ^ 31 ^^^ 1 := by
    rw [Nat.xor_div_two_pow, Nat.div_self (by decide)]
  apply BitVec.eq_of_toNat_eq
  rw [BitVec.toNat_xor, BitVec.toNat_add, show (0x80000000#32).toNat = 2 ^ 31 from rfl]
  have hbit : w.toNat / 2 ^ 31 = 0 ∨ w.toNat / 2 ^ 31 = 1 := by omega
  rcases hbit with h | h
  · have hset : (w.toNat ^^^ 2 ^ 31) / 2 ^ 31 = 1 := by rw [hhigh, h]; rfl
    omega
  · have hclear : (w.toNat ^^^ 2 ^ 31) / 2 ^ 31 = 0 := by rw [hhigh, h]; rfl
    omega

theorem F32.pack_true (low : Nat) : F32.pack true low = F32.pack false low ^^^ 0x80000000#32 := by
  rw [xor_signBit, F32.pack, F32.pack, if_pos rfl, if_neg Bool.false_ne_true, Nat.zero_add, Nat.add_comm,
    BitVec.ofNat_add]
  rfl

theorem F32.pack_not (s : Bool) (low : Nat) : F32.pack (!s) low = F32.pack s low ^^^ 0x80000000#32 := by
  cases s with
  | false => exact F32.pack_true low
  | true =>
    rw [F32.pack_true, BitVec.xor_assoc, BitVec.xor_self, BitVec.xor_zero]
    rfl

/-- Negation flips the sign bit of an encoding (R14). -/
theorem F32.toBits_neg (n : Word) (x : F32) (h : x ≠ .nan) :
    x.neg.toBits n = x.toBits n ^^^ 0x80000000#32 := by
  cases x with
  | nan => exact absurd rfl h
  | inf s => exact F32.pack_not s _
  | fin s m => exact F32.pack_not s _

theorem F32.neg_toBits_ofBits (n w : Word) (h : F32.ofBits w ≠ .nan) :
    (F32.ofBits w).neg.toBits n = w ^^^ 0x80000000#32 := by
  rw [F32.toBits_neg n _ h, F32.toBits_ofBits n w h]

/-- Settles O44: the parts about rounding come from `F32.roundMag_nearest` and the parts about the operations
from their cases on NaNs, infinities and finite data. -/
theorem roundingIsToNearestTiesToEven : Obligations.RoundingIsToNearestTiesToEven := by
  refine ⟨⟨rfl, rfl⟩, ?nearest, ?encoded, F32.round_eq, ?finite, F32.infinity_operations,
    F32.nan_operations, F32.neg_toBits_ofBits, F32.ofNat_finite⟩
  case nearest =>
    intro n d m w hd hw
    exact F32.roundMag_nearest n d m hd (hw ▸ F32.representable_ofBits w)
  case encoded =>
    intro n d _
    exact (Nat.lt_or_ge (F32.roundMag n d) F32.overflow).imp (F32.roundMag_encoded n d) id
  case finite =>
    intro s t m n
    exact ⟨F32.add_fin s t m n, F32.sub_fin s t m n, rfl, F32.div_fin s t m n, rfl⟩

end Sys2Proof
end

section
/-! The reset state: what the legal ranges of a block's parameters give of each unit's record at reset
(spec/00_scope.md R6, R8, spec/10_state.md R43). -/

namespace Sys2Proof

theorem lineLength_pos {n : Nat} (h : lineLength n = true) : 0 < n := by
  simp only [lineLength, inRange, Bool.and_eq_true, decide_eq_true_eq] at h
  exact h.1

/-- Every line of a legal block has at least one element (R6). -/
theorem Params.legal_lines {c : Params} (h : c.legal = true) :
    0 < c.nDbuf ∧ (∀ k, 0 < c.combLen.get k) ∧ ∀ k, 0 < c.apLen.get k := by
  simp only [Params.legal, Params.structureLegal, List.all_cons, Bool.and_eq_true, id] at h
  refine ⟨lineLength_pos (by tauto), fun k => lineLength_pos ?_, fun k => lineLength_pos ?_⟩
  all_goals match k with
    | 0 | 1 | 2 | 3 => simp only [Four.get]; tauto

/-- The reset values a legal block draws from its parameters are in the ranges their fields keep (R8). -/
theorem Params.legal_resetValues {c : Params} (h : c.legal = true) :
    Machine.within dutyMin dutyMax c.dutyReset ∧ inUnit c.smoothCoeffReset = true ∧
    (F32.ofBits c.delayBpmReset).isFinite = true ∧ F32.zero.lt (F32.ofBits c.delayBpmReset) = true := by
  simp only [Params.legal, Params.numericLegal, isPositive, List.all_cons, Bool.and_eq_true, id] at h
  refine ⟨⟨?_, ?_⟩, ?_, ?_, ?_⟩ <;> tauto

theorem Four.get_of {α : Type} (g : Fin 4 → α) (k : Fin 4) : (Four.of g).get k = g k :=
  match k with
  | 0 | 1 | 2 | 3 => rfl

end Sys2Proof

namespace Sys2Proof.Machine

/-- At reset all records of a unit are alike. -/
theorem forall_of_reset {α : Type} {Q : α → Prop} {n : Nat} {r : α} (h : Q r) : ∀ u ∈ List.replicate n r, Q u :=
  List.forall_mem_replicate.2 (.inr h)

theorem Smoother.reset_coeffOk {c : Params} (h : c.legal = true) : (Smoother.reset c).CoeffOk := by
  obtain ⟨_, hcoeff, _⟩ := c.legal_resetValues h
  exact hcoeff

theorem Osc.reset_dutyOk {c : Params} (h : c.legal = true) : within dutyMin dutyMax (Osc.reset c).duty := by
  obtain ⟨hduty, _⟩ := c.legal_resetValues h
  exact hduty

theorem Osc.reset_phaseOk (c : Params) : (Osc.reset c).PhaseOk := .inr ⟨rfl, rfl⟩

theorem Biquad.reset_coherent (c : Params) (fc q : Word) : (Biquad.reset c fc q).Coherent c.fsF :=
  Biquad.coherent_recompute _ _ _ ofBits_resetNan

theorem notSubnormal_zero : NotSubnormal 0#32 := by
  unfold NotSubnormal
  decide

theorem Ladder.reset_flushed (c : Params) : (Ladder.reset c).Flushed := by
  constructor <;> exact notSubnormal_zero

theorem Delay.reset_settingsOk {c : Params} (h : c.legal = true) : (Delay.reset c).SettingsOk := by
  obtain ⟨_, _, hfinite, hpos⟩ := c.legal_resetValues h
  constructor
  case bpmFinite => exact hfinite
  case bpm => exact hpos
  case beatsFinite => show (F32.ofBits 0#32).isFinite = true; decide
  case beats => show F32.zero.le (F32.ofBits 0#32) = true; decide
  case fb => show within F32.zero delayFbMax 0#32; constructor <;> decide
  case wet => show within F32.zero F32.one 0#32; constructor <;> decide

theorem Reverb.reset_comb (c : Params) (k : Fin 4) : (Reverb.reset c).comb.get k = Ring.zeroed := Four.get_of _ k
theorem Reverb.reset_ap (c : Params) (k : Fin 4) : (Reverb.reset c).ap.get k = Ring.zeroed := Four.get_of _ k
theorem Reverb.reset_fbc (c : Params) (k : Fin 4) : (Reverb.reset c).fbc.get k = c.combFbBase := Four.get_of _ k

theorem State.resetOf_linesOk {c : Params} (h : c.legal = true) : (State.resetOf c).LinesOk := by
  obtain ⟨hdelay, hcomb, hap⟩ := c.legal_lines h
  constructor
  case delay => exact forall_of_reset (Ring.ok_zeroed _ hdelay)
  case comb => exact forall_of_reset fun k => Reverb.reset_comb c k ▸ Ring.ok_zeroed _ (hcomb k)
  case allpass => exact forall_of_reset fun k => Reverb.reset_ap c k ▸ Ring.ok_zeroed _ (hap k)

theorem State.resetOf_coresCoherent (c : Params) : (State.resetOf c).CoresCoherent where
  biquad := forall_of_reset (Biquad.reset_coherent c _ _)
  lowpass := forall_of_reset (Q := fun d : Delay => d.lp.Coherent c.fsF) (Biquad.reset_coherent c _ _)

theorem State.resetOf_coeffsOk {c : Params} (h : c.legal = true) : (State.resetOf c).CoeffsOk where
  smooth := forall_of_reset (Smoother.reset_coeffOk h)
  ladder := forall_of_reset ⟨rfl, rfl⟩
  delay := forall_of_reset ⟨rfl, rfl⟩

theorem State.resetOf_statusOk (c : Params) : (State.resetOf c).StatusOk := by
  show 0#32 &&& ~~~1#32 = 0#32
  decide

/-- Settles O60: each invariant speaks of every record of a unit, and at reset all records of a unit are its
reset record. -/
theorem resetMeetsEveryInvariant : Obligations.ResetMeetsEveryInvariant := by
  refine ⟨show Params.reference.legal = true by decide, fun c h => ⟨State.shaped_resetOf c,
    State.resetOf_linesOk h, ?phases, ?duties, State.resetOf_coresCoherent c, State.resetOf_coeffsOk h,
    ?ladders, ?settings, State.resetOf_statusOk c⟩⟩
  case phases => exact forall_of_reset (Osc.reset_phaseOk c)
  case duties => exact forall_of_reset (Osc.reset_dutyOk h)
  case ladders => exact forall_of_reset (Ladder.reset_flushed c)
  case settings => exact forall_of_reset (Delay.reset_settingsOk h)

/-- Settles O13: every field is the one the unit's reset record names, the cores' with the clamped settings and
the recomputed coefficients. -/
theorem resetValuesAreThoseOfTheTable : Obligations.ResetValuesAreThoseOfTheTable := by
  intro c
  refine ⟨rfl, rfl, rfl, rfl, rfl, rfl, ?ladder, ?biquad, ?delay, ?reverb, List.length_replicate,
    List.length_replicate, List.length_replicate, List.length_replicate, ofBits_resetNan, fun _ a _ _ => rfl⟩
  case ladder => exact forall_of_reset ⟨rfl, rfl, rfl, rfl, rfl, rfl⟩
  case biquad => exact forall_of_reset ⟨rfl, rfl, rfl, rfl, rfl⟩
  case delay => exact forall_of_reset ⟨rfl, rfl, rfl, rfl, rfl, rfl, rfl, rfl, rfl, rfl, rfl⟩
  case reverb => exact forall_of_reset fun k => ⟨Reverb.reset_comb c k, Reverb.reset_ap c k, Reverb.reset_fbc c k⟩

end Sys2Proof.Machine
end

section
/-! Invariants of one unit: a property of every record is kept by every step where the unit's reset record has
it and each change a command makes to one record keeps it. -/

namespace Sys2Proof.Machine

/-- The induction every unit invariant shares; `units` picks the unit and `move` lists what its commands do. -/
theorem step_keeps_unit {α : Type} {units : State → List α} {move : State → Nat → α → Instr → α → Prop}
    (hframe : ∀ s t, State.SameUnits s t → units t = units s)
    (hafter : ∀ i s t, exec i s = .next t →
      UnitAfter i (units s) (units t) (units (State.resetOf s.cfg)) (move s))
    {Q : Params → α → Prop} (hreset : ∀ c, c.legal = true → ∀ u ∈ units (State.resetOf c), Q c u)
    (hmove : ∀ s idx u i u', move s idx u i u' → Q s.cfg u → Q s.cfg u')
    {s t : State} (hs : ∀ u ∈ units s, Q s.cfg u) (h : step s = .next t) : ∀ u ∈ units t, Q t.cfg u := by
  refine step_keeps (fun s => ∀ u ∈ units s, Q s.cfg u) ?_ ?_ s t hs h
  · intro s t hcfg hunits hs
    rw [hframe s t hunits, hcfg]
    exact hs
  · intro i s t hlegal hs hexec
    rw [exec_cfg i s t hexec]
    exact (hafter i s t hexec).forall (Q s.cfg) hs (hreset s.cfg hlegal)
      fun idx u u' _ hu hm => hmove s idx u i u' hm hu

section
variable {s t : State} (h : step s = .next t)
include h

theorem step_keeps_smooth {Q : Params → Smoother → Prop} (hs : ∀ u ∈ s.smooth, Q s.cfg u)
    (hreset : ∀ c : Params, c.legal = true → Q c (Smoother.reset c))
    (hmove : ∀ s idx u i u', SmoothMove s idx u i u' → Q s.cfg u → Q s.cfg u') : ∀ u ∈ t.smooth, Q t.cfg u :=
  step_keeps_unit (units := State.smooth) (fun _ _ hu => hu.smooth) exec_smooth
    (fun c hc => forall_of_reset (hreset c hc)) hmove hs h

theorem step_keeps_osc {Q : Params → Osc → Prop} (hs : ∀ o ∈ s.osc, Q s.cfg o)
    (hreset : ∀ c : Params, c.legal = true → Q c (Osc.reset c))
    (hmove : ∀ s idx o i o', OscMove s idx o i o' → Q s.cfg o → Q s.cfg o') : ∀ o ∈ t.osc, Q t.cfg o :=
  step_keeps_unit (units := State.osc) (fun _ _ hu => hu.osc) exec_osc
    (fun c hc => forall_of_reset (hreset c hc)) hmove hs h

theorem step_keeps_delay {Q : Params → Delay → Prop} (hs : ∀ d ∈ s.delay, Q s.cfg d)
    (hreset : ∀ c : Params, c.legal = true → Q c (Delay.reset c))
    (hmove : ∀ s idx d i d', DelayMove s idx d i d' → Q s.cfg d → Q s.cfg d') : ∀ d ∈ t.delay, Q t.cfg d :=
  step_keeps_unit (units := State.delay) (fun _ _ hu => hu.delay) exec_delay
    (fun c hc => forall_of_reset (hreset c hc)) hmove hs h

theorem step_keeps_ladder {Q : Params → Ladder → Prop} (hs : ∀ l ∈ s.ladder, Q s.cfg l)
    (hreset : ∀ c : Params, c.legal = true → Q c (Ladder.reset c))
    (hmove : ∀ s idx l i l', LadderMove s idx l i l' → Q s.cfg l → Q s.cfg l') : ∀ l ∈ t.ladder, Q t.cfg l :=
  step_keeps_unit (units := State.ladder) (fun _ _ hu => hu.ladder) exec_ladder
    (fun c hc => forall_of_reset (hreset c hc)) hmove hs h

theorem step_keeps_biquad {Q : Params → Biquad → Prop} (hs : ∀ b ∈ s.biquad, Q s.cfg b)
    (hreset : ∀ c : Params, c.legal = true → Q c (Biquad.reset c c.bqFcReset c.bqQReset))
    (hmove : ∀ s idx b i b', BiquadMove s idx b i b' → Q s.cfg b → Q s.cfg b') : ∀ b ∈ t.biquad, Q t.cfg b :=
  step_keeps_unit (units := State.biquad) (fun _ _ hu => hu.biquad) exec_biquad
    (fun c hc => forall_of_reset (hreset c hc)) hmove hs h

end

end Sys2Proof.Machine
end

section
/-! The oscillator's phase stays inside its cycle (spec/10_state.md R37). -/

namespace Sys2Proof.Machine

theorem Osc.phaseOk_of_phase_zero {o : Osc} (h : o.phase = 0#32) : o.PhaseOk := by
  by_cases hc : o.cyc = 0#32
  · exact .inr ⟨hc, h⟩
  · refine .inl ?_
    rw [h]
    exact Nat.pos_of_ne_zero (BitVec.toNat_inj.not.2 hc)

/-- A commit at phase 0 may shorten the cycle, and 0 is inside every cycle (R161). -/
theorem Osc.commit_phaseOk {o : Osc} (h : o.PhaseOk) : o.commit.PhaseOk := by
  by_cases h0 : o.phase = 0#32
  · exact Osc.phaseOk_of_phase_zero (o.commit_phase.trans h0)
  · rw [Osc.commit, if_neg h0]
    exact h

/-- The phase advances modulo the cycle length (R161). -/
theorem Osc.advance_phaseOk {o : Osc} (h : o.cyc ≠ 0#32) : o.advance.PhaseOk := by
  have hpos : 0 < o.cyc.toNat := Nat.pos_of_ne_zero (BitVec.toNat_inj.not.2 h)
  have hlt := Nat.mod_lt (o.phase.toNat + 1) hpos
  refine .inl ?_
  rw [Osc.advance_cyc, Osc.advance, BitVec.toNat_ofNat, Nat.mod_eq_of_lt (hlt.trans o.cyc.isLt)]
  exact hlt

theorem Osc.sample_phaseOk (n : Word) {o : Osc} (h : o.PhaseOk) : (o.sample n).2.PhaseOk := by
  rw [Osc.sample_snd]
  split
  · exact Osc.commit_phaseOk h
  · exact Osc.advance_phaseOk ‹_›

theorem OscMove.phaseOk {s : State} {idx : Nat} {o o' : Osc} {i : Instr} (hm : OscMove s idx o i o')
    (h : o.PhaseOk) : o'.PhaseOk := by
  cases hm with
  | setFreq | setWave | setDuty => exact h
  | sample => exact Osc.sample_phaseOk _ h
  | reset => exact Osc.phaseOk_of_phase_zero rfl

/-- Settles O56: only OSC.SAMPLE and OSC.RESET touch the phase or the cycle length. -/
theorem stepKeepsThePhases : Obligations.StepKeepsThePhases := fun _ _ hs h =>
  step_keeps_osc (Q := fun _ => Osc.PhaseOk) h hs (fun c _ => Osc.reset_phaseOk c) fun _ _ _ _ _ => OscMove.phaseOk

end Sys2Proof.Machine
end

section
/-! A biquad core's coefficients are those of its settings (spec/10_state.md R38). -/

namespace Sys2Proof.Machine

/-- A biquad step moves only the history (R234), which the coefficients do not depend on. -/
theorem Biquad.step_coherent {f : F32} {c : Biquad} (h : c.Coherent f) (n x : Word) : (c.step n x).2.Coherent f := h

theorem BiquadMove.coherent {s : State} {idx : Nat} {c c' : Biquad} {i : Instr} (hm : BiquadMove s idx c i c')
    (h : c.Coherent s.cfg.fsF) : c'.Coherent s.cfg.fsF := by
  cases hm with
  | setCutoff | setQ | setMode => exact Biquad.coherent_recompute _ _ _ s.ofBits_nan
  | process => exact Biquad.step_coherent h _ _

/-- No command sets a delay's lowpass (R197). -/
theorem DelayMove.lp {s : State} {idx : Nat} {d d' : Delay} {i : Instr} (hm : DelayMove s idx d i d') :
    d'.lp = d.lp ∨ ∃ v, d'.lp = (d.lp.step (s.nan .y) v).2 := by
  cases hm with
  | setBeats | setBpm | setFb | setWet => exact .inl rfl
  | process => exact Delay.process_lp _ _ _ _

theorem DelayMove.lp_coherent {s : State} {idx : Nat} {d d' : Delay} {i : Instr} (hm : DelayMove s idx d i d')
    (h : d.lp.Coherent s.cfg.fsF) : d'.lp.Coherent s.cfg.fsF := by
  rcases hm.lp with hlp | ⟨v, hlp⟩ <;> rw [hlp]
  · exact h
  · exact Biquad.step_coherent h _ _

/-- Settles O57: a setter recomputes the coefficients from the new settings, and a step leaves both. -/
theorem stepKeepsTheBiquadsCoherent : Obligations.StepKeepsTheBiquadsCoherent := fun _ _ hs h => {
  biquad := step_keeps_biquad (Q := fun c b => b.Coherent c.fsF) h hs.biquad
    (fun c _ => Biquad.reset_coherent c _ _) fun _ _ _ _ _ => BiquadMove.coherent
  lowpass := step_keeps_delay (Q := fun c d => d.lp.Coherent c.fsF) h hs.lowpass
    (fun c _ => Biquad.reset_coherent c _ _) fun _ _ _ _ _ => DelayMove.lp_coherent }

end Sys2Proof.Machine
end

section
/-! Smoothing coefficients (spec/10_state.md R34, R45) and the flushed state of a ladder (spec/44_ladder.md
R216). -/

namespace Sys2Proof.Machine

theorem SmoothMove.coeffOk {s : State} {idx : Nat} {u u' : Smoother} {i : Instr} (hm : SmoothMove s idx u i u')
    (h : u.CoeffOk) : u'.CoeffOk := by
  cases hm with
  | setTarget => exact h
  | get => rw [Smoother.CoeffOk, Smoother.step_coeff]; exact h
  | setCoeff hrange => exact hrange

/-- No command writes a coefficient inside a ladder (R45). -/
theorem LadderMove.coeffs {s : State} {idx : Nat} {l l' : Ladder} {i : Instr} (hm : LadderMove s idx l i l') :
    l'.sFc.coeff = l.sFc.coeff ∧ l'.sRes.coeff = l.sRes.coeff := by
  cases hm with
  | setCutoff | setRes | setMode => exact ⟨rfl, rfl⟩
  | process => exact ⟨Smoother.step_coeff _ _, Smoother.step_coeff _ _⟩

/-- A delay's per-sample step leaves the target and the coefficient of its wet mix (R195). -/
theorem Delay.process_sWet_settings (c : Params) (nan : Site → Word) (d : Delay) (x : Word) :
    (d.process c nan x).2.sWet.tgt = d.sWet.tgt ∧ (d.process c nan x).2.sWet.coeff = d.sWet.coeff := by
  rcases d.process_sWet c nan x with h | h <;> rw [h]
  · exact ⟨rfl, rfl⟩
  · exact ⟨Smoother.step_tgt _ _, Smoother.step_coeff _ _⟩

/-- No command writes a coefficient inside a delay (R45). -/
theorem DelayMove.coeffs {s : State} {idx : Nat} {d d' : Delay} {i : Instr} (hm : DelayMove s idx d i d') :
    d'.sLen.coeff = d.sLen.coeff ∧ d'.sWet.coeff = d.sWet.coeff := by
  cases hm with
  | setBeats | setBpm | setFb | setWet => exact ⟨rfl, rfl⟩
  | process =>
    refine ⟨?_, (d.process_sWet_settings _ _ _).2⟩
    rw [Delay.process_sLen, Smoother.step_coeff]

/-- A flushed value is not subnormal, and encoding a representable one keeps the value (R19). -/
theorem notSubnormal_flush {x : F32} {n : Word} (hx : F32.Representable x) (hn : F32.IsNanWord n) :
    NotSubnormal (x.flush.toBits n) := by
  rw [NotSubnormal, F32.representable_flush x hx n hn]
  exact F32.flush_not_subnormal x

/-- Each stage value is flushed before it is stored (R216); a stage output is a difference and a stage input a
saturated value, so both are representable. -/
theorem Ladder.process_flushed (f : F32) {nan : Site → Word} (hn : ∀ site, F32.IsNanWord (nan site)) (l : Ladder)
    (x : F32) : (l.process f nan x).2.Flushed := by
  constructor
  case y1 | y2 | y3 | y4 => exact notSubnormal_flush (F32.representable_sub _ _) (hn _)
  case o1 | o2 | o3 | o4 => exact notSubnormal_flush (F32.representable_sat _) (hn _)

theorem LadderMove.flushed {s : State} {idx : Nat} {l l' : Ladder} {i : Instr} (hm : LadderMove s idx l i l')
    (h : l.Flushed) : l'.Flushed := by
  cases hm with
  | setCutoff | setRes | setMode => exact ⟨h.y1, h.y2, h.y3, h.y4, h.o1, h.o2, h.o3, h.o4⟩
  | process => exact Ladder.process_flushed _ s.ofBits_nan _ _

theorem step_keeps_coeffsOk {s t : State} (hs : s.CoeffsOk) (h : step s = .next t) : t.CoeffsOk where
  smooth := step_keeps_smooth (Q := fun _ => Smoother.CoeffOk) h hs.smooth
    (fun _ => Smoother.reset_coeffOk) fun _ _ _ _ _ => SmoothMove.coeffOk
  ladder := step_keeps_ladder (Q := fun c l => l.sFc.coeff = c.scLadderFc ∧ l.sRes.coeff = c.scLadderRes) h
    hs.ladder (fun _ _ => ⟨rfl, rfl⟩) fun _ _ _ _ _ hm hl => ⟨hm.coeffs.1.trans hl.1, hm.coeffs.2.trans hl.2⟩
  delay := step_keeps_delay (Q := fun c d => d.sLen.coeff = c.scDelayLen ∧ d.sWet.coeff = c.scDelayWet) h
    hs.delay (fun _ _ => ⟨rfl, rfl⟩) fun _ _ _ _ _ hm hd => ⟨hm.coeffs.1.trans hd.1, hm.coeffs.2.trans hd.2⟩

/-- Settles O58: SMOOTH.SETCOEFF tests its range, no command writes the other coefficients, and only
LADDER.PROCESS writes stage values. -/
theorem stepKeepsCoefficientsAndFlushedLadders : Obligations.StepKeepsCoefficientsAndFlushedLadders :=
  ⟨fun _ _ => step_keeps_coeffsOk, fun _ _ hs h => step_keeps_ladder (Q := fun _ => Ladder.Flushed) h hs
    (fun c _ => Ladder.reset_flushed c) fun _ _ _ _ _ => LadderMove.flushed⟩

end Sys2Proof.Machine
end

section
/-! The ranges of the settings (spec/10_state.md R36, R41) and of STATUS (R33). -/

namespace Sys2Proof.Machine

/-- A finite operand clamped between ordered bounds that are binary32 values is stored inside them (R18). -/
theorem within_clamp {w n : Word} {lo hi : F32} (hw : (F32.ofBits w).isFinite = true) (hn : F32.IsNanWord n)
    (hlo : F32.Representable lo) (hhi : F32.Representable hi) (hle : lo.le hi = true) :
    within lo hi (((F32.ofBits w).clamp lo hi).toBits n) := by
  obtain ⟨k, hk⟩ := F32.key_of_isFinite _ hw
  have hrep := F32.representable_clamp _ lo hi (F32.representable_ofBits w) hlo hhi
  rw [within, hrep n hn]
  exact F32.clamp_mem _ lo hi k hk hle

theorem OscMove.dutyOk {s : State} {idx : Nat} {o o' : Osc} {i : Instr} (hm : OscMove s idx o i o')
    (h : within dutyMin dutyMax o.duty) : within dutyMin dutyMax o'.duty := by
  cases hm with
  | setFreq | setWave | reset => exact h
  | sample => rw [Osc.sample_duty]; exact h
  | setDuty hfin w hw =>
    subst hw
    exact within_clamp hfin (s.ofBits_nan _) (F32.representable_ofBits _) (F32.representable_ofBits _) (by decide)

theorem DelayMove.settingsOk {s : State} {idx : Nat} {d d' : Delay} {i : Instr} (hm : DelayMove s idx d i d')
    (h : d.SettingsOk) : d'.SettingsOk := by
  obtain ⟨hbeatsFinite, hbeats, hbpmFinite, hbpm, hfb, hwet⟩ := h
  cases hm with
  | setBeats hop w hw =>
    obtain ⟨hfin, hge⟩ := Bool.and_eq_true_iff.1 hop
    exact ⟨hfin, hge, hbpmFinite, hbpm, hfb, hwet⟩
  | setBpm hop w hw =>
    obtain ⟨hfin, hgt⟩ := Bool.and_eq_true_iff.1 hop
    exact ⟨hbeatsFinite, hbeats, hfin, hgt, hfb, hwet⟩
  | setFb hfin w hw =>
    subst hw
    exact ⟨hbeatsFinite, hbeats, hbpmFinite, hbpm, within_clamp hfin (s.ofBits_nan _) (F32.representable_zero _)
      (F32.representable_ofBits _) (by decide), hwet⟩
  | setWet hfin w hw =>
    subst hw
    exact ⟨hbeatsFinite, hbeats, hbpmFinite, hbpm, hfb, within_clamp hfin (s.ofBits_nan _)
      (F32.representable_zero _) (F32.representable_lit _ _) (by decide)⟩
  | process =>
    constructor
    case wet => rw [(d.process_sWet_settings _ _ _).1]; exact hwet
    all_goals simpa only [Delay.process_beats, Delay.process_bpm, Delay.process_fb]

theorem State.setIll_statusOk {s : State} (h : s.StatusOk) : s.setIll.StatusOk := by
  unfold State.StatusOk at h ⊢
  rw [State.setIll_status, BitVec.and_or_distrib_right, h]
  decide

theorem State.clearIll_statusOk {s : State} (h : s.StatusOk) : s.clearIll.StatusOk := by
  unfold State.StatusOk at h ⊢
  rw [State.clearIll_status, BitVec.and_assoc, BitVec.and_self, h]

theorem exec_statusOk {i : Instr} {s t : State} (hs : s.StatusOk) (h : exec i s = .next t) : t.StatusOk := by
  cases exec_move i s t h
  case clear => exact State.clearIll_statusOk hs
  case reset => exact State.resetOf_statusOk s.cfg
  all_goals exact hs

theorem transact_statusOk {p : Port} {cmd data : Word} {s t : State} (hs : s.StatusOk)
    (h : transact p cmd data s = .next t) : t.StatusOk := by
  have hpresent : (s.present p data).StatusOk := hs
  rcases transact_next p cmd data s t h with ⟨i, _, hexec⟩ | ⟨_, _, rfl⟩
  · exact exec_statusOk hpresent hexec
  · exact State.setIll_statusOk hpresent

/-- Bits 31:1 of STATUS stay 0: a step writes STATUS by setting ILL, by clearing it and by reset (R33). -/
theorem step_keeps_statusOk {s t : State} (hs : s.StatusOk) (h : step s = .next t) : t.StatusOk := by
  obtain ⟨_, ⟨_, rfl⟩ | ⟨p, r, s', htake, hserve⟩⟩ := step_next s t h
  · exact hs
  obtain ⟨_, rest, _, rfl⟩ := (State.takeRequest_eq_some s s' p r).1 htake
  have htaken : (s.taken p rest).StatusOk := hs
  rcases serve_next p r _ t hserve with ⟨q, cmd, data, ht⟩ | ⟨q, w, rfl⟩ | rfl | ⟨bytes, rfl⟩ | rfl
  · exact transact_statusOk htaken ht
  · exact htaken
  · exact State.clearIll_statusOk htaken
  · exact htaken
  · exact htaken

/-- Settles O59: every setter of a range tests its operand or clamps it. -/
theorem stepKeepsTheSettingRangesAndStatus : Obligations.StepKeepsTheSettingRangesAndStatus := by
  refine ⟨fun s t hs h => ?duties, fun s t hs h => ?settings, fun _ _ => step_keeps_statusOk⟩
  case duties =>
    exact step_keeps_osc (Q := fun _ o => within dutyMin dutyMax o.duty) h hs
      (fun _ => Osc.reset_dutyOk) fun _ _ _ _ _ => OscMove.dutyOk
  case settings =>
    exact step_keeps_delay (Q := fun _ => Delay.SettingsOk) h hs (fun _ => Delay.reset_settingsOk)
      fun _ _ _ _ _ => DelayMove.settingsOk

end Sys2Proof.Machine
end

section
/-! Which command writes each field (spec/10_state.md R45): a record is as it was but for the fields that the move
of its command names. -/

namespace Sys2Proof.Machine

theorem SmoothWritten.refl (i : Instr) (j : Nat) (u : Smoother) : SmoothWritten i j u u :=
  ⟨(absurd rfl ·), (absurd rfl ·), (absurd rfl ·)⟩

theorem OscWritten.refl (i : Instr) (j : Nat) (o : Osc) : OscWritten i j o o :=
  ⟨(absurd rfl ·), (absurd rfl ·), (absurd rfl ·), (absurd rfl ·), (absurd rfl ·)⟩

theorem DelayWritten.refl (i : Instr) (j : Nat) (d : Delay) : DelayWritten i j d d :=
  ⟨(absurd rfl ·), (absurd rfl ·), (absurd rfl ·), (absurd rfl ·), (absurd rfl ·), (absurd rfl ·), (absurd rfl ·),
    (absurd rfl ·), (absurd rfl ·), ⟨rfl, rfl, rfl, rfl⟩, ⟨rfl, rfl⟩⟩

theorem LadderWritten.refl (i : Instr) (j : Nat) (l : Ladder) : LadderWritten i j l l :=
  ⟨(absurd rfl ·), (absurd rfl ·), (absurd rfl ·), (absurd rfl ·), (absurd rfl ·), (absurd rfl ·), ⟨rfl, rfl⟩⟩

theorem BiquadWritten.refl (i : Instr) (j : Nat) (c : Biquad) : BiquadWritten i j c c :=
  ⟨(absurd rfl ·), (absurd rfl ·), (absurd rfl ·), (absurd rfl ·), (absurd rfl ·)⟩

theorem ReverbWritten.refl (i : Instr) (j : Nat) (r : Reverb) : ReverbWritten i j r r :=
  ⟨(absurd rfl ·), (absurd rfl ·), (absurd rfl ·)⟩

theorem SmoothMove.written {s : State} {j : Nat} {u u' : Smoother} {i : Instr} (hm : SmoothMove s j u i u') :
    SmoothWritten i j u u' := by
  cases hm with
  | setTarget => exact { SmoothWritten.refl _ j u with tgt := fun _ => rfl }
  | setCoeff => exact { SmoothWritten.refl _ j u with coeff := fun _ => rfl }
  | get =>
    refine ⟨(absurd (Smoother.step_tgt _ _) ·), (absurd (Smoother.step_coeff _ _) ·), fun hcur => ⟨rfl, ?_⟩⟩
    refine Bool.eq_false_iff.2 fun hsentinel => hcur ?_
    rw [Smoother.step_sentinel _ u hsentinel]

theorem OscMove.written {s : State} {j : Nat} {o o' : Osc} {i : Instr} (hm : OscMove s j o i o') :
    OscWritten i j o o' := by
  cases hm with
  | setFreq => exact { OscWritten.refl _ j o with pend := fun _ => rfl }
  | sample => exact ⟨(absurd (Osc.sample_pend _ _) ·), fun _ => rfl, fun _ => .inl rfl,
      (absurd (Osc.sample_wave _ _) ·), (absurd (Osc.sample_duty _ _) ·)⟩
  | reset => exact { OscWritten.refl _ j o with phase := fun _ => .inr rfl }
  | setWave => exact { OscWritten.refl _ j o with wave := fun _ => rfl }
  | setDuty => exact { OscWritten.refl _ j o with duty := fun _ => rfl }

/-- No command changes the settings or the coefficients of a delay's lowpass (R197). -/
theorem DelayMove.lp_fixed {s : State} {j : Nat} {d d' : Delay} {i : Instr} (hm : DelayMove s j d i d') :
    d'.lp.fc = d.lp.fc ∧ d'.lp.q = d.lp.q ∧ d'.lp.mode = d.lp.mode ∧ d'.lp.coeffs = d.lp.coeffs := by
  rcases hm.lp with hlp | ⟨v, hlp⟩ <;> rw [hlp]
  · exact ⟨rfl, rfl, rfl, rfl⟩
  · exact ⟨Biquad.step_fc _ _ _, Biquad.step_q _ _ _, Biquad.step_mode _ _ _, Biquad.step_coeffs _ _ _⟩

theorem DelayMove.written {s : State} {j : Nat} {d d' : Delay} {i : Instr} (hm : DelayMove s j d i d') :
    DelayWritten i j d d' := by
  have hlp := hm.lp_fixed
  have hcoeffs := hm.coeffs
  cases hm with
  | setBeats => exact { DelayWritten.refl _ j d with beats := fun _ => rfl, lenTgt := fun _ => .inl rfl }
  | setBpm => exact { DelayWritten.refl _ j d with bpm := fun _ => rfl, lenTgt := fun _ => .inr rfl }
  | setFb => exact { DelayWritten.refl _ j d with fb := fun _ => rfl }
  | setWet => exact { DelayWritten.refl _ j d with wetTgt := fun _ => rfl }
  | process =>
    have hlen : (d.process s.cfg s.nan s.operand).2.sLen.tgt = d.sLen.tgt := by
      rw [Delay.process_sLen, Smoother.step_tgt]
    have hwet := (d.process_sWet_settings s.cfg s.nan s.operand).1
    exact ⟨(absurd (d.process_beats _ _ _) ·), (absurd (d.process_bpm _ _ _) ·), (absurd hlen ·),
      (absurd (d.process_fb _ _ _) ·), (absurd hwet ·), fun _ => rfl, fun _ => rfl, fun _ => rfl, fun _ => rfl,
      hlp, hcoeffs⟩

theorem LadderMove.written {s : State} {j : Nat} {l l' : Ladder} {i : Instr} (hm : LadderMove s j l i l') :
    LadderWritten i j l l' := by
  have hcoeffs := hm.coeffs
  cases hm with
  | setCutoff => exact { LadderWritten.refl _ j l with fcTgt := fun _ => rfl }
  | setRes => exact { LadderWritten.refl _ j l with resTgt := fun _ => rfl }
  | setMode => exact { LadderWritten.refl _ j l with mode := fun _ => rfl }
  | process => exact ⟨(absurd (Smoother.step_tgt _ l.sFc) ·), (absurd (Smoother.step_tgt _ l.sRes) ·),
      (absurd rfl ·), fun _ => rfl, fun _ => rfl, fun _ => rfl, hcoeffs⟩

theorem BiquadMove.written {s : State} {j : Nat} {c c' : Biquad} {i : Instr} (hm : BiquadMove s j c i c') :
    BiquadWritten i j c c' := by
  cases hm with
  | setCutoff =>
    exact { BiquadWritten.refl _ j c with fc := fun _ => rfl, coeffs := fun _ => .inl rfl }
  | setQ =>
    exact { BiquadWritten.refl _ j c with q := fun _ => rfl, coeffs := fun _ => .inr (.inl rfl) }
  | setMode =>
    exact { BiquadWritten.refl _ j c with mode := fun _ => rfl, coeffs := fun _ => .inr (.inr rfl) }
  | process => exact { BiquadWritten.refl _ j c with history := fun _ => rfl }

theorem ReverbMove.written {s : State} {j : Nat} {r r' : Reverb} {i : Instr} (hm : ReverbMove s j r i r') :
    ReverbWritten i j r r' := by
  cases hm with
  | setRt60 => exact { ReverbWritten.refl _ j r with fbc := fun _ => rfl }
  | process => exact { ReverbWritten.refl _ j r with comb := fun _ => rfl, ap := fun _ => rfl }

/-- What a unit's moves do to their own record says what a command does to each record: the others stay. -/
theorem UnitAfter.each_written {α : Type} {i : Instr} {before after fresh : List α}
    {move : Nat → α → Instr → α → Prop} {W : Instr → Nat → α → α → Prop}
    (h : UnitAfter i before after fresh move) (hi : i ≠ .sysReset) (hrefl : ∀ i j u, W i j u u)
    (hmove : ∀ j u u', move j u i u' → W i j u u') (j : Nat) (u u' : α) (hu : before[j]? = some u)
    (hu' : after[j]? = some u') : W i j u u' := by
  rcases h with rfl | ⟨hreset, _⟩ | ⟨idx, v, v', hv, rfl, hm⟩
  · exact Option.some.inj (hu.symm.trans hu') ▸ hrefl i j u
  · exact absurd hreset hi
  · by_cases hj : idx = j
    · subst hj
      rw [List.getElem?_set_self (List.getElem?_eq_some_iff.1 hv).1] at hu'
      cases hu'
      exact Option.some.inj (hv.symm.trans hu) ▸ hmove idx v u' hm
    · rw [List.getElem?_set_ne hj, hu] at hu'
      exact Option.some.inj hu' ▸ hrefl i j u

theorem exec_status {i : Instr} {s t : State} (h : exec i s = .next t) (hi : i ≠ .sysReset)
    (hne : t.status ≠ s.status) : i = .sysClrstat := by
  cases exec_move i s t h
  case clear hclear => exact hclear
  case reset hreset => exact absurd hreset hi
  all_goals exact absurd rfl hne

/-- Settles O52: each unit is untouched or changed in one record by a move, and each move writes only the fields
of its command's row. -/
theorem onlyTheListedCommandsWriteAField : Obligations.OnlyTheListedCommandsWriteAField := by
  intro i s t h hi
  refine ⟨?smooth, ?osc, ?delay, ?ladder, ?biquad, ?reverb, exec_status h hi⟩
  case smooth => exact (exec_smooth i s t h).each_written hi SmoothWritten.refl fun _ _ _ => SmoothMove.written
  case osc => exact (exec_osc i s t h).each_written hi OscWritten.refl fun _ _ _ => OscMove.written
  case delay => exact (exec_delay i s t h).each_written hi DelayWritten.refl fun _ _ _ => DelayMove.written
  case ladder => exact (exec_ladder i s t h).each_written hi LadderWritten.refl fun _ _ _ => LadderMove.written
  case biquad => exact (exec_biquad i s t h).each_written hi BiquadWritten.refl fun _ _ _ => BiquadMove.written
  case reverb => exact (exec_reverb i s t h).each_written hi ReverbWritten.refl fun _ _ _ => ReverbMove.written

end Sys2Proof.Machine
end

section
/-! A command on either port (spec/10_state.md R32): presented with the same data word it does the same to the units,
and stores into the registers of its own port only. -/

namespace Sys2Proof.Machine

/-! A meaning reads the presented data word and not the port it came on; only `setResult` uses the port. -/

@[simp] theorem State.operand_present (s : State) (p : Port) (v : Word) : (s.present p v).operand = v :=
  Ports.get_set_self _ _ _
@[simp] theorem State.operandF_present (s : State) (p : Port) (v : Word) :
    (s.present p v).operandF = F32.ofBits v := by rw [State.operandF, State.operand_present]
@[simp] theorem State.operandU_present (s : State) (p : Port) (v : Word) :
    (s.present p v).operandU = v.toNat := by rw [State.operandU, State.operand_present]
@[simp] theorem State.nan_present (s : State) (p : Port) (v : Word) : (s.present p v).nan = s.nan := rfl

@[simp] theorem State.putSmooth_present (s : State) (p : Port) (v : Word) (j : Nat) (u : Smoother) :
    (s.present p v).putSmooth j u = (s.putSmooth j u).present p v := rfl
@[simp] theorem State.putOsc_present (s : State) (p : Port) (v : Word) (j : Nat) (u : Osc) :
    (s.present p v).putOsc j u = (s.putOsc j u).present p v := rfl
@[simp] theorem State.putDelay_present (s : State) (p : Port) (v : Word) (j : Nat) (u : Delay) :
    (s.present p v).putDelay j u = (s.putDelay j u).present p v := rfl
@[simp] theorem State.putLadder_present (s : State) (p : Port) (v : Word) (j : Nat) (u : Ladder) :
    (s.present p v).putLadder j u = (s.putLadder j u).present p v := rfl
@[simp] theorem State.putBiquad_present (s : State) (p : Port) (v : Word) (j : Nat) (u : Biquad) :
    (s.present p v).putBiquad j u = (s.putBiquad j u).present p v := rfl
@[simp] theorem State.putReverb_present (s : State) (p : Port) (v : Word) (j : Nat) (u : Reverb) :
    (s.present p v).putReverb j u = (s.putReverb j u).present p v := rfl

/-- A test whose outcomes are presented alike is presented as a whole. -/
theorem State.ite_present (c : Prop) [Decidable c] (a b : State) (p : Port) (v : Word) :
    (if c then a.present p v else b.present p v) = (if c then a else b).present p v := by
  split <;> rfl

/-- Run on either port with data word `v` from `s`, the command reaches one state `t` that keeps the registers of
`s`, but for the port, its DATA and, where the command produces a value, that value in its RESULT. -/
def SameOnBothPorts (producesValue : Bool) (s : State) (v : Word) (run : Port → Result) : Prop :=
  ∃ (t : State) (w : Word), t.data = s.data ∧ t.result = s.result ∧
    ∀ p, run p = .next (if producesValue then (t.present p v).setResult w else t.present p v)

/-- A command that produces no value: `f` is what it does to the record and the state. -/
theorem sameOnBothPorts_onUnit {α : Type} {s : State} {v : Word} {units : List α} {idx : Nat} (f : α → State)
    (hf : ∀ u, (f u).data = s.data ∧ (f u).result = s.result) :
    SameOnBothPorts false s v fun p => onUnit units idx (s.present p v) fun u => (f u).present p v := by
  cases hu : units[idx]? with
  | none => exact ⟨s, 0#32, rfl, rfl, fun p => onUnit_none _ _ hu⟩
  | some u => exact ⟨f u, 0#32, (hf u).1, (hf u).2, fun p => onUnit_some _ _ hu⟩

/-- A command that produces a value, `g` of its record, and +0.0 where there is none (R108). -/
theorem sameOnBothPorts_onUnit_value {α : Type} {s : State} {v : Word} {units : List α} {idx : Nat}
    (f : α → State) (g : α → Word) (hf : ∀ u, (f u).data = s.data ∧ (f u).result = s.result) :
    SameOnBothPorts true s v fun p => onUnit units idx ((s.present p v).setResult 0#32)
      fun u => ((f u).present p v).setResult (g u) := by
  cases hu : units[idx]? with
  | none => exact ⟨s, 0#32, rfl, rfl, fun p => onUnit_none _ _ hu⟩
  | some u => exact ⟨f u, g u, (hf u).1, (hf u).2, fun p => onUnit_some _ _ hu⟩

/-- Every command but SYS.RESET: the SYS commands read no operand, six commands return a value, OSC.RESET does not
test its operand, the mode setters select by it, and the other setters are guarded by it. -/
theorem exec_sameOnBothPorts (i : Instr) (hi : i ≠ .sysReset) (s : State) (v : Word) :
    SameOnBothPorts i.producesValue s v fun p => exec i (s.present p v) := by
  cases i with
  | sysReset => exact absurd rfl hi
  | sysNop => exact ⟨s, 0#32, rfl, rfl, fun _ => rfl⟩
  | sysClrstat => exact ⟨s.clearIll, 0#32, rfl, rfl, fun _ => rfl⟩
  | smoothGet | oscSample | delayProcess | ladderProcess | biquadProcess | reverbProcess =>
    simp only [exec, execSmoothGet, execOscSample, execDelayProcess, execLadderProcess, execBiquadProcess,
      execReverbProcess, State.present_smooth, State.present_osc, State.present_delay, State.present_ladder,
      State.present_biquad, State.present_reverb, State.present_cfg, State.nan_present, State.operand_present,
      State.operandF_present, State.putSmooth_present, State.putOsc_present, State.putDelay_present,
      State.putLadder_present, State.putBiquad_present, State.putReverb_present]
    exact sameOnBothPorts_onUnit_value _ _ fun _ => ⟨rfl, rfl⟩
  | oscReset =>
    simp only [exec, execOscReset, State.present_osc, State.putOsc_present]
    exact sameOnBothPorts_onUnit _ fun _ => ⟨rfl, rfl⟩
  | oscSetWave =>
    simp only [exec, execOscSetWave, State.present_osc, State.operandU_present, State.putOsc_present]
    cases waveOf v.toNat <;> exact sameOnBothPorts_onUnit _ fun _ => ⟨rfl, rfl⟩
  | ladderSetMode | biquadSetMode =>
    simp only [exec, execLadderSetMode, execBiquadSetMode, State.present_ladder, State.present_biquad,
      State.present_cfg, State.nan_present, State.operandU_present, State.putLadder_present,
      State.putBiquad_present]
    cases modeOf v.toNat <;> exact sameOnBothPorts_onUnit _ fun _ => ⟨rfl, rfl⟩
  | smoothSetTarget | smoothSetCoeff | oscSetFreq | oscSetDuty | delaySetBeats | delaySetBpm | delaySetFb
  | delaySetWet | ladderSetCutoff | ladderSetRes | biquadSetCutoff | biquadSetQ | reverbSetRt60 =>
    simp only [exec, execSmoothSetTarget, execSmoothSetCoeff, execOscSetFreq, execOscSetDuty, execDelaySetBeats,
      execDelaySetBpm, execDelaySetFb, execDelaySetWet, execLadderSetCutoff, execLadderSetRes,
      execBiquadSetCutoff, execBiquadSetQ, execReverbSetRt60, State.present_smooth, State.present_osc,
      State.present_delay, State.present_ladder, State.present_biquad, State.present_reverb, State.present_cfg,
      State.nan_present, State.operand_present, State.operandF_present, State.putSmooth_present,
      State.putOsc_present, State.putDelay_present, State.putLadder_present, State.putBiquad_present,
      State.putReverb_present, State.ite_present]
    exact sameOnBothPorts_onUnit _ fun _ => by split <;> exact ⟨rfl, rfl⟩

/-- Settles O51: SYS.RESET reaches the same state from either port but for the port itself, and every other command
stores into its own port's registers only. -/
theorem thePortChangesOnlyDataAndResult : Obligations.ThePortChangesOnlyDataAndResult := by
  intro i s v
  by_cases hi : i = .sysReset
  · subst hi
    exact ⟨_, _, rfl, rfl, ⟨rfl, rfl, rfl, rfl, rfl, rfl⟩, rfl, fun _ => rfl, rfl, rfl⟩
  · obtain ⟨t, w, hdata, hresult, hrun⟩ := exec_sameOnBothPorts i hi s v
    refine ⟨_, _, hrun .ctrl, hrun .audio, ?_⟩
    rw [if_neg hi, ← hdata, ← hresult]
    cases i.producesValue with
    | false => exact ⟨⟨rfl, rfl, rfl, rfl, rfl, rfl⟩, rfl, nofun, rfl, rfl, rfl, rfl, fun _ => ⟨rfl, rfl⟩⟩
    | true => exact ⟨⟨rfl, rfl, rfl, rfl, rfl, rfl⟩, rfl, fun _ => rfl, rfl, rfl, rfl, rfl, nofun⟩

end Sys2Proof.Machine
end

section
/-! The delay lines keep their range and form (spec/20_memory.md R71, R73): a command leaves each line as it was,
writes it once, or resets it, and a legal block's lines are short enough for a 32-bit cursor. -/

namespace Sys2Proof

theorem le_of_lineLength {n : Nat} (h : lineLength n = true) : n ≤ 2 ^ 24 := by
  simp only [lineLength, inRange, Bool.and_eq_true, decide_eq_true_eq] at h
  exact h.2

/-- No line of a legal block is longer than 2^24 elements (R6). -/
theorem Params.legal_lines_le {c : Params} (h : c.legal = true) :
    c.nDbuf ≤ 2 ^ 24 ∧ (∀ k, c.combLen.get k ≤ 2 ^ 24) ∧ ∀ k, c.apLen.get k ≤ 2 ^ 24 := by
  simp only [Params.legal, Params.structureLegal, List.all_cons, Bool.and_eq_true, id] at h
  refine ⟨le_of_lineLength (by tauto), fun k => le_of_lineLength ?_, fun k => le_of_lineLength ?_⟩
  all_goals match k with
    | 0 | 1 | 2 | 3 => simp only [Four.get]; tauto

end Sys2Proof

namespace Sys2Proof.Machine

/-- The line `r'` is the line `r` of length `n`, or `r` one write on. -/
def Ring.KeptOrWritten (n : Nat) (r r' : Ring) : Prop := r' = r ∨ ∃ v, r' = r.write n v

theorem Ring.KeptOrWritten.ok {n : Nat} {r r' : Ring} (hm : Ring.KeptOrWritten n r r') (h : Ring.Ok n r)
    (hn : n ≤ 2 ^ 24) : Ring.Ok n r' := by
  rcases hm with rfl | ⟨v, rfl⟩
  · exact h
  · exact Ring.ok_write n r v h (hn.trans (by decide))

theorem DelayMove.ring {s : State} {idx : Nat} {d d' : Delay} {i : Instr} (hm : DelayMove s idx d i d') :
    Ring.KeptOrWritten s.cfg.nDbuf d.ring d'.ring := by
  cases hm with
  | setBeats | setBpm | setFb | setWet => exact .inl rfl
  | process => exact Delay.process_ring _ _ _ _

theorem ReverbMove.comb {s : State} {idx : Nat} {rv rv' : Reverb} {i : Instr} (hm : ReverbMove s idx rv i rv')
    (k : Fin 4) : Ring.KeptOrWritten (s.cfg.combLen.get k) (rv.comb.get k) (rv'.comb.get k) := by
  cases hm with
  | setRt60 => exact .inl rfl
  | process => exact .inr (Reverb.process_comb _ _ _ _ k)

theorem ReverbMove.ap {s : State} {idx : Nat} {rv rv' : Reverb} {i : Instr} (hm : ReverbMove s idx rv i rv')
    (k : Fin 4) : Ring.KeptOrWritten (s.cfg.apLen.get k) (rv.ap.get k) (rv'.ap.get k) := by
  cases hm with
  | setRt60 => exact .inl rfl
  | process => exact .inr (Reverb.process_ap _ _ _ _ k)

/-- The line of a delay in a legal block; that the block is legal bounds the length of the line. -/
structure Delay.LineOk (c : Params) (d : Delay) : Prop where
  legal : c.legal = true
  ring : Ring.Ok c.nDbuf d.ring

/-- The eight lines of a reverb in a legal block. -/
structure Reverb.LinesOk (c : Params) (rv : Reverb) : Prop where
  legal : c.legal = true
  comb : ∀ k, Ring.Ok (c.combLen.get k) (rv.comb.get k)
  ap : ∀ k, Ring.Ok (c.apLen.get k) (rv.ap.get k)

theorem Delay.reset_lineOk (c : Params) (h : c.legal = true) : (Delay.reset c).LineOk c :=
  ⟨h, Ring.ok_zeroed _ (Params.legal_lines h).1⟩

theorem DelayMove.lineOk {s : State} {idx : Nat} {d d' : Delay} {i : Instr} (hm : DelayMove s idx d i d')
    (h : d.LineOk s.cfg) : d'.LineOk s.cfg :=
  ⟨h.legal, hm.ring.ok h.ring (Params.legal_lines_le h.legal).1⟩

theorem Reverb.reset_linesOk (c : Params) (h : c.legal = true) : (Reverb.reset c).LinesOk c := by
  obtain ⟨_, hcomb, hap⟩ := c.legal_lines h
  exact ⟨h, fun k => Reverb.reset_comb c k ▸ Ring.ok_zeroed _ (hcomb k),
    fun k => Reverb.reset_ap c k ▸ Ring.ok_zeroed _ (hap k)⟩

theorem ReverbMove.linesOk {s : State} {idx : Nat} {rv rv' : Reverb} {i : Instr} (hm : ReverbMove s idx rv i rv')
    (h : rv.LinesOk s.cfg) : rv'.LinesOk s.cfg := by
  obtain ⟨_, hcomb, hap⟩ := Params.legal_lines_le h.legal
  exact ⟨h.legal, fun k => (hm.comb k).ok (h.comb k) (hcomb k), fun k => (hm.ap k).ok (h.ap k) (hap k)⟩

theorem step_keeps_reverb {s t : State} (h : step s = .next t) {Q : Params → Reverb → Prop}
    (hs : ∀ rv ∈ s.reverb, Q s.cfg rv) (hreset : ∀ c : Params, c.legal = true → Q c (Reverb.reset c))
    (hmove : ∀ s idx rv i rv', ReverbMove s idx rv i rv' → Q s.cfg rv → Q s.cfg rv') :
    ∀ rv ∈ t.reverb, Q t.cfg rv :=
  step_keeps_unit (units := State.reverb) (fun _ _ hu => hu.reverb) exec_reverb
    (fun c hc => forall_of_reset (hreset c hc)) hmove hs h

/-- Settles O55: a step runs in a legal block only, and there each line is kept, written once, or zeroed. -/
theorem stepKeepsTheDelayLines : Obligations.StepKeepsTheDelayLines := by
  intro s t hs h
  obtain ⟨hlegal, _⟩ := step_next s t h
  have hdelay : ∀ d ∈ t.delay, d.LineOk t.cfg :=
    step_keeps_delay (Q := fun c d => d.LineOk c) h (fun d hd => ⟨hlegal, hs.delay d hd⟩) Delay.reset_lineOk
      fun _ _ _ _ _ => DelayMove.lineOk
  have hreverb : ∀ rv ∈ t.reverb, rv.LinesOk t.cfg :=
    step_keeps_reverb (Q := fun c rv => rv.LinesOk c) h
      (fun rv hrv => ⟨hlegal, hs.comb rv hrv, hs.allpass rv hrv⟩) Reverb.reset_linesOk
      fun _ _ _ _ _ => ReverbMove.linesOk
  exact ⟨fun d hd => (hdelay d hd).ring, fun rv hrv => (hreverb rv hrv).comb, fun rv hrv => (hreverb rv hrv).ap⟩

end Sys2Proof.Machine
end

section
/-! Taps and writes of a ring buffer (spec/20_memory.md R72 to R74): a write puts the value under tap 1 and moves
every other element one tap back. -/

namespace Sys2Proof.Machine

/-- After a write, each element is one tap further back than before (R72, R73). -/
theorem Ring.slot_write (r : Ring) {n : Nat} (v : Word) (d : Nat) (hpos : 0 < n) (hn : n ≤ 2 ^ 32) :
    (r.write n v).slot n (d + 1) = r.slot n d := by
  unfold Ring.slot
  rw [Ring.write_cursor r n v hpos hn, Int.natCast_mod, Int.emod_sub_emod]
  congr 2
  push_cast
  omega

theorem Ring.slot_zero {r : Ring} {n : Nat} (h : r.cursor.toNat < n) : r.slot n 0 = r.cursor.toNat := by
  rw [Ring.slot_eq r n 0 (Nat.zero_le n), Nat.sub_zero, Nat.add_mod_right, Nat.mod_eq_of_lt h]

/-- Only a tap at a whole turn reads the element under the cursor. -/
theorem Ring.slot_ne_cursor {r : Ring} {n d : Nat} (h : r.cursor.toNat < n) (hd : 1 ≤ d) (hdn : d < n) :
    r.slot n d ≠ r.cursor.toNat := by
  rw [Ring.slot_eq r n d hdn.le]
  rcases Nat.lt_or_ge r.cursor.toNat d with hlt | hge
  · rw [Nat.mod_eq_of_lt (by omega)]
    omega
  · rw [Nat.sub_add_comm hge, Nat.add_mod_right, Nat.mod_eq_of_lt (by omega)]
    omega

theorem Ring.tap_write_one {r : Ring} {n : Nat} (v : Word) (h : Ring.Ok n r) (hn : n ≤ 2 ^ 32) :
    (r.write n v).tap n 1 = v := by
  have hpos : 0 < n := Nat.zero_lt_of_lt h.cursor
  rw [Ring.tap, Ring.slot_write r v 0 hpos hn, Ring.slot_zero h.cursor]
  exact Memory.read_write_same _ v _ h.wf

theorem Ring.tap_write_succ {r : Ring} {n d : Nat} (v : Word) (h : r.cursor.toNat < n) (hn : n ≤ 2 ^ 32)
    (hd : 1 ≤ d) (hdn : d < n) : (r.write n v).tap n (d + 1) = r.tap n d := by
  have hpos : 0 < n := Nat.zero_lt_of_lt h
  rw [Ring.tap, Ring.slot_write r v d hpos hn]
  exact Memory.read_write_other _ _ v _ (Ring.slot_ne_cursor h hd hdn)

/-- Settles O42: the tap's element in natural numbers, and the storage's reads after a write. -/
theorem ringTapAndWriteFollowTheirRules : Obligations.RingTapAndWriteFollowTheirRules := by
  intro r n v h hn
  have hpos : 0 < n := Nat.zero_lt_of_lt h.cursor
  refine ⟨fun d _ hd => ?tap, ?written, fun a ha => ?others, ?cursor, fun _ => rfl⟩
  case tap => rw [Ring.tap, Ring.slot_eq r n d hd]
  case written => exact Memory.read_write_same _ v _ h.wf
  case others => exact Memory.read_write_other _ a v _ ha
  case cursor => exact Ring.write_cursor r n v hpos (hn.trans (by decide))

theorem lineAfter_append (n : Nat) (ws : List Word) (v : Word) :
    lineAfter n (ws ++ [v]) = (lineAfter n ws).write n v := List.foldl_concat _ _ _ _

theorem lineAfter_ok {n : Nat} (ws : List Word) (hpos : 0 < n) (hn : n ≤ 2 ^ 32) : Ring.Ok n (lineAfter n ws) := by
  induction ws using List.reverseRecOn with
  | nil => exact Ring.ok_zeroed n hpos
  | append_singleton ws v ih =>
    rw [lineAfter_append]
    exact Ring.ok_write n _ v ih hn

/-- Settles O43, by induction on the writes, the last one first: tap 1 reads the last write, and any other tap
reads what the tap before it read without that write. -/
theorem aTapAtDelayDReturnsTheDthLastWrite : Obligations.ATapAtDelayDReturnsTheDthLastWrite := by
  intro n d ws hle hd hdn
  have hn : n ≤ 2 ^ 32 := hle.trans (by decide)
  induction ws using List.reverseRecOn generalizing d with
  | nil => simp [lineAfter, Ring.tap_zeroed]
  | append_singleton ws v ih =>
    have hok := lineAfter_ok ws (hd.trans hdn) hn
    rw [lineAfter_append, List.length_append, List.length_singleton]
    obtain _ | _ | d := d
    · omega
    · rw [Ring.tap_write_one v hok hn]
      simp
    · rw [Ring.tap_write_succ v hok.cursor hn (by omega) hdn, ih (d + 1) (by omega) (by omega),
        Nat.add_sub_add_right]
      by_cases hlen : d + 1 ≤ ws.length
      · rw [if_pos hlen, if_pos (by omega), List.getD_append _ _ _ _ (by omega)]
      · rw [if_neg hlen, if_neg (by omega)]

end Sys2Proof.Machine
end

section
/-! The execution order (spec/20_memory.md R77): serving a request leaves the requests that wait. -/

namespace Sys2Proof.Machine

theorem transact_pending {p : Port} {cmd data : Word} {s t : State} (h : transact p cmd data s = .next t) :
    t.pending = s.pending := by
  rcases transact_next p cmd data s t h with ⟨i, _, hexec⟩ | ⟨_, _, rfl⟩
  · obtain ⟨_, hpending, _⟩ := exec_model_fields i _ t hexec
    exact hpending
  · rfl

theorem serve_pending {p : Port} {r : Request} {s t : State} (h : serve p r s = .next t) :
    t.pending = s.pending := by
  rcases serve_next p r s t h with ⟨q, cmd, data, ht⟩ | ⟨q, w, rfl⟩ | rfl | ⟨bytes, rfl⟩ | rfl
  · exact transact_pending ht
  all_goals rfl

/-- A step with requests waiting takes the first one of the port that goes next, and no other. -/
theorem step_pending {s t : State} {p : Port} {r : Request} {rest : List Request} (hp : s.nextPort = some p)
    (hq : s.pending.get p = r :: rest) (h : step s = .next t) : t.pending = s.pending.set p rest := by
  have htake : s.takeRequest = some (p, r, s.taken p rest) :=
    (State.takeRequest_eq_some s _ p r).2 ⟨hp, rest, hq, rfl⟩
  obtain ⟨_, ⟨hnone, _⟩ | ⟨p', r', s', hsome, hserve⟩⟩ := step_next s t h
  · rw [htake] at hnone
    cases hnone
  · rw [htake] at hsome
    cases hsome
    exact serve_pending hserve

/-- Settles O7: `nextPort` by which queues are empty, and what a step takes from them. -/
theorem eachStepTakesOnePortsFirstRequest : Obligations.EachStepTakesOnePortsFirstRequest := by
  refine ⟨fun s r rest hctrl haudio => ?ctrl, fun s r rest haudio hctrl => ?audio,
    fun s r q rest more hctrl haudio => ?both, fun _ _ _ _ _ => step_pending⟩
  case ctrl => rw [State.nextPort, hctrl, haudio]
  case audio => rw [State.nextPort, hctrl, haudio]
  case both =>
    rw [State.nextPort, hctrl, haudio]
    cases Config.freePort s.draws
    · exact .inl rfl
    · exact .inr rfl

end Sys2Proof.Machine
end

section
/-! The register window (spec/20_memory.md R80 to R86). -/

namespace Sys2Proof.Machine

/-- The 32 bytes from `MMIO_BASE` on are the window (R80). -/
theorem windowOffset_base_add (c : Params) {off : Nat} (h : off < 32) :
    windowOffset c (c.mmioBase + off) = some off := by
  rw [windowOffset, if_pos (by omega), Nat.add_sub_cancel_left]

theorem windowReg_misaligned {off : Nat} (h : off % 4 ≠ 0) : windowReg off = none := by
  unfold windowReg
  split
  case h_9 => rfl
  all_goals exact absurd rfl h

theorem wordOf_of_length_ne {bytes : List Byte} (h : bytes.length ≠ 4) : wordOf bytes = none := by
  unfold wordOf
  split
  · exact absurd rfl h
  · rfl

theorem bytesOf_eq (w : Word) : bytesOf w = [BitVec.ofNat 8 w.toNat, BitVec.ofNat 8 (w.toNat / 2 ^ 8),
    BitVec.ofNat 8 (w.toNat / 2 ^ 16), BitVec.ofNat 8 (w.toNat / 2 ^ 24)] := by
  simp only [bytesOf, BitVec.extractLsb', Nat.shiftRight_eq_div_pow, pow_zero, Nat.div_one]

/-- Reading the bytes of a word back gives the word (R86). -/
@[simp] theorem wordOf_bytesOf (w : Word) : wordOf (bytesOf w) = some w := by
  simp only [bytesOf, wordOf]
  rw [BitVec.extractLsb'_append_extractLsb'_eq_extractLsb' (start₂ := 24) (by decide),
    BitVec.extractLsb'_append_extractLsb'_eq_extractLsb' (start₂ := 16) (by decide),
    BitVec.extractLsb'_append_extractLsb'_eq_extractLsb' (start₂ := 8) (by decide), BitVec.extractLsb'_eq_self]

/-- A read in the window changes only the reading agent's reply. -/
theorem State.busRead_window (s : State) {off : Nat} (width : Nat) (h : off < 32) :
    s.busRead (s.cfg.mmioBase + off) width =
      { s with reply := s.reply.set s.port (s.readWindow off width) } := by
  rw [State.busRead, windowOffset_base_add s.cfg h]

theorem State.readWindow_reg (s : State) {off : Nat} (r : WindowReg) (h : windowReg off = some r) :
    s.readWindow off 4 = bytesOf (s.readReg r) := by
  rw [State.readWindow, h]
  rfl

/-- A narrow or misaligned read sees no register (R85). -/
theorem State.readWindow_ignored (s : State) {off width : Nat} (h : width ≠ 4 ∨ off % 4 ≠ 0) :
    s.readWindow off width = List.replicate width 0#8 := by
  unfold State.readWindow
  split
  · rename_i r hr
    have hwidth : width ≠ 4 := h.resolve_right fun hoff => by simp [windowReg_misaligned hoff] at hr
    exact if_neg hwidth
  · rfl

/-- A 32-bit write at a register's offset is the write to that register. -/
theorem busWrite_reg (s : State) (w : Word) {off : Nat} (r : WindowReg) (h : off < 32)
    (hr : windowReg off = some r) : busWrite (s.cfg.mmioBase + off) (bytesOf w) s = writeReg r w s := by
  simp only [busWrite, windowOffset_base_add s.cfg h, hr, wordOf_bytesOf]

/-- A narrow or misaligned write reaches no register (R85). -/
theorem busWrite_ignored (s : State) {off : Nat} {bytes : List Byte} (h : off < 32)
    (hbad : bytes.length ≠ 4 ∨ off % 4 ≠ 0) : busWrite (s.cfg.mmioBase + off) bytes s = .next s := by
  simp only [busWrite, windowOffset_base_add s.cfg h]
  rcases hbad with hlen | hoff
  · rw [wordOf_of_length_ne hlen]
    cases windowReg off <;> rfl
  · rw [windowReg_misaligned hoff]

theorem State.writeStatus_eq (s : State) (w : Word) : s.writeStatus w =
    if w.toNat % 2 = 1 then { s with status := s.status &&& 0xFFFFFFFE#32 } else s := by
  have hbit : w.getLsbD 0 = decide (w.toNat % 2 = 1) := by
    simp [BitVec.getLsbD]
  have hclear : s.clearIll = { s with status := s.status &&& 0xFFFFFFFE#32 } := rfl
  simp only [State.writeStatus, hbit, decide_eq_true_eq, hclear]

/-- Settles O48: each offset names its register, and a word is the word of its bytes. -/
theorem windowReadsReturnTheRegisters : Obligations.WindowReadsReturnTheRegisters := by
  refine ⟨bytesOf_eq, wordOf_bytesOf, fun s => ?registers, fun s _ width => s.busRead_window width⟩
  case registers => exact ⟨s.readWindow_reg (.data .ctrl) rfl, s.readWindow_reg (.cmd .ctrl) rfl,
    s.readWindow_reg (.result .ctrl) rfl, s.readWindow_reg .status rfl,
    s.readWindow_reg (.data .audio) rfl, s.readWindow_reg (.cmd .audio) rfl,
    s.readWindow_reg (.result .audio) rfl, s.readWindow_reg .status rfl⟩

/-- Settles O49: each offset names its register, and `writeReg` says what a write to it does. -/
theorem windowWritesDoWhatTheirRegistersSay : Obligations.WindowWritesDoWhatTheirRegistersSay := by
  intro s w
  refine ⟨busWrite_reg s w (.data .ctrl) (by decide) rfl, busWrite_reg s w (.data .audio) (by decide) rfl,
    busWrite_reg s w (.cmd .ctrl) (by decide) rfl, busWrite_reg s w (.cmd .audio) (by decide) rfl,
    busWrite_reg s w (.result .ctrl) (by decide) rfl, busWrite_reg s w (.result .audio) (by decide) rfl, ?_⟩
  rw [← State.writeStatus_eq]
  rintro off (rfl | rfl) <;> exact busWrite_reg s w .status (by decide) rfl

/-- Settles O50: such an access names no register or carries no word. -/
theorem windowIgnoresNarrowAndMisalignedAccesses : Obligations.WindowIgnoresNarrowAndMisalignedAccesses := by
  refine ⟨fun s off bytes => busWrite_ignored s, fun s off width hoff hbad => ?_⟩
  rw [State.busRead_window s width hoff, State.readWindow_ignored s hbad]

end Sys2Proof.Machine
end

section
/-! The encoding (spec/30_encoding.md R101, R106, R110): a word decodes to a command exactly where its fields are that
command's, and exactly where it is that command's word. -/

namespace Sys2Proof

/-- The word has the UNIT, OP and IDX of the command, and its RSV is zero (R101). -/
structure HasFields (w : Word) (i : Instr) : Prop where
  unit : unitField w = i.unitOp.1
  op : opField w = i.unitOp.2
  idx : idxField w = i.idx
  rsv : rsvField w = 0

theorem Instr.codesFit : (i : Instr) → Laws.CodesFit.Statement i
  | .sysNop => Laws.CodesFit.sysNop
  | .sysReset => Laws.CodesFit.sysReset
  | .sysClrstat => Laws.CodesFit.sysClrstat
  | .smoothSetTarget idx => Laws.CodesFit.smoothSetTarget idx
  | .smoothGet idx => Laws.CodesFit.smoothGet idx
  | .smoothSetCoeff idx => Laws.CodesFit.smoothSetCoeff idx
  | .oscSetFreq idx => Laws.CodesFit.oscSetFreq idx
  | .oscSample idx => Laws.CodesFit.oscSample idx
  | .oscReset idx => Laws.CodesFit.oscReset idx
  | .oscSetWave idx => Laws.CodesFit.oscSetWave idx
  | .oscSetDuty idx => Laws.CodesFit.oscSetDuty idx
  | .delaySetBeats idx => Laws.CodesFit.delaySetBeats idx
  | .delaySetBpm idx => Laws.CodesFit.delaySetBpm idx
  | .delaySetFb idx => Laws.CodesFit.delaySetFb idx
  | .delaySetWet idx => Laws.CodesFit.delaySetWet idx
  | .delayProcess idx => Laws.CodesFit.delayProcess idx
  | .ladderSetCutoff idx => Laws.CodesFit.ladderSetCutoff idx
  | .ladderSetRes idx => Laws.CodesFit.ladderSetRes idx
  | .ladderSetMode idx => Laws.CodesFit.ladderSetMode idx
  | .ladderProcess idx => Laws.CodesFit.ladderProcess idx
  | .biquadSetCutoff idx => Laws.CodesFit.biquadSetCutoff idx
  | .biquadSetQ idx => Laws.CodesFit.biquadSetQ idx
  | .biquadSetMode idx => Laws.CodesFit.biquadSetMode idx
  | .biquadProcess idx => Laws.CodesFit.biquadProcess idx
  | .reverbSetRt60 idx => Laws.CodesFit.reverbSetRt60 idx
  | .reverbProcess idx => Laws.CodesFit.reverbProcess idx

/-- The four fields are disjoint and cover the word, and a well-formed command's codes fit them. -/
theorem hasFields_iff {w : Word} {i : Instr} : HasFields w i ↔ encode i = w ∧ i.idx < 256 := by
  obtain ⟨hunit, hop, _⟩ := i.codesFit
  have hw := w.isLt
  constructor
  · rintro ⟨unit, op, idx, rsv⟩
    unfold unitField at unit
    unfold opField at op
    unfold idxField at idx
    unfold rsvField at rsv
    refine ⟨BitVec.eq_of_toNat_eq ?_, by omega⟩
    rw [encode, BitVec.toNat_ofNat]
    omega
  · rintro ⟨rfl, hidx⟩
    have hcode : (encode i).toNat = i.unitOp.1 * 2 ^ 28 + i.unitOp.2 * 2 ^ 24 + i.idx * 2 ^ 16 := by
      rw [encode, BitVec.toNat_ofNat, Nat.mod_eq_of_lt (by omega)]
    constructor
    case unit => rw [unitField, hcode]; omega
    case op => rw [opField, hcode]; omega
    case idx => rw [idxField, hcode]; omega
    case rsv => rw [rsvField, hcode]; omega

/-- A SYS command's IDX is 0 (R104). -/
theorem Instr.idx_eq_zero_of_sys {i : Instr} (h : i.unitOp.1 = 0) : i.idx = 0 := by
  cases i with
  | sysNop | sysReset | sysClrstat => rfl
  | _ => cases h

/-- The opcode map read backwards (R110): only the SYS rows do not pass IDX on. -/
theorem decodePair_eq_ok_iff {unit op idx : Nat} {i : Instr} (hsys : unit = 0 → idx = 0) :
    decodePair unit op idx = .ok i ↔ i.unitOp = (unit, op) ∧ i.idx = idx := by
  constructor
  · intro h
    unfold decodePair at h
    split at h
    case h_1 | h_2 | h_3 => cases h; exact ⟨rfl, (hsys rfl).symm⟩
    case h_27 => cases h
    all_goals cases h; exact ⟨rfl, rfl⟩
  · rintro ⟨hcodes, rfl⟩
    obtain ⟨_, _, hpair⟩ := i.codesFit
    rwa [hcodes] at hpair

theorem decode_eq_ok_iff {w : Word} {i : Instr} : decode w = .ok i ↔ HasFields w i := by
  unfold decode
  split
  case isTrue hrsv => exact ⟨nofun, fun h => absurd h.rsv hrsv⟩
  case isFalse hrsv =>
    split
    case isTrue hsys =>
      obtain ⟨hunit, hidx⟩ := hsys
      refine ⟨nofun, fun h => absurd ?_ hidx⟩
      rw [h.idx, Instr.idx_eq_zero_of_sys (h.unit.symm.trans hunit)]
    case isFalse hsys =>
      rw [decodePair_eq_ok_iff fun hunit => not_not.1 fun hidx => hsys ⟨hunit, hidx⟩, Prod.ext_iff]
      constructor
      · rintro ⟨⟨hunit, hop⟩, hidx⟩
        exact ⟨hunit.symm, hop.symm, hidx.symm, not_not.1 hrsv⟩
      · rintro ⟨hunit, hop, hidx, _⟩
        exact ⟨⟨hunit.symm, hop.symm⟩, hidx.symm⟩

/-- The decoder and the encoder are inverse on the well-formed commands. -/
theorem decode_eq_ok_iff_encode {w : Word} {i : Instr} :
    decode w = .ok i ↔ encode i = w ∧ i.wellFormed = true := by
  rw [decode_eq_ok_iff, hasFields_iff, Instr.wellFormed, decide_eq_true_eq]

/-- Settles O1: the encoding of a well-formed command has the command's fields, which the decoder reads. -/
theorem decodingAnEncodedCommandGivesItBack : Obligations.DecodingAnEncodedCommandGivesItBack :=
  fun _ hwf => decode_eq_ok_iff_encode.2 ⟨rfl, hwf⟩

/-- Settles O2: the fields the decoder reads make up the whole word. -/
theorem encodingADecodedWordGivesItBack : Obligations.EncodingADecodedWordGivesItBack :=
  fun _ _ hdecode => decode_eq_ok_iff_encode.1 hdecode

/-- Settles O4: the decoder evaluated on each word. -/
theorem sampleWordsDecodeAsTheSpecSays : Obligations.SampleWordsDecodeAsTheSpecSays :=
  ⟨rfl, rfl, rfl, rfl, rfl, rfl, rfl, rfl, rfl, rfl, rfl, rfl⟩

end Sys2Proof
end

section
/-! Reserved words (spec/30_encoding.md R106): which words they are, and what a transaction with one does. -/

namespace Sys2Proof

/-- The (UNIT, OP) pairs that are rows of the opcode map (R110). -/
def opcodeRows : List (Nat × Nat) :=
  [(0, 0), (0, 1), (0, 2), (1, 0), (1, 1), (1, 2), (2, 0), (2, 1), (2, 2), (2, 3), (2, 4),
   (3, 0), (3, 1), (3, 2), (3, 3), (3, 4), (4, 0), (4, 1), (4, 2), (4, 3),
   (5, 0), (5, 1), (5, 2), (5, 3), (6, 0), (6, 1)]

theorem Instr.unitOp_mem_opcodeRows (i : Instr) : i.unitOp ∈ opcodeRows := by
  cases i <;> simp [Instr.unitOp, opcodeRows]

theorem unit_lt_of_mem_opcodeRows : ∀ row ∈ opcodeRows, row.1 < 7 := by decide

/-- Each row of the opcode map is the row of a command. -/
theorem exists_decodePair_of_mem_opcodeRows (idx : Nat) :
    ∀ row ∈ opcodeRows, ∃ i, decodePair row.1 row.2 idx = .ok i := by
  intro row hrow
  fin_cases hrow <;> exact ⟨_, rfl⟩

theorem reserved_eq_false_iff_decode {w : Word} : reserved w = false ↔ ∃ i, decode w = .ok i := by
  unfold reserved
  cases decode w with
  | ok i => exact ⟨fun _ => ⟨i, rfl⟩, fun _ => rfl⟩
  | error e => exact ⟨nofun, nofun⟩

/-- A word that is not reserved passes each of R106's tests. -/
theorem reserved_eq_false_iff {w : Word} : reserved w = false ↔
    rsvField w = 0 ∧ (unitField w, opField w) ∈ opcodeRows ∧ (unitField w = 0 → idxField w = 0) := by
  rw [reserved_eq_false_iff_decode]
  constructor
  · rintro ⟨i, hi⟩
    obtain ⟨hunit, hop, hidx, hrsv⟩ := decode_eq_ok_iff.1 hi
    rw [hunit, hop, hidx]
    exact ⟨hrsv, i.unitOp_mem_opcodeRows, Instr.idx_eq_zero_of_sys⟩
  · rintro ⟨hrsv, hrow, hsys⟩
    obtain ⟨i, hi⟩ := exists_decodePair_of_mem_opcodeRows (idxField w) _ hrow
    obtain ⟨hcodes, hidx⟩ := (decodePair_eq_ok_iff hsys).1 hi
    obtain ⟨hunit, hop⟩ := Prod.ext_iff.1 hcodes
    exact ⟨i, decode_eq_ok_iff.2 ⟨hunit.symm, hop.symm, hidx.symm, hrsv⟩⟩

/-- UNIT is the word's top field. -/
theorem unitField_eq (w : Word) : unitField w = w.toNat / 2 ^ 28 := by
  have hw := w.isLt
  unfold unitField
  omega

end Sys2Proof

namespace Sys2Proof.Machine

theorem transact_of_decode {p : Port} {cmd data : Word} {i : Instr} (s : State) (h : decode cmd = .ok i) :
    transact p cmd data s = exec i (s.present p data) := by
  rw [transact, h]

theorem transact_of_reserved {p : Port} {cmd data : Word} (s : State) (h : reserved cmd = true) :
    transact p cmd data s = .next (s.present p data).setIll := by
  unfold reserved at h
  unfold transact
  cases hd : decode cmd with
  | ok i => rw [hd] at h; cases h
  | error e => rfl

/-- Settles O3: a word is reserved where one of R106's tests fails; a UNIT of 7 or more is no row of the opcode map. -/
theorem reservedWordsOnlySetIll : Obligations.ReservedWordsOnlySetIll := by
  refine ⟨fun w => ?words, fun p cmd data s => transact_of_reserved s⟩
  case words =>
    have hrow : (unitField w, opField w) ∈ opcodeRows → unitField w < 7 := unit_lt_of_mem_opcodeRows _
    rw [← Bool.not_eq_false, reserved_eq_false_iff, ← unitField_eq]
    change _ ↔ rsvField w ≠ 0 ∨ 7 ≤ unitField w ∨ (unitField w, opField w) ∉ opcodeRows ∨
      (unitField w = 0 ∧ idxField w ≠ 0)
    rw [← not_lt]
    tauto

end Sys2Proof.Machine
end

section
/-! The transaction's frame (spec/30_encoding.md R100, R107, R108): a command whose IDX is out of range, the
registers a command leaves, and the request a step serves. -/

namespace Sys2Proof.Machine

/-- Settles O6: each command looks its IDX up in its unit's list, which ends at the unit's count. -/
theorem outOfRangeInstanceIsIgnored : Obligations.OutOfRangeInstanceIsIgnored := by
  intro s i hs hsys hidx
  cases i with
  | sysNop | sysReset | sysClrstat => cases hsys
  | smoothSetTarget | smoothGet | smoothSetCoeff =>
    exact onUnit_none _ _ (List.getElem?_eq_none (hs.smooth.trans_le hidx))
  | oscSetFreq | oscSample | oscReset | oscSetWave | oscSetDuty =>
    exact onUnit_none _ _ (List.getElem?_eq_none (hs.osc.trans_le hidx))
  | delaySetBeats | delaySetBpm | delaySetFb | delaySetWet | delayProcess =>
    exact onUnit_none _ _ (List.getElem?_eq_none (hs.delay.trans_le hidx))
  | ladderSetCutoff | ladderSetRes | ladderSetMode | ladderProcess =>
    exact onUnit_none _ _ (List.getElem?_eq_none (hs.ladder.trans_le hidx))
  | biquadSetCutoff | biquadSetQ | biquadSetMode | biquadProcess =>
    exact onUnit_none _ _ (List.getElem?_eq_none (hs.biquad.trans_le hidx))
  | reverbSetRt60 | reverbProcess =>
    exact onUnit_none _ _ (List.getElem?_eq_none (hs.reverb.trans_le hidx))

@[simp] theorem Ports.set_get_self {α : Type} (r : Ports α) (p : Port) : r.set p (r.get p) = r := by
  cases p <;> rfl

/-- Presenting the word that DATA holds already, on the port that is set already, changes nothing. -/
theorem State.present_self (s : State) : s.present s.port s.operand = s := by
  rw [State.present, State.operand, Ports.set_get_self]

/-- Settles O53: every command but SYS.RESET stores its value, if it has one, in its own port's RESULT
(`exec_sameOnBothPorts`), here on the port and with the data word that the state holds. -/
theorem onlyValueCommandsWriteTheirOwnResult : Obligations.OnlyValueCommandsWriteTheirOwnResult := by
  intro i s t hexec hi
  obtain ⟨u, w, hdata, hresult, hrun⟩ := exec_sameOnBothPorts i hi s s.operand
  have hsame := (congrArg (exec i) s.present_self).symm.trans (hrun s.port)
  rw [hexec] at hsame
  injection hsame with ht
  have hpresented : u.data.set s.port s.operand = s.data := by
    rw [hdata, State.operand, Ports.set_get_self]
  subst ht
  cases i.producesValue with
  | false => exact ⟨hpresented, fun _ _ => congrArg (Ports.get · _) hresult, fun _ => hresult⟩
  | true =>
    refine ⟨hpresented, fun q hq => ?_, nofun⟩
    exact (Ports.get_set_other _ _ _ _ hq).trans (congrArg (Ports.get · q) hresult)

/-- A step of a legal block with requests waiting serves the first one of the port that goes next. -/
theorem step_eq_serve {s : State} {p : Port} {r : Request} {rest : List Request} (hlegal : s.cfg.legal = true)
    (hp : s.nextPort = some p) (hq : s.pending.get p = r :: rest) : step s = serve p r (s.taken p rest) := by
  have htake : s.takeRequest = some (p, r, s.taken p rest) :=
    (State.takeRequest_eq_some s _ p r).2 ⟨hp, rest, hq, rfl⟩
  rw [step, if_pos hlegal, advance, htake]

/-- Settles O5: the step is the service of the request, and a command request is a transaction. -/
theorem stepRunsTheDecodedCommand : Obligations.StepRunsTheDecodedCommand := by
  intro s p r rest hlegal hp hq
  have hstep := step_eq_serve hlegal hp hq
  refine ⟨?command, ?reserved, ?busRead, ?busWrite⟩
  case command => rintro cmd data i rfl hdecode; exact hstep.trans (transact_of_decode _ hdecode)
  case reserved => rintro cmd data rfl hreserved; exact hstep.trans (transact_of_reserved _ hreserved)
  case busRead => rintro addr width rfl; exact hstep
  case busWrite => rintro addr bytes rfl; exact hstep

end Sys2Proof.Machine
end

section
/-! The SYS commands (spec/40_system.md R130 to R132): what each does, and the words that are theirs. -/

namespace Sys2Proof.Machine

/-- R130: skip. -/
@[simp] theorem exec_sysNop (s : State) : exec .sysNop s = .next s := rfl

/-- R131: the block's reset. -/
@[simp] theorem exec_sysReset (s : State) : exec .sysReset s = .next s.blockReset := rfl

/-- R132: ILL is cleared. -/
@[simp] theorem exec_sysClrstat (s : State) : exec .sysClrstat s = .next s.clearIll := rfl

/-- A SYS command's word is its OP field alone: it carries no IDX (R104). -/
theorem decode_and_encode_of_sys {i : Instr} {w : Word} (hcode : encode i = w) (hunit : i.unitOp.1 = 0) :
    decode w = .ok i ∧ encode i = w := by
  have hidx : i.idx = 0 := Instr.idx_eq_zero_of_sys hunit
  have hwf : i.wellFormed = true := by rw [Instr.wellFormed, hidx]; rfl
  exact ⟨decode_eq_ok_iff_encode.2 ⟨hcode, hwf⟩, hcode⟩

/-- The words with UNIT and OP of SYS.NOP differ in RSV and IDX only, and a SYS command has both zero (R106). -/
theorem reserved_of_sysNop_opcode {w : Word} (hcodes : w.toNat / 2 ^ 24 = 0) (hw : w ≠ 0#32) :
    reserved w = true := by
  have hpos : w.toNat ≠ 0 := fun h => hw (BitVec.eq_of_toNat_eq h)
  rw [reservedWordsOnlySetIll.1]
  by_cases hrsv : w.toNat % 2 ^ 16 = 0
  case neg => exact .inl hrsv
  case pos => exact .inr (.inr (.inr ⟨by omega, by omega⟩))

/-- Bit 0 is the only bit that clearing ILL clears. -/
theorem State.clearIll_eq (s : State) : s.clearIll = { s with status := s.status &&& 0xFFFFFFFE#32 } := by
  have hmask : ~~~1#32 = 0xFFFFFFFE#32 := by decide
  rw [State.clearIll, hmask]

/-- Settles O10: the transaction of SYS.NOP's word is the skip after DATA took the data word (R100). -/
theorem sysNopSkips : Obligations.SysNopSkips := by
  obtain ⟨hdecode, hencode⟩ := decode_and_encode_of_sys (i := .sysNop) (w := 0x00000000#32) rfl rfl
  refine ⟨hdecode, hencode, exec_sysNop, fun p data s => ?transaction, fun w => reserved_of_sysNop_opcode⟩
  case transaction => rw [transact_of_decode s hdecode, exec_sysNop, State.present]

/-- Settles O11: `State.blockReset` is R43's reset block with what is not a field of R43 put back. -/
theorem sysResetRestoresEveryField : Obligations.SysResetRestoresEveryField := by
  obtain ⟨hdecode, hencode⟩ := decode_and_encode_of_sys (i := .sysReset) (w := 0x01000000#32) rfl rfl
  refine ⟨hdecode, hencode, fun s => ?_⟩
  rw [exec_sysReset, State.blockReset]

/-- Settles O12: clearing ILL is masking bit 0 of STATUS out. -/
theorem sysClrstatClearsIll : Obligations.SysClrstatClearsIll := by
  obtain ⟨hdecode, hencode⟩ := decode_and_encode_of_sys (i := .sysClrstat) (w := 0x02000000#32) rfl rfl
  refine ⟨hdecode, hencode, fun s => ?_⟩
  rw [exec_sysClrstat, State.clearIll_eq]

end Sys2Proof.Machine
end

section
/-! The SMOOTH commands (spec/41_smooth.md R140 to R144): the sentinel and the step, the command words, and what each
command does to a smoother that is there. -/

namespace Sys2Proof

/-- The data equal to 0.0 are the two zeros (R18). -/
theorem F32.eq_zero_iff (x : F32) : x.eq F32.zero = true ↔ ∃ s, x = .fin s 0 := by
  cases x with
  | nan => exact ⟨nofun, nofun⟩
  | inf s =>
    refine ⟨fun h => absurd h ?_, nofun⟩
    cases s <;> decide
  | fin s m =>
    have hkey : (F32.fin s m).eq F32.zero = true ↔ m = 0 := by
      cases s <;> simp [F32.eq, F32.key, F32.zero]
    rw [hkey]
    exact ⟨fun h => ⟨s, by rw [h]⟩, fun ⟨_, h⟩ => (F32.fin.inj h).2⟩

/-- A zero has one encoding, its sign over 31 zero bits (R12). -/
theorem F32.ofBits_eq_zero_iff (w : Word) (s : Bool) : F32.ofBits w = .fin s 0 ↔ w = F32.pack s 0 := by
  constructor
  · intro h
    have hnan : ¬ F32.IsNanWord w := fun hw => nomatch h.symm.trans hw
    calc w = (F32.ofBits w).toBits 0#32 := (F32.toBits_ofBits 0#32 w hnan).symm
      _ = (F32.fin s 0).toBits 0#32 := by rw [h]
      _ = F32.pack s 0 := rfl
  · rintro rfl
    exact F32.ofBits_pack_mag s 0 0 (by decide) (.inl rfl) (by decide)

/-- The words of the sentinel coefficient are +0.0 and -0.0 (R140). -/
theorem F32.ofBits_eq_zero_words (w : Word) :
    (F32.ofBits w).eq F32.zero = true ↔ w = 0x00000000#32 ∨ w = 0x80000000#32 := by
  have hpos : F32.pack false 0 = 0x00000000#32 := by decide
  have hneg : F32.pack true 0 = 0x80000000#32 := by decide
  rw [F32.eq_zero_iff, Bool.exists_bool, F32.ofBits_eq_zero_iff, F32.ofBits_eq_zero_iff, hpos, hneg]

end Sys2Proof

namespace Sys2Proof.Machine

/-- The words of a command on a numbered unit carry the codes of its row, and IDX free (R101, R104). -/
theorem encodedAs_of_unitOp {matchWord unit op : Nat} {command : Nat → Instr}
    (hcodes : ∀ idx, (command idx).unitOp = (unit, op)) (hidx : ∀ idx, (command idx).idx = idx)
    (hmatch : matchWord = unit * 2 ^ 28 + op * 2 ^ 24) : EncodedAs matchWord command := by
  intro idx hlt
  have hwf : (command idx).wellFormed = true := by
    rw [Instr.wellFormed, hidx, decide_eq_true_eq]; exact hlt
  have hencode : encode (command idx) = BitVec.ofNat 32 (matchWord + idx * 2 ^ 16) := by
    rw [encode, hcodes, hidx, hmatch]
  exact ⟨decode_eq_ok_iff_encode.2 ⟨hencode, hwf⟩, hencode⟩

/-- With any coefficient but the sentinel, the current value moves by the formula of R140 and is returned. -/
theorem Smoother.step_moving (nan : Word) (u : Smoother) (h : (F32.ofBits u.coeff).eq F32.zero = false) :
    u.step nan =
      (((F32.ofBits u.cur).add ((F32.ofBits u.coeff).mul
          ((F32.ofBits u.tgt).sub (F32.ofBits u.cur)))).toBits nan,
        { u with cur := ((F32.ofBits u.cur).add ((F32.ofBits u.coeff).mul
          ((F32.ofBits u.tgt).sub (F32.ofBits u.cur)))).toBits nan }) := by
  rw [Smoother.step, h]; rfl

/-- Settles O14: the step by its two branches, and the sentinel by the encodings of a zero. -/
theorem smoothingStepFollowsItsFormula : Obligations.SmoothingStepFollowsItsFormula :=
  ⟨Smoother.step_sentinel, Smoother.step_moving, F32.ofBits_eq_zero_words⟩

/-- R141 on a smoother that is there. -/
theorem exec_smoothSetTarget {s : State} {idx : Nat} {u : Smoother} (hu : s.smooth[idx]? = some u) :
    exec (.smoothSetTarget idx) s =
      .next (if s.operandF.isFinite then s.putSmooth idx { u with tgt := s.operand } else s) :=
  onUnit_some _ _ hu

/-- R142 on a smoother that is there. -/
theorem exec_smoothGet {s : State} {idx : Nat} {u : Smoother} (hu : s.smooth[idx]? = some u) :
    exec (.smoothGet idx) s =
      .next ((s.putSmooth idx (u.step (s.nan .cur)).2).setResult (u.step (s.nan .cur)).1) :=
  onUnit_some _ _ hu

/-- R144 on a smoother that is there. -/
theorem exec_smoothSetCoeff {s : State} {idx : Nat} {u : Smoother} (hu : s.smooth[idx]? = some u) :
    exec (.smoothSetCoeff idx) s =
      .next (if F32.zero.le s.operandF = true ∧ s.operandF.lt F32.one = true then
        s.putSmooth idx { u with coeff := s.operand } else s) := by
  rw [exec, execSmoothSetCoeff, onUnit_some _ _ hu]
  simp only [Bool.and_eq_true]

/-- Settles O15: the operand is the issuing port's DATA, and the store touches one smoother's target. -/
theorem smoothSetTargetStoresAFiniteTarget : Obligations.SmoothSetTargetStoresAFiniteTarget := by
  refine ⟨encodedAs_of_unitOp (fun _ => rfl) (fun _ => rfl) rfl, fun s idx u hu => ?_⟩
  rw [exec_smoothSetTarget hu, State.operandF, State.operand, State.putSmooth]

/-- Settles O16: the stepped record goes to its place in the list and the step's value to the issuing port's RESULT. -/
theorem smoothGetReturnsTheStep : Obligations.SmoothGetReturnsTheStep := by
  refine ⟨encodedAs_of_unitOp (fun _ => rfl) (fun _ => rfl) rfl, fun s idx u hu => ?_⟩
  rw [exec_smoothGet hu, State.setResult, State.putSmooth]

/-- Settles O17: the operand is the issuing port's DATA, tested against both ends of [0, 1). -/
theorem smoothSetCoeffStoresACoefficientBelowOne : Obligations.SmoothSetCoeffStoresACoefficientBelowOne := by
  refine ⟨encodedAs_of_unitOp (fun _ => rfl) (fun _ => rfl) rfl, fun s idx u hu => ?_⟩
  rw [exec_smoothSetCoeff hu, State.operandF, State.operand, State.putSmooth]

end Sys2Proof.Machine
end

section
/-! The OSC commands (spec/42_oscillator.md R160 to R168): the waveforms' constants, and what each command does to an
oscillator that is there. -/

namespace Sys2Proof

/-! The literals of R165 to R168 are whole numbers, and 0.5, that binary32 holds exactly (R16). -/

theorem F32.one_eq_ofBits : F32.one = F32.ofBits 0x3F800000#32 := by decide
theorem F32.two_eq_ofBits : F32.two = F32.ofBits 0x40000000#32 := by decide
theorem F32.neg_one_eq_ofBits : F32.one.neg = F32.ofBits 0xBF800000#32 := by decide
theorem F32.half_eq_ofBits : F32.lit 1 2 = F32.ofBits 0x3F000000#32 := by decide
theorem F32.three_eq_ofBits : F32.lit 3 1 = F32.ofBits 0x40400000#32 := by decide
theorem F32.four_eq_ofBits : F32.lit 4 1 = F32.ofBits 0x40800000#32 := by decide

/-- 2^32 is below +inf in the order of R18, so R160's test of the quotient against 2^32 covers +inf. -/
theorem F32.two_pow_le_inf : (F32.ofNat (2 ^ 32)).le (.inf false) = true := by decide

end Sys2Proof

namespace Sys2Proof.Machine

/-- Settles O23: each waveform is its rule's formula once the literals are written as their encodings. -/
theorem waveformsFollowTheirFormulas : Obligations.WaveformsFollowTheirFormulas := by
  intro ph len duty
  refine ⟨?saw, ?sine, ?square, ?triangle⟩
  case saw => rw [waveValue, sawValue, F32.two_eq_ofBits, F32.one_eq_ofBits]
  case sine => rw [waveValue, sineValue, F32.twoPi]
  case square => rw [waveValue, squareValue, F32.neg_one_eq_ofBits, F32.one_eq_ofBits]
  case triangle =>
    rw [waveValue, triangleValue, F32.half_eq_ofBits, F32.four_eq_ofBits, F32.three_eq_ofBits, F32.one_eq_ofBits]

/-- A quotient that is +inf or at least 2^32 saturates (R160). -/
theorem cycleLength_saturated {fsF hz : F32}
    (h : fsF.div hz = .inf false ∨ (F32.ofNat (2 ^ 32)).le (fsF.div hz) = true) :
    cycleLength fsF hz = 0xFFFFFFFF#32 := by
  have hle : (F32.ofNat (2 ^ 32)).le (fsF.div hz) = true := h.elim (fun hinf => hinf ▸ F32.two_pow_le_inf) id
  rw [cycleLength, if_pos hle]

/-- Any other quotient is truncated (R160). -/
theorem cycleLength_truncated {fsF hz : F32} (h : ¬ (F32.ofNat (2 ^ 32)).le (fsF.div hz) = true) :
    cycleLength fsF hz = BitVec.ofNat 32 (fsF.div hz).trunc := by
  rw [cycleLength, if_neg h]

/-- The commit touches the cycle length only (R161). -/
theorem Osc.commit_eq (o : Osc) : o.commit = { o with cyc := o.commit.cyc } := by
  unfold Osc.commit; split <;> rfl

theorem waveOf_of_three_lt {n : Nat} (h : 3 < n) : waveOf n = none := by
  match n, h with
  | _ + 4, _ => rfl

/-- The operand names the waveforms in their order, from 0 to 3 (R163). -/
theorem waveOf_toNat (w : Word) : waveOf w.toNat =
    if w = 0#32 then some .saw
    else if w = 1#32 then some .sine
    else if w = 2#32 then some .square
    else if w = 3#32 then some .triangle
    else none := by
  split_ifs with hsaw hsine hsquare htriangle
  · rw [hsaw]; rfl
  · rw [hsine]; rfl
  · rw [hsquare]; rfl
  · rw [htriangle]; rfl
  · exact waveOf_of_three_lt (by bv_omega)

/-- R160 on an oscillator that is there. -/
theorem exec_oscSetFreq {s : State} {idx : Nat} {o : Osc} (ho : s.osc[idx]? = some o) :
    exec (.oscSetFreq idx) s =
      .next (if s.operandF.isFinite = true ∧ F32.zero.lt s.operandF = true then
        s.putOsc idx { o with pend := cycleLength s.cfg.fsF s.operandF } else s) := by
  rw [exec, execOscSetFreq, onUnit_some _ _ ho]
  simp only [Bool.and_eq_true]

/-- R161 on an oscillator that is there. -/
theorem exec_oscSample {s : State} {idx : Nat} {o : Osc} (ho : s.osc[idx]? = some o) :
    exec (.oscSample idx) s =
      .next ((s.putOsc idx (o.sample (s.nan .result)).2).setResult (o.sample (s.nan .result)).1) :=
  onUnit_some _ _ ho

/-- R162 on an oscillator that is there. -/
theorem exec_oscReset {s : State} {idx : Nat} {o : Osc} (ho : s.osc[idx]? = some o) :
    exec (.oscReset idx) s = .next (s.putOsc idx { o with phase := 0#32 }) :=
  onUnit_some _ _ ho

/-- R163 on an oscillator that is there. -/
theorem exec_oscSetWave {s : State} {idx : Nat} {o : Osc} (ho : s.osc[idx]? = some o) :
    exec (.oscSetWave idx) s =
      .next ((waveOf s.operandU).elim s fun w => s.putOsc idx { o with wave := w }) := by
  rw [exec, execOscSetWave, onUnit_some _ _ ho]
  cases waveOf s.operandU <;> rfl

/-- R164 on an oscillator that is there. -/
theorem exec_oscSetDuty {s : State} {idx : Nat} {o : Osc} (ho : s.osc[idx]? = some o) :
    exec (.oscSetDuty idx) s =
      .next (if s.operandF.isFinite then
        s.putOsc idx { o with duty := (s.operandF.clamp dutyMin dutyMax).toBits (s.nan .setting) } else s) :=
  onUnit_some _ _ ho

/-- Settles O18: an accepted frequency stores the cycle length, saturated or truncated. -/
theorem oscSetFreqStoresThePendingLength : Obligations.OscSetFreqStoresThePendingLength := by
  refine ⟨encodedAs_of_unitOp (fun _ => rfl) (fun _ => rfl) rfl, fun s idx o ho => ?_⟩
  rw [exec_oscSetFreq ho, State.operandF, State.operand, Params.fsF]
  dsimp only
  split
  case isFalse => rfl
  case isTrue =>
    split
    case isTrue hsat => rw [cycleLength_saturated hsat, State.putOsc]
    case isFalse hsat => rw [cycleLength_truncated (not_or.1 hsat).2, State.putOsc]

/-- Settles O19: the sample step by its two outcomes, at the length that the commit leaves. -/
theorem oscSampleCommitsThenSoundsOrIsSilent : Obligations.OscSampleCommitsThenSoundsOrIsSilent := by
  refine ⟨encodedAs_of_unitOp (fun _ => rfl) (fun _ => rfl) rfl, fun s idx o ho => ?_⟩
  rw [exec_oscSample ho, ← Osc.commit_cyc]
  dsimp only
  split
  case isTrue hsilent => rw [Osc.sample_silent _ _ hsilent, Osc.commit_eq, State.setResult, State.putOsc]
  case isFalse hsounding =>
    rw [Osc.sample_sounding _ _ hsounding, Osc.commit_eq, Osc.advance, State.setResult, State.putOsc]

/-- Settles O20: the store touches one oscillator's phase. -/
theorem oscResetZeroesThePhase : Obligations.OscResetZeroesThePhase := by
  refine ⟨encodedAs_of_unitOp (fun _ => rfl) (fun _ => rfl) rfl, fun s idx o ho => ?_⟩
  rw [exec_oscReset ho, State.putOsc]

/-- Settles O21: the data word is one of the four numbers, or no waveform's. -/
theorem oscSetWaveSelectsOneOfFour : Obligations.OscSetWaveSelectsOneOfFour := by
  refine ⟨encodedAs_of_unitOp (fun _ => rfl) (fun _ => rfl) rfl, fun s idx o ho => ?_⟩
  rw [exec_oscSetWave ho, State.operandU, State.operand, waveOf_toNat]
  split_ifs <;> rfl

/-- Settles O22: the operand is the issuing port's DATA, clamped between the two fixed bounds. -/
theorem oscSetDutyStoresTheClampedDuty : Obligations.OscSetDutyStoresTheClampedDuty := by
  refine ⟨encodedAs_of_unitOp (fun _ => rfl) (fun _ => rfl) rfl, fun s idx o ho => ?_⟩
  rw [exec_oscSetDuty ho, State.operandF, State.operand, State.putOsc, dutyMin, dutyMax]

end Sys2Proof.Machine
end

section
/-! The cycle of a committed oscillator (spec/42_oscillator.md R169). -/

namespace Sys2Proof.Machine

/-- A committed oscillator that was at phase 0, `t` samples later (R169). -/
def Osc.inCycle (o : Osc) (t : Nat) : Osc := { o with phase := BitVec.ofNat 32 (t % o.cyc.toNat) }

@[simp] theorem Osc.inCycle_cyc (o : Osc) (t : Nat) : (o.inCycle t).cyc = o.cyc := rfl
@[simp] theorem Osc.inCycle_wave (o : Osc) (t : Nat) : (o.inCycle t).wave = o.wave := rfl
@[simp] theorem Osc.inCycle_duty (o : Osc) (t : Nat) : (o.inCycle t).duty = o.duty := rfl

theorem Osc.inCycle_zero {o : Osc} (h : o.phase = 0#32) : o.inCycle 0 = o := by
  rw [Osc.inCycle, Nat.zero_mod, ← h]

/-- The phase is the remainder itself: a remainder by a 32-bit length fits 32 bits. -/
theorem Osc.inCycle_phase_toNat {o : Osc} (t : Nat) (h : o.cyc ≠ 0#32) :
    (o.inCycle t).phase.toNat = t % o.cyc.toNat := by
  have hlt : t % o.cyc.toNat < o.cyc.toNat := Nat.mod_lt _ (Nat.pos_of_ne_zero (BitVec.toNat_inj.not.2 h))
  rw [Osc.inCycle, BitVec.toNat_ofNat, Nat.mod_eq_of_lt (hlt.trans o.cyc.isLt)]

theorem Osc.advance_inCycle {o : Osc} (t : Nat) (h : o.cyc ≠ 0#32) :
    (o.inCycle t).advance = o.inCycle (t + 1) := by
  rw [Osc.advance, Osc.inCycle_phase_toNat t h, Osc.inCycle_cyc, Nat.mod_add_mod, Osc.inCycle, Osc.inCycle]

theorem Osc.inCycle_add_cyc (o : Osc) (t : Nat) : o.inCycle (t + o.cyc.toNat) = o.inCycle t := by
  rw [Osc.inCycle, Nat.add_mod_right, Osc.inCycle]

/-- With the pending length current already, a commit changes nothing. -/
theorem Osc.commit_eq_self {o : Osc} (h : o.pend = o.cyc) : o.commit = o := by
  have hcyc : o.commit.cyc = o.cyc := by rw [Osc.commit_cyc, h, ite_self]
  rw [Osc.commit_eq, hcyc]

/-- A committed oscillator's sample is the waveform at the phase, and its phase advances (R161). -/
theorem Osc.sample_committed (n : Word) {o : Osc} (hpend : o.pend = o.cyc) (hcyc : o.cyc ≠ 0#32) :
    o.sample n = ((waveValue o.wave (F32.ofNat o.phase.toNat) (F32.ofNat o.cyc.toNat)
      (F32.ofBits o.duty)).toBits n, o.advance) := by
  have hcommit : o.commit = o := Osc.commit_eq_self hpend
  rw [Osc.sample_sounding n o (hcommit.symm ▸ hcyc), hcommit]

/-- A sample at a place in the cycle is the waveform there and leads to the next place (R169). -/
theorem Osc.sample_inCycle (n : Word) {o : Osc} (hpend : o.pend = o.cyc) (hcyc : o.cyc ≠ 0#32) (t : Nat) :
    (o.inCycle t).sample n = ((waveValue o.wave (F32.ofNat (t % o.cyc.toNat)) (F32.ofNat o.cyc.toNat)
      (F32.ofBits o.duty)).toBits n, o.inCycle (t + 1)) := by
  rw [Osc.sample_committed n (o := o.inCycle t) hpend hcyc, Osc.inCycle_phase_toNat t hcyc,
    Osc.advance_inCycle t hcyc, Osc.inCycle_wave, Osc.inCycle_cyc, Osc.inCycle_duty]

/-- R169's cycle, by induction over the samples. -/
theorem oscAfter_eq_inCycle (nan : Nat → Word) {o : Osc} (hphase : o.phase = 0#32) (hpend : o.pend = o.cyc)
    (hcyc : o.cyc ≠ 0#32) (t : Nat) : oscAfter nan o t = o.inCycle t := by
  induction t with
  | zero => exact (Osc.inCycle_zero hphase).symm
  | succ t ih => rw [oscAfter, ih, Osc.sample_inCycle (nan t) hpend hcyc]

/-- Settles O24: the state after `t` samples is the place in the cycle, which returns after a whole cycle. -/
theorem oscillatorIsPeriodicOnceCommitted : Obligations.OscillatorIsPeriodicOnceCommitted := by
  intro nan o t hphase hpend hcyc
  have hafter := oscAfter_eq_inCycle nan hphase hpend hcyc
  refine ⟨hafter t, ?value, ?period⟩
  case value => rw [hafter, Osc.sample_inCycle (nan t) hpend hcyc]
  case period => rw [hafter, hafter, Osc.inCycle_add_cyc]

end Sys2Proof.Machine
end

section
/-! The sign of a computed delay length (spec/43_delay.md R191): products and quotients of data that are not below 0
are not below 0, whatever overflows, rounds to 0 or becomes a NaN on the way. -/

namespace Sys2Proof

/-- Not below 0 are the finite data of sign + and the two zeros (R18). -/
theorem F32.fin_not_neg_iff (s : Bool) (m : Nat) : (F32.fin s m).lt F32.zero = false ↔ s = false ∨ m = 0 := by
  cases s <;> simp [F32.lt, F32.key, F32.zero]

theorem F32.inf_not_neg_iff (s : Bool) : (F32.inf s).lt F32.zero = false ↔ s = false := by
  cases s <;> decide

/-- Above 0 are the finite data of sign + that are no zeros (R18). -/
theorem F32.fin_pos_iff (s : Bool) (m : Nat) : F32.zero.lt (.fin s m) = true ↔ s = false ∧ m ≠ 0 := by
  cases s <;> simp [F32.lt, F32.key, F32.zero, Nat.pos_iff_ne_zero]

/-- A magnitude rounded with the sign + is not below 0, and neither is a zero rounded with the sign -. -/
theorem F32.round_not_neg {s : Bool} {n : Nat} (d : Nat) (h : s = false ∨ n = 0) :
    (F32.round s n d).lt F32.zero = false := by
  rcases h with rfl | rfl
  · rw [F32.round]
    split
    · exact (F32.fin_not_neg_iff _ _).2 (.inl rfl)
    · exact (F32.inf_not_neg_iff _).2 rfl
  · rw [F32.round_zero]
    exact (F32.fin_not_neg_iff _ _).2 (.inr rfl)

/-- An infinity times a datum that is not below 0: a NaN for a zero, and +inf otherwise (R14). -/
theorem F32.inf_mul_not_neg {b : F32} (hb : b.lt F32.zero = false) :
    ((F32.inf false).mul b).lt F32.zero = false := by
  cases b with
  | nan => rfl
  | inf t => rw [(F32.inf_not_neg_iff t).1 hb]; decide
  | fin t n =>
    rw [F32.mul]
    split
    case isTrue => rfl
    case isFalse hn => rw [((F32.fin_not_neg_iff t n).1 hb).resolve_right hn]; decide

theorem F32.mul_comm (a b : F32) : a.mul b = b.mul a := by
  cases a <;> cases b <;> simp [F32.mul, Bool.xor_comm, Nat.mul_comm]

theorem F32.mul_not_neg {a b : F32} (ha : a.lt F32.zero = false) (hb : b.lt F32.zero = false) :
    (a.mul b).lt F32.zero = false := by
  cases a with
  | nan => rfl
  | inf s =>
    rw [(F32.inf_not_neg_iff s).1 ha]
    exact F32.inf_mul_not_neg hb
  | fin s m =>
    cases b with
    | nan => rfl
    | inf t =>
      rw [(F32.inf_not_neg_iff t).1 hb, F32.mul_comm]
      exact F32.inf_mul_not_neg ha
    | fin t n =>
      refine F32.round_not_neg _ ?_
      rcases (F32.fin_not_neg_iff s m).1 ha, (F32.fin_not_neg_iff t n).1 hb with ⟨rfl | rfl, rfl | rfl⟩ <;> simp

/-- A quotient by a finite divisor above 0; the divisor cannot be a zero, since 1.0 / -0.0 is -inf (R14). -/
theorem F32.div_not_neg {a b : F32} (ha : a.lt F32.zero = false) (hfinite : b.isFinite = true)
    (hb : F32.zero.lt b = true) : (a.div b).lt F32.zero = false := by
  cases b with
  | nan => cases hfinite
  | inf t => cases hfinite
  | fin t n =>
    obtain ⟨rfl, hn⟩ := (F32.fin_pos_iff t n).1 hb
    cases a with
    | nan => rfl
    | inf s => rw [(F32.inf_not_neg_iff s).1 ha]; rfl
    | fin s m =>
      rw [F32.div_fin, if_pos hn]
      refine F32.round_not_neg _ ?_
      simpa [F32.one149] using (F32.fin_not_neg_iff s m).1 ha

/-- A datum that is not below 0 and has a place in the order is at least 0 (R18). -/
theorem F32.zero_le_of_not_neg {x : F32} {k : Int} (hx : x.lt F32.zero = false) (hk : x.key = some k) :
    F32.zero.le x = true := by
  have hzero : F32.zero.key = some 0 := rfl
  simp only [F32.lt, F32.le, hk, hzero, decide_eq_false_iff_not, decide_eq_true_eq] at hx ⊢
  omega

theorem F32.not_neg_of_zero_le {x : F32} (h : F32.zero.le x = true) : x.lt F32.zero = false := by
  obtain ⟨z, k, hz, hk, hle⟩ := (F32.le_iff _ _).1 h
  simp only [F32.lt, hz, hk, decide_eq_false_iff_not]
  omega

theorem F32.ofNat_not_neg (n : Nat) : (F32.ofNat n).lt F32.zero = false := F32.round_not_neg 1 (.inl rfl)

theorem F32.lit_not_neg (n d : Nat) : (F32.lit n d).lt F32.zero = false := F32.round_not_neg d (.inl rfl)

/-- The order is reflexive but for NaNs (R18). -/
theorem F32.le_refl_of_key {x : F32} {k : Int} (hk : x.key = some k) : x.le x = true :=
  (F32.le_iff _ _).2 ⟨k, k, hk, hk, le_refl k⟩

end Sys2Proof

namespace Sys2Proof.Machine

/-- R191's formula before its test against the capacity. -/
theorem delayLength_not_neg (c : Params) {beats bpm : F32} (hbeats : F32.zero.le beats = true)
    (hfinite : bpm.isFinite = true) (hbpm : F32.zero.lt bpm = true) :
    ((((F32.lit 60 1).mul beats).div bpm).mul c.fsF).lt F32.zero = false := by
  have hminutes : ((F32.lit 60 1).mul beats).lt F32.zero = false :=
    F32.mul_not_neg (F32.lit_not_neg 60 1) (F32.not_neg_of_zero_le hbeats)
  exact F32.mul_not_neg (F32.div_not_neg hminutes hfinite hbpm) (F32.ofNat_not_neg c.fs)

/-- The capacity of a legal block's delay line is a finite datum (R6, R190). -/
theorem key_capacity {c : Params} (h : c.legal = true) :
    (F32.ofNat c.nDbuf).key = some ((c.nDbuf * F32.one149 : Nat) : Int) := by
  rw [F32.ofNat_exact _ (Params.legal_lines_le h).1]
  rfl

/-- Settles O29: no operation of R191's formula leads below 0, and the test against the capacity, which is finite,
replaces a NaN and +inf. -/
theorem delayTargetStaysWithinTheLine : Obligations.DelayTargetStaysWithinTheLine := by
  intro c beats bpm hlegal _ hbeats hfinite hbpm
  have hlength := delayLength_not_neg c hbeats hfinite hbpm
  have hcapacity := key_capacity hlegal
  rw [delayTarget]
  split
  case isTrue hle =>
    obtain ⟨_, _, hkey, _, _⟩ := (F32.le_iff _ _).1 hle
    exact ⟨F32.zero_le_of_not_neg hlength hkey, hle⟩
  case isFalse =>
    exact ⟨F32.zero_le_of_not_neg (F32.ofNat_not_neg _) hcapacity, F32.le_refl_of_key hcapacity⟩

end Sys2Proof.Machine
end

section
/-! The DELAY commands (spec/43_delay.md R191 to R197): the constants, and what each command does to a delay that is
there. -/

namespace Sys2Proof

/-- The literal 60.0 of R191 is a whole number, which binary32 holds exactly (R16). -/
theorem F32.sixty_eq_ofBits : F32.lit 60 1 = F32.ofBits 0x42700000#32 := by decide
theorem F32.zero_eq_ofBits : F32.zero = F32.ofBits 0x00000000#32 := by decide

end Sys2Proof

namespace Sys2Proof.Machine

/-- A retarget writes the length's target and nothing else (R191). -/
theorem Delay.retarget_eq (c : Params) (nan : Word) (d : Delay) :
    d.retarget c nan =
      (let t := (((F32.ofBits 0x42700000#32).mul (F32.ofBits d.beats)).div (F32.ofBits d.bpm)).mul
         (F32.ofNat c.fs)
       let cap := F32.ofNat (c.maxDelayMs * c.fs / 1000)
       { d with sLen := { d.sLen with tgt := (if t.le cap then t else cap).toBits nan } }) := by
  rw [Delay.retarget, delayTarget, F32.sixty_eq_ofBits, Params.fsF, Params.nDbuf]

/-- R193 on a delay that is there. -/
theorem exec_delaySetBeats {s : State} {idx : Nat} {d : Delay} (hd : s.delay[idx]? = some d) :
    exec (.delaySetBeats idx) s =
      .next (if s.operandF.isFinite = true ∧ F32.zero.le s.operandF = true then
        s.putDelay idx (Delay.retarget s.cfg (s.nan .setting) { d with beats := s.operand }) else s) := by
  rw [exec, execDelaySetBeats, onUnit_some _ _ hd]
  simp only [Bool.and_eq_true]

/-- R192 on a delay that is there. -/
theorem exec_delaySetBpm {s : State} {idx : Nat} {d : Delay} (hd : s.delay[idx]? = some d) :
    exec (.delaySetBpm idx) s =
      .next (if s.operandF.isFinite = true ∧ F32.zero.lt s.operandF = true then
        s.putDelay idx (Delay.retarget s.cfg (s.nan .setting) { d with bpm := s.operand }) else s) := by
  rw [exec, execDelaySetBpm, onUnit_some _ _ hd]
  simp only [Bool.and_eq_true]

/-- R194 on a delay that is there. -/
theorem exec_delaySetFb {s : State} {idx : Nat} {d : Delay} (hd : s.delay[idx]? = some d) :
    exec (.delaySetFb idx) s =
      .next (if s.operandF.isFinite then
        s.putDelay idx { d with fb := (s.operandF.clamp F32.zero delayFbMax).toBits (s.nan .setting) } else s) :=
  onUnit_some _ _ hd

/-- R196 on a delay that is there. -/
theorem exec_delaySetWet {s : State} {idx : Nat} {d : Delay} (hd : s.delay[idx]? = some d) :
    exec (.delaySetWet idx) s =
      .next (if s.operandF.isFinite then
        s.putDelay idx { d with sWet :=
          { d.sWet with tgt := (s.operandF.clamp F32.zero F32.one).toBits (s.nan .setting) } } else s) :=
  onUnit_some _ _ hd

/-- R195 on a delay that is there. -/
theorem exec_delayProcess {s : State} {idx : Nat} {d : Delay} (hd : s.delay[idx]? = some d) :
    exec (.delayProcess idx) s =
      .next ((s.putDelay idx (d.process s.cfg s.nan s.operand).2).setResult
        (d.process s.cfg s.nan s.operand).1) :=
  onUnit_some _ _ hd

/-- Settles O25: an accepted length is stored before the retarget, which reads it. -/
theorem delaySetBeatsRetargetsTheLength : Obligations.DelaySetBeatsRetargetsTheLength := by
  refine ⟨encodedAs_of_unitOp (fun _ => rfl) (fun _ => rfl) rfl, fun s idx d hd => ?_⟩
  rw [exec_delaySetBeats hd, Delay.retarget_eq, State.operandF, State.operand, State.putDelay]

/-- Settles O26: an accepted tempo is stored before the retarget, which reads it. -/
theorem delaySetBpmRetargetsTheLength : Obligations.DelaySetBpmRetargetsTheLength := by
  refine ⟨encodedAs_of_unitOp (fun _ => rfl) (fun _ => rfl) rfl, fun s idx d hd => ?_⟩
  rw [exec_delaySetBpm hd, Delay.retarget_eq, State.operandF, State.operand, State.putDelay]

/-- -0.0 is not above +0.0, so the lower bound replaces it (R194). -/
theorem clamp_negZero_feedback : (F32.ofBits 0x80000000#32).clamp F32.zero delayFbMax = F32.zero := by decide

/-- Settles O27: the operand is the issuing port's DATA, clamped from +0.0 up. -/
theorem delaySetFbStoresTheClampedFeedback : Obligations.DelaySetFbStoresTheClampedFeedback := by
  refine ⟨encodedAs_of_unitOp (fun _ => rfl) (fun _ => rfl) rfl, fun s idx d hd => ?_, fun n => ?_⟩
  · rw [exec_delaySetFb hd, F32.zero_eq_ofBits, delayFbMax, State.operandF, State.operand, State.putDelay]
  · rw [← F32.zero_eq_ofBits, ← delayFbMax, clamp_negZero_feedback]
    show F32.pack false (F32.magBits 0) = 0x00000000#32
    decide

/-- Settles O28: the operand is the issuing port's DATA, clamped into the target of the wet smoother. -/
theorem delaySetWetStoresTheClampedTarget : Obligations.DelaySetWetStoresTheClampedTarget := by
  refine ⟨encodedAs_of_unitOp (fun _ => rfl) (fun _ => rfl) rfl, fun s idx d hd => ?_⟩
  rw [exec_delaySetWet hd, F32.zero_eq_ofBits, F32.one_eq_ofBits, State.operandF, State.operand, State.putDelay]

/-- Settles O30: the per-sample step by its two outcomes, an echo from one sample on and the input below it. -/
theorem delayProcessEchoesOrPassesThrough : Obligations.DelayProcessEchoesOrPassesThrough := by
  refine ⟨encodedAs_of_unitOp (fun _ => rfl) (fun _ => rfl) rfl, fun x n => F32.toBits_ofBits n x,
    fun s idx d hd => ?_⟩
  rw [exec_delayProcess hd, State.operand]
  dsimp only
  split
  case isTrue hlong =>
    rw [Delay.process_long _ _ _ _ hlong, Delay.echo, tapDelay, Delay.filter, dryGain, dryFloor, State.setResult,
      State.putDelay]
  case isFalse hshort =>
    rw [Delay.process_short _ _ _ _ (Bool.eq_false_iff.2 hshort), State.setResult, State.putDelay]

end Sys2Proof.Machine
end

section
/-! The cap on the ladder's feedback (spec/44_ladder.md R210, R217): a zero resonance times the scale, against the
cap. -/

namespace Sys2Proof

/-- A zero times a finite datum is a zero, of the signs' product (R14). -/
theorem F32.zero_mul_fin (s t : Bool) (n : Nat) : (F32.fin s 0).mul (.fin t n) = .fin (s ^^ t) 0 := by
  rw [F32.mul, Nat.zero_mul, F32.round_zero]

/-- A zero times an infinity or a NaN is a NaN (R14). -/
theorem F32.zero_mul_of_not_finite (s : Bool) {x : F32} (h : ¬ x.isFinite = true) :
    (F32.fin s 0).mul x = .nan := by
  cases x with
  | nan => rfl
  | inf t => rfl
  | fin t n => exact absurd rfl h

/-- A comparison with a NaN fails, so the minimum is the second operand (R18). -/
theorem F32.nan_fmin (b : F32) : F32.nan.fmin b = b := rfl

end Sys2Proof

namespace Sys2Proof.Machine

/-- Both zeros are below the cap. -/
theorem zero_fmin_ladderRMax (s : Bool) : (F32.fin s 0).fmin ladderRMax = .fin s 0 := by
  cases s <;> decide

/-- The minimum with the cap: the cap replaces a NaN too, since it has a place in the order itself (R217 item 1). -/
theorem ladderR_le_max (fsF fc res : F32) : (ladderR fsF fc res).le ladderRMax = true := by
  obtain ⟨k, hk⟩ := F32.key_of_isFinite ladderRMax (by decide)
  exact F32.fmin_le_right _ _ k hk

/-- A zero resonance and a finite scale: the product is a zero, below the cap (R217 item 2). -/
theorem ladderR_of_zero_of_finite (s : Bool) {fsF fc : F32} (h : (ladderScale fsF fc).isFinite = true) :
    ∃ t, ladderR fsF fc (.fin s 0) = .fin t 0 := by
  rw [ladderR]
  cases hscale : ladderScale fsF fc with
  | nan => rw [hscale] at h; cases h
  | inf t => rw [hscale] at h; cases h
  | fin t n => exact ⟨s ^^ t, by rw [F32.zero_mul_fin, zero_fmin_ladderRMax]⟩

/-- A zero resonance and an infinite or NaN scale: the product is a NaN, and the minimum is the cap. -/
theorem ladderR_of_zero_of_not_finite (s : Bool) {fsF fc : F32} (h : ¬ (ladderScale fsF fc).isFinite = true) :
    ladderR fsF fc (.fin s 0) = ladderRMax := by
  rw [ladderR, F32.zero_mul_of_not_finite s h, F32.nan_fmin]

/-- Settles O35: the cap bounds every minimum with it, and a zero resonance leaves a zero or a NaN to be capped. -/
theorem ladderFeedbackIsCapped : Obligations.LadderFeedbackIsCapped := by
  refine ⟨ladderR_le_max, fun fsF fc res hres => ?_⟩
  obtain ⟨s, rfl⟩ := (F32.eq_zero_iff res).1 hres
  split
  case isTrue hfinite => exact (F32.eq_zero_iff _).2 (ladderR_of_zero_of_finite s hfinite)
  case isFalse hscale => exact ladderR_of_zero_of_not_finite s hscale

end Sys2Proof.Machine
end

section
/-! The LADDER commands (spec/44_ladder.md R210 to R216): the constants and the modes, and what each command does to a
ladder that is there. -/

namespace Sys2Proof

/-! The literals 3.6 and 1.6 of R210 stand for the nearest binary32 values (R16). -/

theorem F32.threePointSix_eq_ofBits : F32.lit 36 10 = F32.ofBits 0x40666666#32 := by decide
theorem F32.onePointSix_eq_ofBits : F32.lit 16 10 = F32.ofBits 0x3FCCCCCD#32 := by decide

end Sys2Proof

namespace Sys2Proof.Machine

/-! R210's coefficients with the literals as their encodings. -/

theorem ladderF_eq (fsF fc : F32) : ladderF fsF fc = ((F32.ofBits 0x40000000#32).mul fc).div fsF := by
  rw [ladderF, F32.two_eq_ofBits]

theorem ladderK_eq (fsF fc : F32) : ladderK fsF fc =
    (((F32.ofBits 0x40666666#32).mul (ladderF fsF fc)).sub
      (((F32.ofBits 0x3FCCCCCD#32).mul (ladderF fsF fc)).mul (ladderF fsF fc))).sub
        (F32.ofBits 0x3F800000#32) := by
  rw [ladderK, F32.threePointSix_eq_ofBits, F32.onePointSix_eq_ofBits, F32.one_eq_ofBits]

theorem ladderP_eq (fsF fc : F32) : ladderP fsF fc =
    ((ladderK fsF fc).add (F32.ofBits 0x3F800000#32)).mul (F32.ofBits 0x3F000000#32) := by
  rw [ladderP, F32.one_eq_ofBits, F32.half_eq_ofBits]

theorem ladderR_eq (fsF fc res : F32) : ladderR fsF fc res =
    (res.mul (((F32.ofBits 0x3F800000#32).sub (ladderP fsF fc)).mul (F32.ofBits 0x3FB1709B#32)).exp).fmin
      (F32.ofBits 0x407F5C29#32) := by
  rw [ladderR, ladderScale, F32.one_eq_ofBits, ladderScaleK, ladderRMax]

theorem ladderLowpass_eq (v res : F32) : ladderLowpass v res =
    v.mul ((F32.ofBits 0x3F800000#32).add (res.mul (F32.ofBits 0x3F000000#32))) := by
  rw [ladderLowpass, F32.one_eq_ofBits, ladderCompK]

theorem ladderOut_eq (mode : FilterMode) (x lp : F32) :
    ladderOut mode x lp = if mode = .lowpass then lp else x.sub lp := by
  cases mode <;> rfl

theorem modeOf_of_one_lt {n : Nat} (h : 1 < n) : modeOf n = none := by
  match n, h with
  | _ + 2, _ => rfl

/-- The operand names the modes in their order, 0 and 1 (R213, R233). -/
theorem modeOf_toNat (w : Word) : modeOf w.toNat =
    if w = 0#32 then some .lowpass
    else if w = 1#32 then some .highpass
    else none := by
  split_ifs with hlowpass hhighpass
  · rw [hlowpass]; rfl
  · rw [hhighpass]; rfl
  · exact modeOf_of_one_lt (by bv_omega)

/-- R211 on a ladder that is there. -/
theorem exec_ladderSetCutoff {s : State} {idx : Nat} {l : Ladder} (hl : s.ladder[idx]? = some l) :
    exec (.ladderSetCutoff idx) s =
      .next (if s.operandF.isFinite then
        s.putLadder idx { l with sFc :=
          { l.sFc with tgt := (s.cfg.clampLadderFc s.operandF).toBits (s.nan .setting) } } else s) :=
  onUnit_some _ _ hl

/-- R212 on a ladder that is there. -/
theorem exec_ladderSetRes {s : State} {idx : Nat} {l : Ladder} (hl : s.ladder[idx]? = some l) :
    exec (.ladderSetRes idx) s =
      .next (if s.operandF.isFinite then
        s.putLadder idx { l with sRes := { l.sRes with tgt :=
          (s.operandF.clamp F32.zero (F32.ofBits s.cfg.ladderResMax)).toBits (s.nan .setting) } } else s) :=
  onUnit_some _ _ hl

/-- R213 on a ladder that is there. -/
theorem exec_ladderSetMode {s : State} {idx : Nat} {l : Ladder} (hl : s.ladder[idx]? = some l) :
    exec (.ladderSetMode idx) s =
      .next ((modeOf s.operandU).elim s fun m => s.putLadder idx { l with mode := m }) := by
  rw [exec, execLadderSetMode, onUnit_some _ _ hl]
  cases modeOf s.operandU <;> rfl

/-- R215 on a ladder that is there. -/
theorem exec_ladderProcess {s : State} {idx : Nat} {l : Ladder} (hl : s.ladder[idx]? = some l) :
    exec (.ladderProcess idx) s =
      .next ((s.putLadder idx (l.process s.cfg.fsF s.nan s.operandF).2).setResult
        (l.process s.cfg.fsF s.nan s.operandF).1) :=
  onUnit_some _ _ hl

/-- Settles O31: the operand is the issuing port's DATA, clamped between the block's bounds. -/
theorem ladderSetCutoffStoresTheClampedTarget : Obligations.LadderSetCutoffStoresTheClampedTarget := by
  refine ⟨encodedAs_of_unitOp (fun _ => rfl) (fun _ => rfl) rfl, fun s idx l hl => ?_⟩
  rw [exec_ladderSetCutoff hl, Params.clampLadderFc, Params.fsF, State.operandF, State.operand, State.putLadder]

/-- Settles O32: the operand is the issuing port's DATA, clamped from +0.0 up. -/
theorem ladderSetResStoresTheClampedTarget : Obligations.LadderSetResStoresTheClampedTarget := by
  refine ⟨encodedAs_of_unitOp (fun _ => rfl) (fun _ => rfl) rfl, fun s idx l hl => ?_⟩
  rw [exec_ladderSetRes hl, State.operandF, State.operand, State.putLadder]

/-- Settles O33: the data word is one of the two numbers, or no mode's. -/
theorem ladderSetModeSelectsOneOfTwo : Obligations.LadderSetModeSelectsOneOfTwo := by
  refine ⟨encodedAs_of_unitOp (fun _ => rfl) (fun _ => rfl) rfl, fun s idx l hl => ?_⟩
  rw [exec_ladderSetMode hl, State.operandU, State.operand, modeOf_toNat]
  split_ifs <;> rfl

/-- Settles O34: the per-sample step with R210's coefficients, R214's stage and R215's output written out. -/
theorem ladderProcessRunsFourFlushedStages : Obligations.LadderProcessRunsFourFlushedStages := by
  refine ⟨encodedAs_of_unitOp (fun _ => rfl) (fun _ => rfl) rfl, fun s idx l hl => ?_⟩
  rw [exec_ladderProcess hl, State.setResult, State.putLadder, State.operandF, State.operand, Params.fsF]
  simp only [Ladder.process, Ladder.stages, ladderStage, ladderOut_eq, ladderLowpass_eq, ladderR_eq, ladderP_eq,
    ladderK_eq, ladderF_eq]

end Sys2Proof.Machine
end

section
/-! The BIQUAD commands (spec/45_biquad.md R230 to R235): the coefficient formulas with the literals as their encodings,
and what each command does to a biquad core that is there. -/

namespace Sys2Proof

/-- The factor -2.0 of R230 is 2.0 with its sign flipped (R14, R16). -/
theorem F32.neg_two_eq_ofBits : F32.two.neg = F32.ofBits 0xC0000000#32 := by decide

end Sys2Proof

namespace Sys2Proof.Machine

/-- Settles O37: with the literals folded back into the named constants, each mode selects its own b0 and b1. -/
theorem biquadCoefficientsFollowTheirFormulas : Obligations.BiquadCoefficientsFollowTheirFormulas := by
  intro fsF nan fc q mode
  rw [← F32.neg_two_eq_ofBits, ← F32.one_eq_ofBits, ← F32.two_eq_ofBits, ← F32.twoPi]
  cases mode with
  | lowpass => rfl
  | highpass => rfl

/-- A core given new settings: the coefficients are those of the settings and the history stays (R230). -/
theorem State.putBiquad_recompute (s : State) (idx : Nat) (c : Biquad) (fc q : Word) (mode : FilterMode) :
    s.putBiquad idx (Biquad.recompute s.cfg.fsF s.nan { c with fc := fc, q := q, mode := mode }) =
      (let k := biquadCoeffs (F32.ofNat s.cfg.fs) s.nan (F32.ofBits fc) (F32.ofBits q) mode
       { s with biquad := (s.biquad.set idx
           { fc := fc, q := q, mode := mode, b0 := k.b0, b1 := k.b1, b2 := k.b2, a1 := k.a1, a2 := k.a2,
             x1 := c.x1, x2 := c.x2, y1 := c.y1, y2 := c.y2 }) }) := by
  rw [State.putBiquad, Biquad.recompute, Params.fsF]

/-- R231 on a biquad core that is there. -/
theorem exec_biquadSetCutoff {s : State} {idx : Nat} {c : Biquad} (hc : s.biquad[idx]? = some c) :
    exec (.biquadSetCutoff idx) s =
      .next (if s.operandF.isFinite then
        s.putBiquad idx (Biquad.recompute s.cfg.fsF s.nan
          { c with fc := (s.cfg.clampBqFc s.operandF).toBits (s.nan .setting) }) else s) :=
  onUnit_some _ _ hc

/-- R232 on a biquad core that is there. -/
theorem exec_biquadSetQ {s : State} {idx : Nat} {c : Biquad} (hc : s.biquad[idx]? = some c) :
    exec (.biquadSetQ idx) s =
      .next (if s.operandF.isFinite then
        s.putBiquad idx (Biquad.recompute s.cfg.fsF s.nan
          { c with q := (s.cfg.clampBqQ s.operandF).toBits (s.nan .setting) }) else s) :=
  onUnit_some _ _ hc

/-- R233 on a biquad core that is there. -/
theorem exec_biquadSetMode {s : State} {idx : Nat} {c : Biquad} (hc : s.biquad[idx]? = some c) :
    exec (.biquadSetMode idx) s =
      .next ((modeOf s.operandU).elim s fun m =>
        s.putBiquad idx (Biquad.recompute s.cfg.fsF s.nan { c with mode := m })) := by
  rw [exec, execBiquadSetMode, onUnit_some _ _ hc]
  cases modeOf s.operandU <;> rfl

/-- R235 on a biquad core that is there. -/
theorem exec_biquadProcess {s : State} {idx : Nat} {c : Biquad} (hc : s.biquad[idx]? = some c) :
    exec (.biquadProcess idx) s =
      .next ((s.putBiquad idx (c.step (s.nan .y) s.operand).2).setResult (c.step (s.nan .y) s.operand).1) :=
  onUnit_some _ _ hc

/-- Settles O36: each setter puts back the core with one setting replaced and its coefficients recomputed. -/
theorem biquadSettersRecomputeTheCoefficients : Obligations.BiquadSettersRecomputeTheCoefficients := by
  refine ⟨encodedAs_of_unitOp (fun _ => rfl) (fun _ => rfl) rfl,
    encodedAs_of_unitOp (fun _ => rfl) (fun _ => rfl) rfl,
    encodedAs_of_unitOp (fun _ => rfl) (fun _ => rfl) rfl, fun s idx c hc => ⟨?cutoff, ?q, ?mode⟩⟩
  case cutoff =>
    rw [exec_biquadSetCutoff hc, State.putBiquad_recompute, Params.clampBqFc, Params.fsF, State.operandF, State.operand]
  case q =>
    rw [exec_biquadSetQ hc, State.putBiquad_recompute, Params.clampBqQ, State.operandF, State.operand]
  case mode =>
    rw [exec_biquadSetMode hc, State.operandU, State.operand, modeOf_toNat]
    split_ifs
    · exact congrArg Host.Outcome.next (s.putBiquad_recompute idx c c.fc c.q .lowpass)
    · exact congrArg Host.Outcome.next (s.putBiquad_recompute idx c c.fc c.q .highpass)
    · rfl

/-- Settles O38: the recursion of R234 on the issuing port's DATA, its output stored and returned as it is. -/
theorem biquadProcessIsOneDirectFormStep : Obligations.BiquadProcessIsOneDirectFormStep := by
  refine ⟨encodedAs_of_unitOp (fun _ => rfl) (fun _ => rfl) rfl, fun s idx c hc => ?_⟩
  rw [exec_biquadProcess hc, State.operand, State.setResult, State.putBiquad, Biquad.step, Biquad.output]

end Sys2Proof.Machine
end

section
/-! The impulse response of a comb (spec/46_reverb.md R254): the line holds the echoes written so far, each a binary32
value from +0.0 to 1.0, so no product overflows and every sum has a term that is +0.0. -/

open Sys2Proof.Machine

namespace Sys2Proof

theorem F32.one_eq_fin : F32.one = .fin false F32.one149 := by decide

/-- A binary32 value of sign + from +0.0 to 1.0. -/
structure F32.InClosedUnit (x : F32) : Prop where
  representable : F32.Representable x
  bounded : ∃ m, x = .fin false m ∧ m ≤ F32.one149

theorem F32.inClosedUnit_zero : F32.zero.InClosedUnit := ⟨F32.representable_zero false, 0, rfl, Nat.zero_le _⟩

theorem F32.inClosedUnit_one : F32.one.InClosedUnit := ⟨F32.representable_lit 1 1, _, F32.one_eq_fin, le_rfl⟩

/-- R254's range of a comb's feedback. -/
theorem F32.inClosedUnit_ofBits {w : Word} {m : Nat} (hw : F32.ofBits w = .fin false m)
    (hlt : (F32.ofBits w).lt F32.one = true) : (F32.ofBits w).InClosedUnit := by
  refine ⟨F32.representable_ofBits w, m, hw, ?_⟩
  rw [hw, F32.one_eq_fin] at hlt
  simp only [F32.lt, F32.key, Bool.false_eq_true, if_false, decide_eq_true_eq] at hlt
  omega

/-- 1.0 is a binary32 value, so a product of two values up to 1.0 does not round past it (R14). -/
theorem F32.InClosedUnit.mul {x y : F32} (hx : x.InClosedUnit) (hy : y.InClosedUnit) : (x.mul y).InClosedUnit := by
  refine ⟨F32.representable_mul x y, ?_⟩
  obtain ⟨m, rfl, hm⟩ := hx.bounded
  obtain ⟨n, rfl, hn⟩ := hy.bounded
  have hone : F32.Representable (.fin false F32.one149) := F32.one_eq_fin ▸ F32.representable_lit 1 1
  have hle : F32.roundMag (m * n) F32.one149 ≤ F32.one149 :=
    F32.roundMag_le _ _ _ (by decide) hone (Nat.mul_le_mul hm hn)
  have hround : (F32.fin false m).mul (.fin false n) = .fin false (F32.roundMag (m * n) F32.one149) :=
    if_pos (lt_of_le_of_lt hle (by decide))
  exact ⟨_, hround, hle⟩

/-- Storing a value that is no NaN draws nothing, and reading it back gives it again. -/
theorem F32.InClosedUnit.ofBits_toBits {x : F32} (hx : x.InClosedUnit) (n : Word) : F32.ofBits (x.toBits n) = x := by
  obtain ⟨m, rfl, _⟩ := hx.bounded
  exact hx.representable (F32.nanWord 0#24) (F32.isNanWord_nanWord 0#24)

theorem F32.InClosedUnit.toBits_congr {x : F32} (hx : x.InClosedUnit) (n k : Word) : x.toBits n = x.toBits k := by
  obtain ⟨m, rfl, _⟩ := hx.bounded
  rfl

/-- A sum with +0.0 is exact. -/
theorem F32.InClosedUnit.zero_add {x : F32} (hx : x.InClosedUnit) : F32.zero.add x = x := by
  obtain ⟨m, rfl, _⟩ := hx.bounded
  rw [F32.zero, F32.add, if_pos rfl, Nat.zero_add, F32.round_representable _ _ hx.representable]

theorem F32.InClosedUnit.mul_zero {x : F32} (hx : x.InClosedUnit) : x.mul F32.zero = F32.zero := by
  obtain ⟨m, rfl, _⟩ := hx.bounded
  rw [F32.mul_comm]
  exact F32.zero_mul_fin false false m

theorem F32.one_add_zero : F32.one.add F32.zero = F32.one := by decide

end Sys2Proof

namespace Sys2Proof.Machine

theorem f32Power_inClosedUnit {f : F32} (hf : f.InClosedUnit) (k : Nat) : (f32Power f k).InClosedUnit := by
  induction k with
  | zero => exact F32.inClosedUnit_one
  | succ k ih => exact hf.mul ih

/-- What a comb with delay `d` and feedback `f` writes into its line at sample `t` of the unit impulse. -/
def combEcho (d : Nat) (f : F32) (t : Nat) : F32 := if t % d = 0 then f32Power f (t / d) else F32.zero

theorem combEcho_inClosedUnit {f : F32} (hf : f.InClosedUnit) (d t : Nat) : (combEcho d f t).InClosedUnit := by
  unfold combEcho
  split
  · exact f32Power_inClosedUnit hf _
  · exact F32.inClosedUnit_zero

/-- The response R254 states: +0.0 but at the positive multiples of the delay. -/
def combResponse (d : Nat) (f : F32) (t : Nat) : F32 :=
  if t ≠ 0 ∧ t % d = 0 then f32Power f (t / d - 1) else F32.zero

/-- The response is the echoes, one delay later. -/
theorem combResponse_eq_combEcho {d t : Nat} (f : F32) (hd : 1 ≤ d) :
    combResponse d f t = if d ≤ t then combEcho d f (t - d) else F32.zero := by
  unfold combResponse combEcho
  split
  case isTrue h =>
    have hle : d ≤ t := Nat.le_of_dvd (by omega) (Nat.dvd_of_mod_eq_zero h.2)
    rw [if_pos hle, ← Nat.mod_eq_sub_mod hle, if_pos h.2, Nat.div_eq_sub_div hd hle, Nat.add_sub_cancel]
  case isFalse h =>
    by_cases hle : d ≤ t
    · have hmod : t % d ≠ 0 := fun h0 => h ⟨by omega, h0⟩
      rw [if_pos hle, ← Nat.mod_eq_sub_mod hle, if_neg hmod]
    · rw [if_neg hle]

/-- R250's sum on the impulse and the comb's own response is the next echo: the impulse itself at sample 0, one more
factor of the feedback at each later multiple of the delay, and +0.0 elsewhere. -/
theorem unitImpulse_add_feedback {f : F32} (hf : f.InClosedUnit) {d : Nat} (hd : 1 ≤ d) (t : Nat) :
    (unitImpulse t).add (f.mul (combResponse d f t)) = combEcho d f t := by
  unfold unitImpulse combResponse combEcho
  by_cases h0 : t = 0
  · subst h0
    simp [hf.mul_zero, F32.one_add_zero, f32Power]
  · rw [if_neg h0]
    by_cases hmod : t % d = 0
    · have hle : d ≤ t := Nat.le_of_dvd (by omega) (Nat.dvd_of_mod_eq_zero hmod)
      have hsucc : t / d = t / d - 1 + 1 := (Nat.sub_add_cancel (Nat.div_pos hle hd)).symm
      rw [if_pos ⟨h0, hmod⟩, if_pos hmod, hsucc, Nat.add_sub_cancel]
      exact (f32Power_inClosedUnit hf (t / d - 1 + 1)).zero_add
    · rw [if_neg fun h => hmod h.2, if_neg hmod, hf.mul_zero]
      exact F32.inClosedUnit_zero.zero_add

/-- The words written to the line before sample `t`. -/
def combEchoes (d : Nat) (f : F32) (t : Nat) : List Word :=
  (List.range t).map fun i => (combEcho d f i).toBits 0#32

theorem combEchoes_length (d : Nat) (f : F32) (t : Nat) : (combEchoes d f t).length = t := by simp [combEchoes]

theorem combEchoes_succ (d : Nat) (f : F32) (t : Nat) :
    combEchoes d f (t + 1) = combEchoes d f t ++ [(combEcho d f t).toBits 0#32] := by
  simp [combEchoes, List.range_succ]

theorem combEchoes_getD {d : Nat} (f : F32) {t i : Nat} (h : i < t) :
    (combEchoes d f t).getD i 0#32 = (combEcho d f i).toBits 0#32 := by
  simp [combEchoes, h]

/-- The tap of R250 reads the write of `d` samples ago (R74). -/
theorem tap_combEchoes {f : F32} (hf : f.InClosedUnit) {d : Nat} (hd : 1 ≤ d) (hle : d ≤ 2 ^ 24) (t : Nat) :
    F32.ofBits ((lineAfter d (combEchoes d f t)).tap d d) = combResponse d f t := by
  rw [aTapAtDelayDReturnsTheDthLastWrite d d _ hle hd le_rfl, combEchoes_length, combResponse_eq_combEcho f hd]
  split
  case isTrue h =>
    rw [combEchoes_getD f (by omega)]
    exact (combEcho_inClosedUnit hf d _).ofBits_toBits _
  case isFalse => decide

/-- The line after `t` samples holds the echoes of those samples; no NaN draw reaches it. -/
theorem combLine_eq_lineAfter (nan : Nat → Word) {f : F32} (hf : f.InClosedUnit) {d : Nat} (hd : 1 ≤ d)
    (hle : d ≤ 2 ^ 24) (t : Nat) : combLine nan d f t = lineAfter d (combEchoes d f t) := by
  induction t with
  | zero => rfl
  | succ t ih =>
    rw [combLine, ih, combStep, tap_combEchoes hf hd hle, unitImpulse_add_feedback hf hd, combEchoes_succ,
      lineAfter_append, (combEcho_inClosedUnit hf d t).toBits_congr (nan t) 0#32]

/-- Settles O41: the output at a sample is the tap of the line that the samples before it filled. -/
theorem combImpulseResponseIsGeometric : Obligations.CombImpulseResponseIsGeometric := by
  intro nan d m t w hd hle hw hlt
  have hf := F32.inClosedUnit_ofBits hw hlt
  rw [combOutput, combLine_eq_lineAfter nan hf hd hle t, combStep]
  exact tap_combEchoes hf hd hle t

end Sys2Proof.Machine
end

section
/-! The REVERB commands (spec/46_reverb.md R250 to R253): the constants, and what each command does to a reverb that is
there. -/

namespace Sys2Proof

theorem F32.neg_three_eq_ofBits : (F32.lit 3 1).neg = F32.ofBits 0xC0400000#32 := by decide
theorem F32.quarter_eq_ofBits : F32.lit 1 4 = F32.ofBits 0x3E800000#32 := by decide

/-- The cap on a legal block's feedbacks is a number (R8). -/
theorem Params.key_reverbFbMax {c : Params} (h : c.legal = true) : ∃ k, (F32.ofBits c.reverbFbMax).key = some k := by
  have hunit : inUnit c.reverbFbMax = true := by
    simp only [Params.legal, Params.numericLegal, List.all_cons, Bool.and_eq_true, id] at h
    tauto
  rw [inUnit, Bool.and_eq_true] at hunit
  obtain ⟨_, k, _, hk, _⟩ := (F32.le_iff _ _).1 hunit.1
  exact ⟨k, hk⟩

end Sys2Proof

namespace Sys2Proof.Machine

/-- R252's formula with the literal as its encoding. -/
theorem rt60Feedback_eq (c : Params) (t : F32) (n : Nat) : rt60Feedback c t n =
    ((((F32.ofBits 0xC0400000#32).div (F32.ofNat c.fs)).div t).mul (F32.ofNat n)).pow10.fmin
      (F32.ofBits c.reverbFbMax) := by
  rw [rt60Feedback, F32.neg_three_eq_ofBits, Params.fsF]

theorem rt60Feedback_le {c : Params} (h : c.legal = true) (t : F32) (n : Nat) :
    (rt60Feedback c t n).le (F32.ofBits c.reverbFbMax) = true := by
  obtain ⟨k, hk⟩ := Params.key_reverbFbMax h
  exact F32.fmin_le_right _ _ k hk

/-- R253's average with the literal as its encoding. -/
theorem combAverage_eq (c0 c1 c2 c3 : F32) :
    combAverage c0 c1 c2 c3 = (((c0.add c1).add c2).add c3).mul (F32.ofBits 0x3E800000#32) := by
  rw [combAverage, F32.quarter_eq_ofBits]

/-- R252 on a reverb that is there. -/
theorem exec_reverbSetRt60 {s : State} {idx : Nat} {rv : Reverb} (hrv : s.reverb[idx]? = some rv) :
    exec (.reverbSetRt60 idx) s =
      .next (if s.operandF.isFinite = true ∧ F32.zero.lt s.operandF = true then
        s.putReverb idx { rv with fbc := Four.of fun k =>
          (rt60Feedback s.cfg s.operandF (s.cfg.combLen.get k)).toBits (s.nan (.combFb k)) } else s) := by
  rw [exec, execReverbSetRt60, onUnit_some _ _ hrv]
  simp only [Bool.and_eq_true]

/-- R253 on a reverb that is there. -/
theorem exec_reverbProcess {s : State} {idx : Nat} {rv : Reverb} (hrv : s.reverb[idx]? = some rv) :
    exec (.reverbProcess idx) s =
      .next ((s.putReverb idx (rv.process s.cfg s.nan s.operandF).2).setResult
        (rv.process s.cfg s.nan s.operandF).1) :=
  onUnit_some _ _ hrv

/-- Settles O39: four feedbacks by one formula, each a minimum with the cap, which a legal block has as a number. -/
theorem reverbSetRt60SetsFourCappedFeedbacks : Obligations.ReverbSetRt60SetsFourCappedFeedbacks := by
  refine ⟨encodedAs_of_unitOp (fun _ => rfl) (fun _ => rfl) rfl, fun s idx rv hrv => ?_,
    fun c t n h => rt60Feedback_le h t n⟩
  rw [exec_reverbSetRt60 hrv, State.putReverb, State.operandF, State.operand, Four.of]
  simp only [rt60Feedback_eq]

/-- Settles O40: the per-sample step with each comb, the average and each all-pass written out. -/
theorem reverbProcessRunsCombsThenAllpasses : Obligations.ReverbProcessRunsCombsThenAllpasses := by
  refine ⟨encodedAs_of_unitOp (fun _ => rfl) (fun _ => rfl) rfl, fun _ _ _ _ _ => rfl, fun _ _ _ _ _ => rfl,
    fun s idx rv hrv => ?_⟩
  rw [exec_reverbProcess hrv, State.setResult, State.putReverb, State.operandF, State.operand]
  simp only [Reverb.process, Reverb.combAt, Reverb.allpassAt, combAverage_eq]

end Sys2Proof.Machine
end

section
/-! Completion (spec/60_exceptions.md R270, R275): every command, every transaction, every request and every step of a
legal block answers a next state, and an idle block answers its own (R282). -/

namespace Sys2Proof.Machine

/-- A command on an instance answers a next state whether or not the instance is there (R108). -/
theorem onUnit_completes {α : Type} (units : List α) (idx : Nat) (absent : State) (perform : α → State) :
    ∃ t, onUnit units idx absent perform = .next t := by
  cases h : units[idx]? with
  | none => exact ⟨absent, onUnit_none absent perform h⟩
  | some u => exact ⟨perform u, onUnit_some absent perform h⟩

/-- The three SYS commands answer directly; each other command is an operation on one instance of its unit. -/
theorem exec_completes (i : Instr) (s : State) : ∃ t, exec i s = .next t := by
  cases i with
  | sysNop | sysReset | sysClrstat => exact ⟨_, rfl⟩
  | smoothSetTarget | smoothGet | smoothSetCoeff => exact onUnit_completes s.smooth _ _ _
  | oscSetFreq | oscSample | oscReset | oscSetWave | oscSetDuty => exact onUnit_completes s.osc _ _ _
  | delaySetBeats | delaySetBpm | delaySetFb | delaySetWet | delayProcess =>
    exact onUnit_completes s.delay _ _ _
  | ladderSetCutoff | ladderSetRes | ladderSetMode | ladderProcess => exact onUnit_completes s.ladder _ _ _
  | biquadSetCutoff | biquadSetQ | biquadSetMode | biquadProcess => exact onUnit_completes s.biquad _ _ _
  | reverbSetRt60 | reverbProcess => exact onUnit_completes s.reverb _ _ _

/-- A word that decodes performs its command, and any other sets ILL (R106). -/
theorem transact_completes (p : Port) (cmd data : Word) (s : State) : ∃ t, transact p cmd data s = .next t := by
  cases hreserved : reserved cmd with
  | true => exact ⟨_, transact_of_reserved s hreserved⟩
  | false =>
    obtain ⟨i, hdecode⟩ := reserved_eq_false_iff_decode.1 hreserved
    rw [transact_of_decode s hdecode]
    exact exec_completes i (s.present p data)

/-- A write to CMD is a transaction; a write to any other register answers directly (R80 to R84). -/
theorem writeReg_completes (r : WindowReg) (w : Word) (s : State) : ∃ t, writeReg r w s = .next t := by
  cases r with
  | cmd p => exact transact_completes p w (s.data.get p) s
  | data | result | status => exact ⟨_, rfl⟩

/-- A bus write is a register's write, or ignored: outside the window, misaligned or narrow (R85). -/
theorem busWrite_completes (addr : Nat) (bytes : List Byte) (s : State) :
    ∃ t, busWrite addr bytes s = .next t := by
  unfold busWrite
  split
  case h_1 => exact ⟨s, rfl⟩
  case h_2 =>
    split
    case h_1 r w _ _ => exact writeReg_completes r w s
    case h_2 => exact ⟨s, rfl⟩

theorem serve_completes (p : Port) (r : Request) (s : State) : ∃ t, serve p r s = .next t := by
  cases r with
  | command cmd data => exact transact_completes p cmd data s
  | busRead addr width => exact ⟨s.busRead addr width, rfl⟩
  | busWrite addr bytes => exact busWrite_completes addr bytes s

/-- A step of a legal block with no request to take is idle (R282). -/
theorem step_of_takeRequest_eq_none {s : State} (hlegal : s.cfg.legal = true) (h : s.takeRequest = none) :
    step s = .next s := by
  rw [step, if_pos hlegal, advance, h]

/-- A step of a legal block is idle, or serves the first request of the port that goes next. -/
theorem step_completes {s : State} (hlegal : s.cfg.legal = true) : ∃ t, step s = .next t := by
  cases htake : s.takeRequest with
  | none => exact ⟨s, step_of_takeRequest_eq_none hlegal htake⟩
  | some taken =>
    obtain ⟨p, r, s'⟩ := taken
    obtain ⟨hp, rest, hq, _⟩ := (State.takeRequest_eq_some s s' p r).1 htake
    rw [step_eq_serve hlegal hp hq]
    exact serve_completes p r (s.taken p rest)

/-- Settles O9: no command faults or refuses, so no request and no step of a legal block does; `step` itself
refuses the parameters that are not legal. -/
theorem everyCommandAndStepCompletes : Obligations.EveryCommandAndStepCompletes := by
  refine ⟨exec_completes, fun _ => step_completes, fun s hillegal => ?_⟩
  rw [step, if_neg (Bool.eq_false_iff.1 hillegal)]

/-- Settles O8: with both queues empty there is no request to take. -/
theorem idleBlockKeepsItsState : Obligations.IdleBlockKeepsItsState := fun s hlegal hctrl haudio =>
  step_of_takeRequest_eq_none hlegal (s.takeRequest_eq_none.2 ⟨hctrl, haudio⟩)

end Sys2Proof.Machine
end
